-- ==== Sys2Proof/Word.lean ====
section
/-! DEFINITION. The word types of the block (00_scope.md R10, 30_encoding.md R81).

The block has no machine word: it moves bytes over 8-bit ports, holds 16-bit counts, reads 32-bit host
samples and is addressed by 25-bit bus transaction words. Ticks are unbounded natural numbers. -/

namespace Sys2Proof

/-- An 8-bit unsigned value (R10). -/
abbrev Byte := BitVec 8

/-- A 16-bit unsigned value (R10): a PIT count as it stands in a read latch. -/
abbrev Word16 := BitVec 16

/-- A host time sample, `HOST_TICK_BITS` = 32 bits wide (R7, R123). -/
abbrev HostTick := BitVec 32

/-- A guest I/O port number (R60: 16 bits). -/
abbrev Port := BitVec 16

/-- A bus transaction word (R81): bit 24 the direction, bits 23:8 the port, bits 7:0 the data. -/
abbrev Btw := BitVec 25

/-- A number of PIT ticks, without upper bound (R10, R121). -/
abbrev Tick := Nat

/-- One of the three PIT channels (R7: `N_CH` = 3). -/
abbrev Chan := Fin 3

/-- One of the eight inputs of one PIC (R33). -/
abbrev Input := Fin 8

/-- One of the sixteen PIC lines (R7: `N_IRQ` = 16). -/
abbrev Irq := Fin 16

/-- One of the thirty-two scheduler lines (R7: `N_SCHED` = 32). -/
abbrev Line := Fin 32

end Sys2Proof
end

