-- ==== Sys2Proof/Syntax.lean ====
section
/-! DEFINITION. The operations of the block as syntax: one constructor of `Instr` per row of
spec/opcode_table.json, and the requests by which the guest and the host issue them (R14, R80).

An operand is a field the operation's rule names. Bits that a form ignores without naming them (R100: the
`x` bits of a row's `data_pattern`) are no operands; the named bits that have no effect (ICW1 ADI, ICW4 BUF,
M/S and µPM) are, so that "it has no effect" can be said of them. -/

namespace Sys2Proof

/-- The two PICs: `M` the master, `S` the slave (R7). -/
inductive PicId where
  | master
  | slave
deriving DecidableEq, Repr

/-- A channel's access width (R25). The field value 0b00 is a command and is never stored. -/
inductive Rw where
  | lsb
  | msb
  | word
deriving DecidableEq, Repr

/-- Which byte of a WORD transfer comes next (R30). -/
inductive Phase where
  | lo
  | hi
deriving DecidableEq, Repr

/-- The ICW sequencer of one PIC (R38): 0 ready, 1 awaiting ICW2, 2 awaiting ICW3, 3 awaiting ICW4. -/
inductive InitState where
  | ready
  | icw2
  | icw3
  | icw4
deriving DecidableEq, Repr

/-- The two kinds of RESET (R360). -/
inductive ResetKind where
  | cold
  | soft
deriving DecidableEq, Repr

/-- The width of an access wider than 8 bits (R64). -/
inductive WideWidth where
  | bits16
  | bits32
deriving DecidableEq, Repr

/-- The operations of the block, in the order of spec/opcode_table.json. -/
inductive Instr where
  /-- PIT.CW.READBACK (R154). `countN` and `statusN` are bits 5 and 4, active low. -/
  | pitReadback (countN statusN cnt2 cnt1 cnt0 : Bool)
  /-- PIT.CW.LATCH (R152). -/
  | pitLatch (c : Chan)
  /-- PIT.CW.MODE (R153). -/
  | pitMode (c : Chan) (rw : Rw) (m : BitVec 3) (bcd : Bool)
  /-- PIT.CTRL.READ (R157). -/
  | pitCtrlRead
  /-- PIT.DATA.WRITE (R155). -/
  | pitDataWrite (c : Chan) (v : Byte)
  /-- PIT.DATA.READ (R156). -/
  | pitDataRead (c : Chan)
  /-- PIC.ICW1 (R257). -/
  | picIcw1 (p : PicId) (ltim adi sngl ic4 : Bool)
  /-- PIC.OCW3 (R271). -/
  | picOcw3 (p : PicId) (esmm smm poll rr ris : Bool)
  /-- PIC.OCW2.ROT_AEOI_CLR (R263). -/
  | picRotAeoiClr (p : PicId)
  /-- PIC.OCW2.NSEOI (R264). -/
  | picNseoi (p : PicId)
  /-- PIC.OCW2.NOP (R265). -/
  | picNop (p : PicId)
  /-- PIC.OCW2.SEOI (R266). -/
  | picSeoi (p : PicId) (l : Input)
  /-- PIC.OCW2.ROT_AEOI_SET (R267). -/
  | picRotAeoiSet (p : PicId)
  /-- PIC.OCW2.ROT_NSEOI (R268). -/
  | picRotNseoi (p : PicId)
  /-- PIC.OCW2.SETPRIO (R269). -/
  | picSetPrio (p : PicId) (l : Input)
  /-- PIC.OCW2.ROT_SEOI (R270). -/
  | picRotSeoi (p : PicId) (l : Input)
  /-- PIC.ICW2 (R258). -/
  | picIcw2 (p : PicId) (v : Byte)
  /-- PIC.ICW3 (R259). -/
  | picIcw3 (p : PicId) (v : Byte)
  /-- PIC.ICW4 (R260). `upm` is µPM. -/
  | picIcw4 (p : PicId) (sfnm buf ms aeoi upm : Bool)
  /-- PIC.OCW1 (R261). -/
  | picOcw1 (p : PicId) (v : Byte)
  /-- PIC.READ.POLL (R272). `dataPort` is the row's A0: a poll read may be of either port. -/
  | picReadPoll (p : PicId) (dataPort : Bool)
  /-- PIC.READ.CMD (R273). -/
  | picReadCmd (p : PicId)
  /-- PIC.READ.DATA (R274). -/
  | picReadData (p : PicId)
  /-- ELCR.WRITE (R275). -/
  | elcrWrite (p : PicId) (v : Byte)
  /-- ELCR.READ (R276). -/
  | elcrRead (p : PicId)
  /-- SPKR.WRITE (R300). -/
  | spkrWrite (v : Byte)
  /-- SPKR.READ (R301). -/
  | spkrRead
  /-- RESET(kind) (R360). -/
  | reset (kind : ResetKind)
  /-- ADVANCE(t, guest_if) (R120). -/
  | advance (t : HostTick) (guestIf : Bool)
  /-- RAISE(L) (R248). -/
  | raise (l : Nat)
  /-- LOWER(L) (R249). -/
  | lower (l : Nat)
  /-- INTA() (R252). -/
  | inta
  /-- IS_PENDING() (R250). -/
  | isPending
  /-- SCHEDULE(L, iv) (R203). -/
  | schedule (l : Nat) (iv : Int)
  /-- ELAPSED(c) (R302). -/
  | elapsed (c : Nat)
  /-- MAY_SLEEP(vip, sigq) (R216). -/
  | maySleep (vip sigq : Bool)
deriving DecidableEq, Repr

/-- The nine named host calls (R82). A host call has no bit encoding: it is its name with its arguments. -/
inductive HostCall where
  | reset (kind : ResetKind)
  | advance (t : HostTick) (guestIf : Bool)
  | raise (l : Nat)
  | lower (l : Nat)
  | inta
  | isPending
  | schedule (l : Nat) (iv : Int)
  | elapsed (c : Nat)
  | maySleep (vip sigq : Bool)
deriving DecidableEq, Repr

/-- What the outside issues to the block, one request per operation (R14): an 8-bit port access as its bus
transaction word, a named host call, or a port access wider than 8 bits, which is no operation of the block
(R64) and of which only the port and the width matter. -/
inductive Request where
  | bus (w : Btw)
  | host (h : HostCall)
  | wide (port : Port) (width : WideWidth)
deriving DecidableEq, Repr

end Sys2Proof
end

