-- ==== Sys2Proof/Config.lean ====
section
/-! DEFINITION. The parameters of the block (00_scope.md R7), its reset table (70_reset_and_hazards.md R361)
and the free values.

An OPEN parameter of R7 and a value the spec leaves to `draw_N` (R12) is an `opaque` constant: nothing can be
proved of its value, so a theorem that mentions it holds whatever it is. -/

namespace Sys2Proof

/-- `CASCADE_IN` (R7, R246): the master input that the slave's output drives. -/
def Config.cascadeIn : Input := 2

/-- `COUNT_MAX` (R7): what a written count of 0 means. -/
def Config.countMax : Nat := 65536

/-- `SCHED_LIMIT` (R7, R205; 90_conflicts.md C3). -/
def Config.schedLimit : Int := 0x3fffffff

/-- `ELCR_MASK[P]` (R7, R35): the writable bits of each PIC's edge/level control register. -/
def Config.elcrMask : PicId → Byte
  | .master => 0xF8
  | .slave => 0xDE

/-- `IF_STUCK_LIMIT` (R7, R125): OPEN, a natural number. DESIGN CHOICE (log 3): a constant without a value. -/
opaque Config.ifStuckLimit : Nat

/-- `FLOOD_THRESHOLD` (R7, R216): OPEN, a natural number of ticks. DESIGN CHOICE (log 3): a constant without a
value. -/
opaque Config.floodThreshold : Nat

/-- `draw_16()` (R12): the count read past terminal count (R148, R382). DESIGN CHOICE (log 2): the n-th draw of
the machine is this constant, which has no value, at n. -/
opaque Config.draw16 : Nat → BitVec 16

/-- `draw_3()` (R12): bits 2:0 of a poll word with nothing requesting (R96, R272). DESIGN CHOICE (log 2). -/
opaque Config.draw3 : Nat → BitVec 3

/-- `draw_2()` (R12): bits 7:6 of a port-0x61 read (R98, R301). DESIGN CHOICE (log 2). -/
opaque Config.draw2 : Nat → BitVec 2

/-- `draw_1()` (R12): bit 4 of a port-0x61 read (R98, R301). DESIGN CHOICE (log 2). -/
opaque Config.draw1 : Nat → BitVec 1

/-- The reset programming of one PIT channel (R361). -/
structure ChannelConfig where
  mode : BitVec 3
  rw : Rw
  bcd : Bool
  count : Nat
  outputPin : Bool
deriving DecidableEq, Repr

/-- The part of the reset table that `RESET_CFG(kind)` configures (R361, R362): the channels' programming, the
vector bases and the port-0x61 byte. -/
structure ResetConfig where
  ch0 : ChannelConfig
  ch1 : ChannelConfig
  ch2 : ChannelConfig
  masterBase : Byte
  slaveBase : Byte
  spkr : Byte
deriving DecidableEq, Repr

/-- The table of R361 (92_eei_decisions.md D30, the default of the OPEN row `RESET_CFG`). -/
def Config.pcBios : ResetConfig where
  ch0 := { mode := 3, rw := .word, bcd := false, count := 65536, outputPin := true }
  ch1 := { mode := 2, rw := .word, bcd := false, count := 18, outputPin := true }
  ch2 := { mode := 3, rw := .word, bcd := false, count := 65536, outputPin := true }
  masterBase := 0x08
  slaveBase := 0x70
  spkr := 0x00

/-- `RESET_CFG(kind)` (R7, R361, R362): "Both kinds take the same values, except `vclock`". DESIGN CHOICE
(log 4): the OPEN row's default table is taken for both kinds. -/
def Config.resetConfig : ResetKind → ResetConfig
  | .cold => Config.pcBios
  | .soft => Config.pcBios

end Sys2Proof
end

