-- ==== Sys2Proof/WellFormed.lean ====
section
/-! DEFINITION. When an operation's arguments are inside the ranges its rule states (R82).

A BUS operation's operands are typed by their fields, so every BUS operation is well formed (R100: "No bus
transaction to a port of 20_memory.md rule R62 is illegal"). A HOST call's `L` or `c` is a natural number that
"must be" in a range; outside it the call is a host contract fault (R321, R323), which `exec` records. -/

namespace Sys2Proof

/-- Every argument lies in the range its rule states (R82, R323). -/
def Instr.wellFormed : Instr → Bool
  | .raise l => decide (l < 16)
  | .lower l => decide (l < 16)
  | .schedule l _ => decide (l < 32)
  | .elapsed c => decide (c < 3)
  | .pitReadback .. | .pitLatch .. | .pitMode .. | .pitCtrlRead | .pitDataWrite .. | .pitDataRead .. => true
  | .picIcw1 .. | .picOcw3 .. | .picRotAeoiClr .. | .picNseoi .. | .picNop .. | .picSeoi .. => true
  | .picRotAeoiSet .. | .picRotNseoi .. | .picSetPrio .. | .picRotSeoi .. => true
  | .picIcw2 .. | .picIcw3 .. | .picIcw4 .. | .picOcw1 .. => true
  | .picReadPoll .. | .picReadCmd .. | .picReadData .. | .elcrWrite .. | .elcrRead .. => true
  | .spkrWrite .. | .spkrRead | .reset .. | .advance .. | .inta | .isPending | .maySleep .. => true

end Sys2Proof
end

