-- ==== Sys2Proof/Decode.lean ====
section
/-! DEFINITION. Decoding a request to an operation, by the table procedure of 30_encoding.md R102, and the
encoder, written from the byte layouts of R81 to R97.

`rows` is spec/opcode_table.json's BUS rows in table order. A bus transaction selects the first row whose mask
and match fit and whose `cond` holds. The `cond`s read two fields of the addressed PIC, `init_state` and `poll`
(R101 (c), (d)), so decoding takes them as a context. -/

namespace Sys2Proof

/-! ### The bus transaction word (R81) -/

/-- `BTW = D << 24 | PORT << 8 | DATA` (R81). -/
def busWord (write : Bool) (port : Port) (data : Byte) : Btw :=
  BitVec.ofBool write ++ port ++ data

/-- The DATA field, bits 7:0 (R81). -/
def btwData (w : Btw) : Byte := w.extractLsb' 0 8

/-- The PORT field, bits 23:8 (R81). -/
def btwPort (w : Btw) : Port := w.extractLsb' 8 16

/-- The D field, bit 24: a write (R81). -/
def btwWrite (w : Btw) : Bool := w.getLsbD 24

/-- The ports the block answers (R62). -/
def blockPorts : List Port :=
  [0x40, 0x41, 0x42, 0x43, 0x20, 0x21, 0xA0, 0xA1, 0x4D0, 0x4D1, 0x61]

/-- The port is one of R62. -/
def isBlockPort (port : Port) : Bool := blockPorts.contains port

/-! ### What decoding reads of the state (R101, R102) -/

/-- `pic[P].init_state` and `pic[P].poll` of both PICs, which the rows' `cond`s test. -/
structure DecodeCtx where
  masterInit : InitState
  slaveInit : InitState
  masterPoll : Bool
  slavePoll : Bool
deriving DecidableEq, Repr

/-- `pic[p].init_state`. -/
def ctxInit (ctx : DecodeCtx) : PicId → InitState
  | .master => ctx.masterInit
  | .slave => ctx.slaveInit

/-- `pic[p].poll`. -/
def ctxPoll (ctx : DecodeCtx) : PicId → Bool
  | .master => ctx.masterPoll
  | .slave => ctx.slavePoll

/-- The context right after RESET (R361): both sequencers ready, no poll pending. -/
def resetCtx : DecodeCtx := ⟨.ready, .ready, false, false⟩

/-! ### Fields of a word that become operands -/

/-- A two-bit channel number. The value 3 reaches no row that uses it: control-word channel 3 is the read-back
row's (R84) and port 0x43 is taken by the control-port rows (R102). -/
def chanOf (b : BitVec 2) : Chan :=
  if b = 0 then 0 else if b = 1 then 1 else 2

/-- The access width of a RW field (R83). The value 0b00 reaches no row that uses it: it is the latch row's
(R84). -/
def rwOf (b : BitVec 2) : Rw :=
  if b = 1 then .lsb else if b = 2 then .msb else .word

/-- The RW code of an access width (R83, R86). -/
def rwCode : Rw → BitVec 2
  | .lsb => 0b01
  | .msb => 0b10
  | .word => 0b11

/-- The PIC that ports 0x20, 0x21, 0xA0 and 0xA1 address: bit 15 of the word, port bit 7 (R102). -/
def picOf (w : Btw) : PicId := if w.getLsbD 15 then .slave else .master

/-- The PIC that ports 0x4D0 and 0x4D1 address: bit 8 of the word, port bit 0 (R102). -/
def elcrPicOf (w : Btw) : PicId := if w.getLsbD 8 then .slave else .master

/-- The level L of an OCW2 byte, bits 2:0 (R94). -/
def levelOf (w : Btw) : Input := (w.extractLsb' 0 3).toFin

/-! ### The table (spec/opcode_table.json, R102) -/

/-- One BUS row: `(BTW & mask) = pattern` and `cond` select it, `build` reads its operands. -/
structure Row where
  mnemonic : String
  mask : Btw
  pattern : Btw
  cond : DecodeCtx → Btw → Bool
  build : Btw → Instr

/-- A row without a `cond`. -/
def always (_ : DecodeCtx) (_ : Btw) : Bool := true

/-- `pic[P].init_state = st`. -/
def initIs (st : InitState) (ctx : DecodeCtx) (w : Btw) : Bool := ctxInit ctx (picOf w) == st

/-- `pic[P].poll = b`. -/
def pollIs (b : Bool) (ctx : DecodeCtx) (w : Btw) : Bool := ctxPoll ctx (picOf w) == b

/-- The PIT rows. -/
def pitRows : List Row :=
  [ { mnemonic := "PIT.CW.READBACK", mask := 0x1FFFFC0, pattern := 0x10043C0, cond := always
      build := fun w => .pitReadback (w.getLsbD 5) (w.getLsbD 4) (w.getLsbD 3) (w.getLsbD 2) (w.getLsbD 1) },
    { mnemonic := "PIT.CW.LATCH", mask := 0x1FFFF30, pattern := 0x1004300, cond := always
      build := fun w => .pitLatch (chanOf (w.extractLsb' 6 2)) },
    { mnemonic := "PIT.CW.MODE", mask := 0x1FFFF00, pattern := 0x1004300, cond := always
      build := fun w => .pitMode (chanOf (w.extractLsb' 6 2)) (rwOf (w.extractLsb' 4 2)) (w.extractLsb' 1 3)
        (w.getLsbD 0) },
    { mnemonic := "PIT.CTRL.READ", mask := 0x1FFFF00, pattern := 0x0004300, cond := always
      build := fun _ => .pitCtrlRead },
    { mnemonic := "PIT.DATA.WRITE", mask := 0x1FFFC00, pattern := 0x1004000, cond := always
      build := fun w => .pitDataWrite (chanOf (w.extractLsb' 8 2)) (btwData w) },
    { mnemonic := "PIT.DATA.READ", mask := 0x1FFFC00, pattern := 0x0004000, cond := always
      build := fun w => .pitDataRead (chanOf (w.extractLsb' 8 2)) } ]

/-- The PIC command-port write rows. -/
def picCommandRows : List Row :=
  [ { mnemonic := "PIC.ICW1", mask := 0x1FF7F10, pattern := 0x1002010, cond := always
      build := fun w => .picIcw1 (picOf w) (w.getLsbD 3) (w.getLsbD 2) (w.getLsbD 1) (w.getLsbD 0) },
    { mnemonic := "PIC.OCW3", mask := 0x1FF7F18, pattern := 0x1002008, cond := always
      build := fun w => .picOcw3 (picOf w) (w.getLsbD 6) (w.getLsbD 5) (w.getLsbD 2) (w.getLsbD 1) (w.getLsbD 0) },
    { mnemonic := "PIC.OCW2.ROT_AEOI_CLR", mask := 0x1FF7FF8, pattern := 0x1002000, cond := always
      build := fun w => .picRotAeoiClr (picOf w) },
    { mnemonic := "PIC.OCW2.NSEOI", mask := 0x1FF7FF8, pattern := 0x1002020, cond := always
      build := fun w => .picNseoi (picOf w) },
    { mnemonic := "PIC.OCW2.NOP", mask := 0x1FF7FF8, pattern := 0x1002040, cond := always
      build := fun w => .picNop (picOf w) },
    { mnemonic := "PIC.OCW2.SEOI", mask := 0x1FF7FF8, pattern := 0x1002060, cond := always
      build := fun w => .picSeoi (picOf w) (levelOf w) },
    { mnemonic := "PIC.OCW2.ROT_AEOI_SET", mask := 0x1FF7FF8, pattern := 0x1002080, cond := always
      build := fun w => .picRotAeoiSet (picOf w) },
    { mnemonic := "PIC.OCW2.ROT_NSEOI", mask := 0x1FF7FF8, pattern := 0x10020A0, cond := always
      build := fun w => .picRotNseoi (picOf w) },
    { mnemonic := "PIC.OCW2.SETPRIO", mask := 0x1FF7FF8, pattern := 0x10020C0, cond := always
      build := fun w => .picSetPrio (picOf w) (levelOf w) },
    { mnemonic := "PIC.OCW2.ROT_SEOI", mask := 0x1FF7FF8, pattern := 0x10020E0, cond := always
      build := fun w => .picRotSeoi (picOf w) (levelOf w) } ]

/-- The PIC data-port write rows. -/
def picDataRows : List Row :=
  [ { mnemonic := "PIC.ICW2", mask := 0x1FF7F00, pattern := 0x1002100, cond := initIs .icw2
      build := fun w => .picIcw2 (picOf w) (btwData w) },
    { mnemonic := "PIC.ICW3", mask := 0x1FF7F00, pattern := 0x1002100, cond := initIs .icw3
      build := fun w => .picIcw3 (picOf w) (btwData w) },
    { mnemonic := "PIC.ICW4", mask := 0x1FF7F00, pattern := 0x1002100, cond := initIs .icw4
      build := fun w => .picIcw4 (picOf w) (w.getLsbD 4) (w.getLsbD 3) (w.getLsbD 2) (w.getLsbD 1) (w.getLsbD 0) },
    { mnemonic := "PIC.OCW1", mask := 0x1FF7F00, pattern := 0x1002100, cond := initIs .ready
      build := fun w => .picOcw1 (picOf w) (btwData w) } ]

/-- The PIC read rows. -/
def picReadRows : List Row :=
  [ { mnemonic := "PIC.READ.POLL", mask := 0x1FF7E00, pattern := 0x0002000, cond := pollIs true
      build := fun w => .picReadPoll (picOf w) (w.getLsbD 8) },
    { mnemonic := "PIC.READ.CMD", mask := 0x1FF7F00, pattern := 0x0002000, cond := pollIs false
      build := fun w => .picReadCmd (picOf w) },
    { mnemonic := "PIC.READ.DATA", mask := 0x1FF7F00, pattern := 0x0002100, cond := pollIs false
      build := fun w => .picReadData (picOf w) } ]

/-- The ELCR and port-0x61 rows. -/
def otherRows : List Row :=
  [ { mnemonic := "ELCR.WRITE", mask := 0x1FFFE00, pattern := 0x104D000, cond := always
      build := fun w => .elcrWrite (elcrPicOf w) (btwData w) },
    { mnemonic := "ELCR.READ", mask := 0x1FFFE00, pattern := 0x004D000, cond := always
      build := fun w => .elcrRead (elcrPicOf w) },
    { mnemonic := "SPKR.WRITE", mask := 0x1FFFF00, pattern := 0x1006100, cond := always
      build := fun w => .spkrWrite (btwData w) },
    { mnemonic := "SPKR.READ", mask := 0x1FFFF00, pattern := 0x0006100, cond := always
      build := fun _ => .spkrRead } ]

/-- The 27 BUS rows in table order. -/
def rows : List Row := pitRows ++ picCommandRows ++ picDataRows ++ picReadRows ++ otherRows

/-- The row fits the word and its `cond` holds (R102). -/
def rowFits (ctx : DecodeCtx) (w : Btw) (r : Row) : Bool := (w &&& r.mask) == r.pattern && r.cond ctx w

/-! ### Decoding -/

/-- Why a request is no operation of the block. -/
inductive Reject where
  /-- The access is to a port outside R62: "no rule of this spec answers it". -/
  | notBlockPort (port : Port)
  /-- A 16-bit or 32-bit access to a port of R62 (R64). -/
  | wideAccess (port : Port) (width : WideWidth)
deriving DecidableEq, Repr

/-- Table decode of a bus transaction (R102): the first row, in table order, that fits. The read rows' masks leave
DATA out, so a read word with any DATA is that read (R81, R100; DEDUCED, log 12; safe). -/
def decodeBus (ctx : DecodeCtx) (w : Btw) : Except Reject Instr :=
  match rows.find? (rowFits ctx w) with
  | some r => .ok (r.build w)
  | none => .error (.notBlockPort (btwPort w))

/-- "HOST rows have `match` and `mask` null and are selected by the call's name" (R102). -/
def decodeHost : HostCall → Instr
  | .reset kind => .reset kind
  | .advance t guestIf => .advance t guestIf
  | .raise l => .raise l
  | .lower l => .lower l
  | .inta => .inta
  | .isPending => .isPending
  | .schedule l iv => .schedule l iv
  | .elapsed c => .elapsed c
  | .maySleep vip sigq => .maySleep vip sigq

/-- The operation a request is (R14, R64, R102), or why it is none. -/
def decode (ctx : DecodeCtx) : Request → Except Reject Instr
  | .bus w => decodeBus ctx w
  | .host h => .ok (decodeHost h)
  | .wide port width => .error (if isBlockPort port then .wideAccess port width else .notBlockPort port)

/-- The bus transaction word of an instruction whose table bits are `w`, of `nbits` bits: bits from 25 on do not
exist in it (R81). -/
def tableWord (nbits w : Nat) : Btw := BitVec.ofNat 25 (w % 2 ^ nbits)

/-- The instruction the decoder reads from the table bits `w`, in the context right after RESET. Four rows
(PIC.ICW2, PIC.ICW3, PIC.ICW4, PIC.OCW1) share one mask and match, and PIC.READ.POLL shares its words with
PIC.READ.CMD and PIC.READ.DATA: after RESET those words are OCW1, READ.CMD and READ.DATA (log 6). -/
def decodeTableWord (nbits w : Nat) : Option Instr :=
  match decodeBus resetCtx (tableWord nbits w) with
  | .ok i => some i
  | .error _ => none

/-! ### Encoding -/

/-- The command port of a PIC (R62). -/
def cmdPort : PicId → Port
  | .master => 0x20
  | .slave => 0xA0

/-- The data port of a PIC (R62). -/
def dataPort : PicId → Port
  | .master => 0x21
  | .slave => 0xA1

/-- The ELCR port of a PIC (R62). -/
def elcrPort : PicId → Port
  | .master => 0x4D0
  | .slave => 0x4D1

/-- The data port of a PIT channel (R62): 0x40 + c. -/
def chanPort (c : Chan) : Port := 0x40 + BitVec.ofNat 16 c.val

/-- The SC field of a channel (R83). -/
def chanBits (c : Chan) : BitVec 2 := BitVec.ofNat 2 c.val

/-- One bit of a byte under construction. -/
def bit (b : Bool) : BitVec 1 := BitVec.ofBool b

/-- An OCW2 byte: command in bits 7:5, 0b00, level in bits 2:0 (R94). -/
def ocw2Byte (cmd : BitVec 3) (l : Input) : Byte := cmd ++ 0b00#2 ++ BitVec.ofFin (w := 3) l

/-- A byte written to a port (R81). -/
def outReq (port : Port) (data : Byte) : Request := .bus (busWord true port data)

/-- A read of a port (R81: DATA is 0 for a read). -/
def inReq (port : Port) : Request := .bus (busWord false port 0)

/-- The request that issues an operation. Ignored bits (R100) are written 0. -/
def encode : Instr → Request
  | .pitReadback countN statusN cnt2 cnt1 cnt0 =>
      outReq 0x43 (0b11#2 ++ bit countN ++ bit statusN ++ bit cnt2 ++ bit cnt1 ++ bit cnt0 ++ 0#1)
  | .pitLatch c => outReq 0x43 (chanBits c ++ 0b00#2 ++ 0#4)
  | .pitMode c rw m bcd => outReq 0x43 (chanBits c ++ rwCode rw ++ m ++ bit bcd)
  | .pitCtrlRead => inReq 0x43
  | .pitDataWrite c v => outReq (chanPort c) v
  | .pitDataRead c => inReq (chanPort c)
  | .picIcw1 p ltim adi sngl ic4 => outReq (cmdPort p) (0#3 ++ 1#1 ++ bit ltim ++ bit adi ++ bit sngl ++ bit ic4)
  | .picOcw3 p esmm smm poll rr ris =>
      outReq (cmdPort p) (0#1 ++ bit esmm ++ bit smm ++ 0b01#2 ++ bit poll ++ bit rr ++ bit ris)
  | .picRotAeoiClr p => outReq (cmdPort p) (ocw2Byte 0b000 0)
  | .picNseoi p => outReq (cmdPort p) (ocw2Byte 0b001 0)
  | .picNop p => outReq (cmdPort p) (ocw2Byte 0b010 0)
  | .picSeoi p l => outReq (cmdPort p) (ocw2Byte 0b011 l)
  | .picRotAeoiSet p => outReq (cmdPort p) (ocw2Byte 0b100 0)
  | .picRotNseoi p => outReq (cmdPort p) (ocw2Byte 0b101 0)
  | .picSetPrio p l => outReq (cmdPort p) (ocw2Byte 0b110 l)
  | .picRotSeoi p l => outReq (cmdPort p) (ocw2Byte 0b111 l)
  | .picIcw2 p v => outReq (dataPort p) v
  | .picIcw3 p v => outReq (dataPort p) v
  | .picIcw4 p sfnm buf ms aeoi upm =>
      outReq (dataPort p) (0#3 ++ bit sfnm ++ bit buf ++ bit ms ++ bit aeoi ++ bit upm)
  | .picOcw1 p v => outReq (dataPort p) v
  | .picReadPoll p a0 => inReq (if a0 then dataPort p else cmdPort p)
  | .picReadCmd p => inReq (cmdPort p)
  | .picReadData p => inReq (dataPort p)
  | .elcrWrite p v => outReq (elcrPort p) v
  | .elcrRead p => inReq (elcrPort p)
  | .spkrWrite v => outReq 0x61 v
  | .spkrRead => inReq 0x61
  | .reset kind => .host (.reset kind)
  | .advance t guestIf => .host (.advance t guestIf)
  | .raise l => .host (.raise l)
  | .lower l => .host (.lower l)
  | .inta => .host .inta
  | .isPending => .host .isPending
  | .schedule l iv => .host (.schedule l iv)
  | .elapsed c => .host (.elapsed c)
  | .maySleep vip sigq => .host (.maySleep vip sigq)

/-- The state fields under which the operation's word decodes to it: the row's `cond` (R102). -/
def ctxAdmits (ctx : DecodeCtx) : Instr → Bool
  | .picIcw2 p _ => ctxInit ctx p == .icw2
  | .picIcw3 p _ => ctxInit ctx p == .icw3
  | .picIcw4 p .. => ctxInit ctx p == .icw4
  | .picOcw1 p _ => ctxInit ctx p == .ready
  | .picReadPoll p _ => ctxPoll ctx p
  | .picReadCmd p => !ctxPoll ctx p
  | .picReadData p => !ctxPoll ctx p
  | .pitReadback .. | .pitLatch .. | .pitMode .. | .pitCtrlRead | .pitDataWrite .. | .pitDataRead .. => true
  | .picIcw1 .. | .picOcw3 .. | .picRotAeoiClr .. | .picNseoi .. | .picNop .. | .picSeoi .. => true
  | .picRotAeoiSet .. | .picRotNseoi .. | .picSetPrio .. | .picRotSeoi .. => true
  | .elcrWrite .. | .elcrRead .. | .spkrWrite .. | .spkrRead => true
  | .reset .. | .advance .. | .raise .. | .lower .. | .inta | .isPending => true
  | .schedule .. | .elapsed .. | .maySleep .. => true

end Sys2Proof
end

