-- ==== Sys2Proof/Machine/State.lean ====
section
/-! DEFINITION. The architectural state of the block (10_state.md), as plain data, and the state right after a
cold reset (70_reset_and_hazards.md R360, R361).

Fields of the spec: R22 (global), R23 (channels), R33 (PICs), R40 (scheduler). Four fields are the MODEL's own,
not the spec's: `draws` counts the free values drawn, `result` and `events` hold what the last operation
returned and emitted (R11, R329: both are results of the operation), and `inbox` holds the requests that the
guest and the host have issued and that no step has taken yet (R14, R71). -/

namespace Sys2Proof.Machine

/-- The fault reasons of R323. RAISED BY: the operation named at each, when a caller breaks the block's
contract. The spec makes the fault a MARK in the `fault` set and says that "Later operations run normally"
(R321), so these reasons are recorded in `State.fault` and no step answers `Outcome.fault` (DEDUCED, log 8). SAFE:
the mark is what the spec says, and a claim about a correct host may assume an empty set. -/
inductive Fault where
  /-- Code 1. A 16-bit or 32-bit access to a port of R62 (R64). Safe. -/
  | wideAccess (port : Port) (width : WideWidth)
  /-- Code 2. RAISE or LOWER of a line outside 0..15 (R248, R249). Safe. -/
  | badIrq (l : Nat)
  /-- Code 3. SCHEDULE of a line outside 0..31 (R203). Safe. -/
  | badLine (l : Nat)
  /-- Code 4. ELAPSED of a channel outside 0..2 (R302). Safe. -/
  | badChannel (c : Nat)
deriving DecidableEq, Repr

/-- Why a step has no meaning. -/
inductive Refusal where
  /-- RAISED BY: `exec`, for an instruction that has no meaning yet. No arm of this model answers it. Safe. -/
  | notModelled (mnemonic : String)
  /-- RAISED BY: `step`, for an access to a port outside R62: "Every other port number is not the block's and
  no rule of this spec answers it" (DESIGN CHOICE, log 11). Safe: the model stops where another device would
  answer. -/
  | notBlockPort (port : Port)
deriving DecidableEq, Repr

/-- `ch[c].counter` (R27): the reload value of the current countdown epoch, or `expired`. -/
inductive Counter where
  | count (n : Nat)
  | expired
deriving DecidableEq, Repr

/-- A PIT channel (R23). -/
structure Channel where
  /-- The mode field as written, 0..7 (R24). -/
  mode : BitVec 3
  /-- The access width (R25). -/
  rw : Rw
  /-- The BCD bit: stored and reported, without effect (R26). -/
  bcd : Bool
  /-- The reload value of the current epoch (R27). -/
  counter : Counter
  /-- The stored OUT, which is the channel's OUT only while `counter` is `expired` (R28). -/
  outputPin : Bool
  /-- The pending count latch (R29). -/
  rlatch : Option Word16
  /-- The pending status latch (R29). -/
  slatch : Option Byte
  /-- The read byte toggle (R30). -/
  rphase : Phase
  /-- The write byte toggle (R30). -/
  wphase : Phase
  /-- The staged low byte of a WORD write (R30). -/
  wlatch : Byte
  /-- When the current epoch began (R31). -/
  baseTime : Tick
deriving DecidableEq, Repr

/-- One PIC (R33). Bit i of an 8-bit field belongs to input i. -/
structure Pic where
  /-- Interrupt-request register. -/
  irr : Byte
  /-- Interrupt-mask register: bit set = input masked. -/
  imr : Byte
  /-- In-service register. -/
  isr : Byte
  /-- Edge-detect latch: the last level seen on each input. -/
  elatch : Byte
  /-- Rotation pointer: the input with the highest priority (R36). -/
  prio : Input
  /-- Vector base from ICW2, bits 2:0 always 0 (R37). -/
  base : Byte
  /-- Read-register select: false = IRR, true = ISR. -/
  rsel : Bool
  /-- Poll command pending. -/
  poll : Bool
  /-- Special mask mode. -/
  smm : Bool
  /-- Automatic EOI. -/
  aeoi : Bool
  /-- Rotate on automatic EOI. -/
  rotAeoi : Bool
  /-- Special fully nested mode. -/
  sfnm : Bool
  /-- ICW sequencer (R38). -/
  initState : InitState
  /-- ICW4 expected (from ICW1). -/
  ic4 : Bool
  /-- Single mode, no ICW3 (from ICW1). -/
  sngl : Bool
  /-- ICW1's level-trigger bit: stored, no effect. -/
  ltim : Bool
  /-- The last ICW3 byte: stored, no effect. -/
  icw3 : Byte
  /-- Edge/level control: bit set = level-triggered (R35). -/
  elcr : Byte
deriving DecidableEq, Repr

/-- One scheduler line's times (R40). `none` is "never". -/
structure SchedLine where
  /-- When the next activation should fire. -/
  nextDue : Option Tick
  /-- The due time most recently delivered. -/
  lastHonored : Option Tick
deriving DecidableEq, Repr

/-- A diagnostic (R322). -/
inductive Diag where
  | dueEqualsHonored (l : Line)
  | livelockBroken
deriving DecidableEq, Repr

/-- An output event (R329). -/
inductive Event where
  /-- Scheduler line L, 16..31, has become due (R211). -/
  | virq (l : Line)
  /-- The PIC pair acknowledged line L (R215). -/
  | ack (l : Irq)
  /-- Set the guest's interrupt flag (R125). -/
  | forceIf
  /-- A diagnostic. R322 lets a model drop it; this one keeps it (DESIGN CHOICE, log 10). Safe. -/
  | diag (d : Diag)
deriving DecidableEq, Repr

/-- What an operation returns (R11, R82). -/
inductive Result where
  /-- The operation has no result, or it ended in a fault mark. -/
  | nothing
  /-- A port read's byte. -/
  | byte (b : Byte)
  /-- IS_PENDING's or MAY_SLEEP's Bit. -/
  | bit (b : Bool)
  /-- ELAPSED's Tick. -/
  | tick (n : Tick)
  /-- INTA's `none`, or `some(line, vector)`. -/
  | irq (r : Option (Irq × Byte))
deriving DecidableEq, Repr

/-- The machine. -/
structure State where
  /-- The virtual clock, every rule's "now" (R22, R121). -/
  vclock : Tick
  /-- The last host time sample, none before the first (R22). -/
  hostPrev : Option HostTick
  /-- Consecutive ADVANCE calls with the guest's interrupt flag clear (R22). -/
  ifOffCount : Nat
  /-- The scheduler's "last fully processed" time (R22). -/
  watermark : Tick
  /-- The nominal tick interval, read by no rule (R22, R150). -/
  pit0Nominal : Nat
  /-- The port-0x61 shadow byte (R22). -/
  spkr : Byte
  /-- The fault marks: a set, held as a list without repeats, never cleared (R22, R321; log 8). -/
  fault : List Fault
  /-- The three PIT channels (R23). -/
  ch : Vector Channel 3
  /-- `pic[M]` (R33). -/
  master : Pic
  /-- `pic[S]` (R33). -/
  slave : Pic
  /-- `sch[L].next_due` and `sch[L].last_honored` of the 32 lines (R40). -/
  sched : Vector SchedLine 32
  /-- `sch[L].drive`, lines 0..15 only (R40). -/
  drive : Vector Bool 16
  /-- MODEL's own: how many free values have been drawn (log 2). -/
  draws : Nat
  /-- MODEL's own: what the last operation returned (log 5). -/
  result : Result
  /-- MODEL's own: what the last operation emitted, in emission order (R329; log 5). -/
  events : List Event
  /-- MODEL's own: the requests issued and not yet taken, oldest first (log 1). -/
  inbox : List Request
deriving DecidableEq, Repr

/-- A channel as a reset leaves it at time `now` (R361). -/
def Channel.reset (cfg : ChannelConfig) (now : Tick) : Channel where
  mode := cfg.mode
  rw := cfg.rw
  bcd := cfg.bcd
  counter := .count cfg.count
  outputPin := cfg.outputPin
  rlatch := none
  slatch := none
  rphase := .lo
  wphase := .lo
  wlatch := 0x00
  baseTime := now

/-- A PIC as a reset leaves it, with its vector base (R361). -/
def Pic.reset (base : Byte) : Pic where
  irr := 0
  imr := 0
  isr := 0
  elatch := 0
  prio := 0
  base := base
  rsel := false
  poll := false
  smm := false
  aeoi := false
  rotAeoi := false
  sfnm := false
  initState := .ready
  ic4 := false
  sngl := false
  ltim := false
  icw3 := 0
  elcr := 0x00

/-- A scheduler line as a reset leaves it (R361). -/
def SchedLine.reset : SchedLine where
  nextDue := none
  lastHonored := none

/-- The machine right after RESET(cold) with no fault mark: "The model's initial state is the state after
RESET(cold) with `fault` = {}" (R360). Every field of the spec has the value R361 gives it, and line 0 is armed
at 65536 (R360). The model's own fields start empty (DESIGN CHOICE, logs 1, 2 and 5). -/
def State.reset : State where
  vclock := 0
  hostPrev := none
  ifOffCount := 0
  watermark := 0
  pit0Nominal := 65536
  spkr := (Config.resetConfig .cold).spkr
  fault := []
  ch := #v[Channel.reset (Config.resetConfig .cold).ch0 0, Channel.reset (Config.resetConfig .cold).ch1 0,
    Channel.reset (Config.resetConfig .cold).ch2 0]
  master := Pic.reset (Config.resetConfig .cold).masterBase
  slave := Pic.reset (Config.resetConfig .cold).slaveBase
  sched := (Vector.replicate 32 SchedLine.reset).set 0 { nextDue := some 65536, lastHonored := none }
  drive := Vector.replicate 16 false
  draws := 0
  result := .nothing
  events := []
  inbox := []

end Sys2Proof.Machine
end

