-- ==== Sys2Proof/Machine/Operands.lean ====
section
/-! DEFINITION. The operand forms of the block: bits of a byte, the bytes of a count (30_encoding.md R87), the
input of a line (43_pic.md R240), and access to a channel, a PIC and a scheduler line of the state. -/

namespace Sys2Proof.Machine

/-! ### Bits of a byte -/

/-- `1 << i`. -/
def bitOf (i : Input) : Byte := 1#8 <<< i.val

/-- `v | (1 << i)`. -/
def setBit (v : Byte) (i : Input) : Byte := v ||| bitOf i

/-- `v & ~(1 << i)`. -/
def clearBit (v : Byte) (i : Input) : Byte := v &&& ~~~(bitOf i)

/-- `v & (1 << i) /= 0`. -/
def hasBit (v : Byte) (i : Input) : Bool := v.getLsbD i.val

/-- An input number as a vector's low bits (R99). -/
def inputByte (i : Input) : Byte := BitVec.ofNat 8 i.val

/-! ### The bytes of a count (R87) -/

/-- `v[7:0]`. -/
def lowByte (v : Word16) : Byte := v.extractLsb' 0 8

/-- `v[15:8]`. -/
def highByte (v : Word16) : Byte := v.extractLsb' 8 8

/-- `hi << 8 | lo`. -/
def joinBytes (hi lo : Byte) : Word16 := hi ++ lo

/-- The reload of a 16-bit value: "`n = (v16 = 0) ? 65536 : v16`" (R87, R150). -/
def reloadOf (v : Word16) : Nat := if v = 0 then Config.countMax else v.toNat

/-- The counter as a number (R27): `count(n)` is n and `expired` is -1. -/
def Counter.num : Counter → Int
  | .count n => n
  | .expired => -1

/-- `fold(m)` (R24): modes 6 and 7 compute as 2 and 3. -/
def foldMode (m : BitVec 3) : BitVec 3 := if m = 6 then 2 else if m = 7 then 3 else m

/-- `max(1, n)` (R150). -/
def nominalOf (n : Nat) : Nat := max 1 n

/-! ### Lines (R240) -/

/-- The PIC of line L: `(L < 8) ? M : S` (R240). -/
def picOfIrq (l : Irq) : PicId := if l.val < 8 then .master else .slave

/-- The input of line L: `L mod 8` (R240). -/
def inputOfIrq (l : Irq) : Input := Fin.ofNat 8 l.val

/-- The line of input i of PIC P: i of M is line i, i of S is line 8 + i (R33). -/
def irqOf (p : PicId) (i : Input) : Irq :=
  match p with
  | .master => Fin.ofNat 16 i.val
  | .slave => Fin.ofNat 16 (8 + i.val)

/-- A PIC line's scheduler line, of the same number (R200). -/
def lineOfIrq (l : Irq) : Line := Fin.ofNat 32 l.val

/-! ### Access to the state -/

/-- `ch[c]`. -/
def State.chan (s : State) (c : Chan) : Channel := s.ch[c]

/-- `ch[c] <- x`. -/
def State.setChan (s : State) (c : Chan) (x : Channel) : State := { s with ch := s.ch.set c.val x }

/-- `pic[P]`. -/
def State.pic (s : State) : PicId → Pic
  | .master => s.master
  | .slave => s.slave

/-- `pic[P] <- x`. -/
def State.setPic (s : State) (p : PicId) (x : Pic) : State :=
  { s with
    master := match p with
      | .master => x
      | .slave => s.master
    slave := match p with
      | .master => s.slave
      | .slave => x }

/-- `sch[L]`. -/
def State.line (s : State) (l : Line) : SchedLine := s.sched[l]

/-- `sch[L] <- x`. -/
def State.setLine (s : State) (l : Line) (x : SchedLine) : State := { s with sched := s.sched.set l.val x }

/-- `sch[L].drive`, L in 0..15. -/
def State.drives (s : State) (l : Irq) : Bool := s.drive[l]

/-- `sch[L].drive <- b`. -/
def State.setDrive (s : State) (l : Irq) (b : Bool) : State := { s with drive := s.drive.set l.val b }

/-- The fields of the state that decoding reads (R101 (c), (d)). -/
def State.decodeCtx (s : State) : DecodeCtx where
  masterInit := s.master.initState
  slaveInit := s.slave.initState
  masterPoll := s.master.poll
  slavePoll := s.slave.poll

end Sys2Proof.Machine
end

