-- ==== Sys2Proof/Machine/Flags.lean ====
section
/-! DEFINITION. The computed status bits (10_state.md R42): a channel's count, OUT and null count (41_pit.md
R142 to R149), and the PICs' resolver and interrupt output (43_pic.md R244 to R247). Nothing here writes, and none of
it is a field of the state (DEDUCED, log 14; safe). -/

namespace Sys2Proof.Machine

/-! ### The PIT's evaluation (R142 to R147) -/

/-- `elapsed(c) = vclock - ch[c].base_time` (R142). DESIGN CHOICE (log 13): 0 where `base_time` is above `vclock`,
which R44 (b) excludes; unsafe outside the invariant only. -/
def State.elapsed (s : State) (c : Chan) : Tick := s.vclock - (s.chan c).baseTime

/-- `phase(c, n)` (R142): channel 0 anchors to IRQ0's due time once it is armed, every other case takes the
elapsed ticks, both modulo n (floored). -/
def State.phase (s : State) (c : Chan) (n : Nat) : Nat :=
  match c, (s.line 0).nextDue with
  | 0, some d => (((s.vclock : Int) - (d : Int)) % (n : Int)).toNat
  | _, _ => s.elapsed c % n

/-- The triple `(cnt, out, exp)` of R143; `cnt = none` is `undef`. -/
structure Reading where
  cnt : Option Nat
  out : Bool
  exp : Bool
deriving DecidableEq, Repr

/-- Modes 0 and 1 (R144). -/
def eval01 (n e : Nat) : Reading :=
  if e < n then ⟨some (n - e), false, false⟩
  else if e = n then ⟨some 0, true, true⟩
  else ⟨none, true, true⟩

/-- Modes 4 and 5 (R145). -/
def eval45 (n e : Nat) : Reading :=
  if e < n then ⟨some (n - e), true, false⟩
  else if e = n then ⟨some 0, false, false⟩
  else ⟨none, true, true⟩

/-- Modes 2 and 6 (R146). -/
def eval2 (n p : Nat) : Reading := ⟨some (n - p), decide (n - p ≠ 1), false⟩

/-- Modes 3 and 7 (R147). -/
def eval3 (n p : Nat) : Reading :=
  if 2 * p < n then ⟨some (n - 2 * p), true, false⟩ else ⟨some (2 * n - 2 * p), false, false⟩

/-- `eval(c)` (R143). -/
def State.eval (s : State) (c : Chan) : Reading :=
  match (s.chan c).counter with
  | .expired => ⟨none, (s.chan c).outputPin, true⟩
  | .count n =>
    match foldMode (s.chan c).mode with
    | 0 | 1 => eval01 n (s.elapsed c)
    | 4 | 5 => eval45 n (s.elapsed c)
    | 2 => eval2 n (s.phase c n)
    | _ => eval3 n (s.phase c n)

/-- Modes 0 and 4, the ones whose expiry is marked (R148, R149). -/
def marksExpiry (m : BitVec 3) : Bool := m == 0 || m == 4

/-- NULL COUNT (R149): the counter is expired, or the countdown has expired in mode 0 or 4. -/
def State.nullCount (s : State) (c : Chan) : Bool :=
  (s.chan c).counter == .expired || ((s.eval c).exp && marksExpiry (s.chan c).mode)

/-- The status byte of R149: OUT, NULL COUNT, RW, M, BCD. -/
def State.statusByte (s : State) (c : Chan) : Byte :=
  BitVec.ofBool (s.eval c).out ++ BitVec.ofBool (s.nullCount c) ++ rwCode (s.chan c).rw ++ (s.chan c).mode
    ++ BitVec.ofBool (s.chan c).bcd

/-! ### The PICs' resolver (R244 to R247) -/

/-- Input `(prio + k) mod 8`, the one of rank k (R36). -/
def inputOfRank (prio : Input) (k : Nat) : Input := Fin.ofNat 8 (k + prio.val)

/-- `prio_of(P, mask)` (R244): the rank of the highest-priority set bit of `mask`, 8 if there is none. -/
def prioOf (prio : Input) (mask : Byte) : Nat :=
  (List.range 8).findIdx (fun k => hasBit mask (inputOfRank prio k))

/-- The in-service bits that block (R245): in special mask mode the masked ones do not, and in special fully
nested mode the master's cascade input does not. -/
def Pic.blocking (p : Pic) (who : PicId) : Byte :=
  let s := if p.smm then p.isr &&& ~~~p.imr else p.isr
  if p.sfnm && who == .master then clearBit s Config.cascadeIn else s

/-- `resolve(P)` (R245): the input that would be acknowledged now. -/
def Pic.resolve (p : Pic) (who : PicId) : Option Input :=
  let r := prioOf p.prio (p.irr &&& ~~~p.imr)
  if r = 8 then none
  else if r < prioOf p.prio (p.blocking who) then some (inputOfRank p.prio r)
  else none

/-- `resolve(P)` in a state. -/
def State.resolve (s : State) (p : PicId) : Option Input := (s.pic p).resolve p

/-- The slave's output level (R39, R247). -/
def State.slaveOut (s : State) : Bool := (s.resolve .slave).isSome

/-- INT, the master's interrupt output (R39, R247). -/
def State.int (s : State) : Bool := (s.resolve .master).isSome

end Sys2Proof.Machine
end

