-- ==== Sys2Proof/Machine/Ops.lean ====
section
/-! DEFINITION. The block's named procedures: operation results and events, fault marks, free values, the PIT's
latch and load procedures (41_pit.md R148 to R150), the PIC pair's input, acknowledge and EOI procedures
(43_pic.md R241 to R262), the scheduler's `activate`, `schedule` and `ack` (42_scheduler.md R201 to R215),
and TAKING AN INTERRUPT (60_exceptions.md R334) with the return from one beside it (R335). -/

namespace Sys2Proof.Machine

/-! ### Results, events, faults and free values -/

/-- The start of an operation: "Each operation starts with an empty list" of events (R329), and no result. -/
def State.startOp (s : State) : State := { s with result := .nothing, events := [] }

/-- `emit e` (R11, R329). -/
def State.emit (e : Event) (s : State) : State := { s with events := s.events ++ [e] }

/-- `return r` (R11). -/
def State.answer (r : Result) (s : State) : State := { s with result := r }

/-- A set's insertion, into a list without repeats. -/
def insertFault (f : Fault) (fs : List Fault) : List Fault := if fs.contains f then fs else fs ++ [f]

/-- `raise Fault(f)` (R12, R321): the mark joins the set, and the operation ends with nothing else changed. -/
def State.raiseFault (f : Fault) (s : State) : State := { s with fault := insertFault f s.fault }

/-- Count one free value as drawn (`draw_N`, R12; log 2). -/
def State.drawn (s : State) : State := { s with draws := s.draws + 1 }

/-! ### PIT procedures -/

/-- The 16-bit value a count latch takes (R148): `undef` draws, and 65536 latches as 0x0000. -/
def latchValue (cnt : Option Nat) (draws : Nat) : Word16 :=
  match cnt with
  | some n => BitVec.ofNat 16 n
  | none => Config.draw16 draws

/-- The channel after its count is latched with reading `r` (R148). -/
def Channel.latched (x : Channel) (r : Reading) (v : Word16) : Channel :=
  { x with
    rlatch := some v
    outputPin := r.out
    counter := if r.exp && marksExpiry x.mode then .expired else x.counter }

/-- `latch_count(c)` (R148). A pending count latch is kept; an `undef` count draws a free value. -/
def State.latchCount (c : Chan) (s : State) : State :=
  match (s.chan c).rlatch with
  | some _ => s
  | none =>
    let r := s.eval c
    let s' := s.setChan c ((s.chan c).latched r (latchValue r.cnt s.draws))
    match r.cnt with
    | some _ => s'
    | none => s'.drawn

/-- `latch_status(c)` (R149). A pending status latch is kept. -/
def State.latchStatus (c : Chan) (s : State) : State :=
  match (s.chan c).slatch with
  | some _ => s
  | none => s.setChan c { s.chan c with slatch := some (s.statusByte c) }

/-- `load(c, v16)` (R150). -/
def State.load (c : Chan) (v : Word16) (s : State) : State :=
  let s' := s.setChan c { s.chan c with counter := .count (reloadOf v), baseTime := s.vclock }
  { s' with pit0Nominal := if c = 0 then nominalOf (reloadOf v) else s'.pit0Nominal }

/-! ### PIC inputs (R241, R242, R247 to R249) -/

/-- `raise_in(P, i)` (R241). -/
def Pic.raiseIn (i : Input) (p : Pic) : Pic :=
  { p with
    irr := if hasBit p.elcr i then setBit p.irr i
           else if hasBit p.elatch i then p.irr
           else setBit p.irr i
    elatch := setBit p.elatch i }

/-- `lower_in(P, i)` (R242). -/
def Pic.lowerIn (i : Input) (p : Pic) : Pic :=
  { p with
    irr := if hasBit p.elcr i then clearBit p.irr i else p.irr
    elatch := clearBit p.elatch i }

/-- Input i is at the given level: `raise_in` or `lower_in`. -/
def Pic.driveIn (i : Input) (level : Bool) (p : Pic) : Pic := if level then p.raiseIn i else p.lowerIn i

/-- `update()` (R247): the slave's output level is applied to master input 2. INT is a signal, not stored
(R39): it is `State.int`. -/
def State.update (s : State) : State :=
  { s with master := s.master.driveIn Config.cascadeIn s.slaveOut }

/-- `pic_raise(L)` (R248). -/
def State.picRaise (l : Irq) (s : State) : State :=
  (s.setPic (picOfIrq l) ((s.pic (picOfIrq l)).raiseIn (inputOfIrq l))).update

/-- `pic_lower(L)` (R249). -/
def State.picLower (l : Irq) (s : State) : State :=
  (s.setPic (picOfIrq l) ((s.pic (picOfIrq l)).lowerIn (inputOfIrq l))).update

/-- A PIC-field write followed by `update()`, the form of most operations of 43_pic.md. -/
def State.writePic (p : PicId) (f : Pic → Pic) (s : State) : State := (s.setPic p (f (s.pic p))).update

/-! ### Scheduler: activation and arming (R201 to R211) -/

/-- `deliver(L)` (R210, R211): a PIC line is raised and marked as driven, a line above 15 becomes an event. -/
def State.deliver (l : Line) (s : State) : State :=
  if h : l.val < 16 then (s.setDrive ⟨l.val, h⟩ true).picRaise ⟨l.val, h⟩ else s.emit (.virq l)

/-- The earliest due time delivered in a pass so far: `min(first, d)` (R201). -/
def minDue (first : Option Tick) (d : Tick) : Option Tick :=
  match first with
  | none => some d
  | some e => some (min e d)

/-- One turn of `activate`'s loop (R201): the state and `first`. -/
def activateLine (a : State × Option Tick) (l : Line) : State × Option Tick :=
  match (a.1.line l).nextDue with
  | none => a
  | some d =>
    if d ≤ a.1.vclock then
      if (a.1.line l).lastHonored = some d then (a.1.emit (.diag (.dueEqualsHonored l)), a.2)
      else ((a.1.setLine l { a.1.line l with lastHonored := some d }).deliver l, minDue a.2 d)
    else a

/-- The watermark after a pass (R201, R209). -/
def advanceWatermark (first : Option Tick) (watermark : Tick) : Tick :=
  match first with
  | none => watermark
  | some e => if e > watermark then e else watermark

/-- `activate()` (R201): lines 0 to 31 in ascending order, then the watermark. -/
def State.activate (s : State) : State :=
  let a := (List.finRange 32).foldl activateLine (s, none)
  { a.1 with watermark := advanceWatermark a.2 a.1.watermark }

/-- An interval is accepted iff `0 < iv < SCHED_LIMIT` (R205). -/
def intervalOk (iv : Int) : Bool := decide (0 < iv) && decide (iv < Config.schedLimit)

/-- The due time an accepted interval arms (R204, R206). -/
def armedDue (nextDue : Option Tick) (now : Tick) (iv : Int) : Tick :=
  match nextDue with
  | none => now + iv.toNat
  | some d => d + iv.toNat

/-- The line as `schedule` leaves it before its `activate()` (R204). -/
def SchedLine.armed (x : SchedLine) (now : Tick) (iv : Int) : SchedLine :=
  { x with nextDue := if intervalOk iv then some (armedDue x.nextDue now iv) else x.nextDue }

/-- `schedule(L, iv)` (R204). It always ends with `activate()` (R207). -/
def State.schedule (l : Line) (iv : Int) (s : State) : State :=
  (s.setLine l ((s.line l).armed s.vclock iv)).activate

/-- `ack(L)`'s first step (R213): a line the scheduler raised is lowered. -/
def State.releaseDrive (l : Irq) (s : State) : State :=
  if s.drives l then (s.setDrive l false).picLower l else s

/-- `ack(L)` (R212 to R215). -/
def State.ack (l : Irq) (s : State) : State :=
  let s1 := s.releaseDrive l
  let s2 := if l = 0 then s1.schedule 0 (s1.chan 0).counter.num else s1
  s2.emit (.ack l)

/-! ### Taking an interrupt, and the return from one -/

/-- `intack(P, i)` on the PIC (R251): in service unless automatic EOI, rotation under it, and the request of an
edge-triggered input is consumed. -/
def Pic.intack (i : Input) (p : Pic) : Pic :=
  { p with
    prio := if p.aeoi && p.rotAeoi then i + 1 else p.prio
    isr := if p.aeoi then p.isr else setBit p.isr i
    irr := if hasBit p.elcr i then p.irr else clearBit p.irr i }

/-- `intack(P, i)` (R251). -/
def State.intack (p : PicId) (i : Input) (s : State) : State := s.setPic p ((s.pic p).intack i)

/-- The vector of input i of PIC P (R99, R253): `pic[P].base | i`. -/
def vectorOf (p : Pic) (i : Input) : Byte := p.base ||| inputByte i

/-- The end of an interrupt entry (R252): `update()`, then `ack(line)`, then the line and its vector. -/
def State.finishEntry (line : Irq) (vec : Byte) (s : State) : State :=
  (s.update.ack line).answer (.irq (some (line, vec)))

/-- TAKING AN INTERRUPT, the block's share (R334, R252, R254): pick the line, move it from requested to in
service, return its vector, run its `ack`. With nothing eligible nothing changes. -/
def State.takeInterrupt (s : State) : State :=
  match s.resolve .master with
  | none => s.answer (.irq none)
  | some i =>
    let s1 := s.intack .master i
    if i = Config.cascadeIn then
      match s1.resolve .slave with
      | some j => (s1.intack .slave j).finishEntry (irqOf .slave j) (vectorOf s1.slave j)
      | none => s1.finishEntry 2 (vectorOf s1.master 2)
    else s1.finishEntry (irqOf .master i) (vectorOf s1.master i)

/-- Whether a poll of P that acknowledged input i runs `ack` (R272): not for a master's cascade input taken on
behalf of a slave request. -/
def State.pollRunsAck (p : PicId) (i : Input) (s : State) : Bool :=
  !(p == .master && i == Config.cascadeIn && s.slaveOut)

/-- The poll word of an acknowledged input: `0x80 | i` (R96). -/
def pollWord (i : Input) : Byte := 0x80 ||| inputByte i

/-- The poll word with nothing requesting: bit 7 and bits 6:3 are 0, bits 2:0 are free (R96). -/
def emptyPollWord (v : BitVec 3) : Byte := 0#5 ++ v

/-- The poll read (R272): an acknowledge on one PIC only. -/
def State.pollRead (p : PicId) (s : State) : State :=
  let s0 := s.setPic p { s.pic p with poll := false }
  match s0.resolve p with
  | some i =>
    let s1 := (s0.intack p i).update
    (if s1.pollRunsAck p i then s1.ack (irqOf p i) else s1).answer (.byte (pollWord i))
  | none => s0.drawn.answer (.byte (emptyPollWord (Config.draw3 s0.draws)))

/-- The input a non-specific EOI clears (R262): the highest-priority one in service. -/
def Pic.nseoiInput (p : Pic) : Option Input :=
  let r := prioOf p.prio p.isr
  if r = 8 then none else some (inputOfRank p.prio r)

/-- RETURN FROM AN INTERRUPT, non-specific (R262, R335): `nseoi(P)`. -/
def Pic.nseoi (p : Pic) : Pic :=
  match p.nseoiInput with
  | none => p
  | some i => { p with isr := clearBit p.isr i }

/-- RETURN FROM AN INTERRUPT, specific (R266, R335): ISR bit L is cleared. -/
def Pic.seoi (l : Input) (p : Pic) : Pic := { p with isr := clearBit p.isr l }

/-- Input L becomes the lowest priority (R268 to R270): `prio <- (L + 1) mod 8`. -/
def Pic.makeLowest (l : Input) (p : Pic) : Pic := { p with prio := l + 1 }

end Sys2Proof.Machine
end

