-- ==== Sys2Proof/Machine/Driver.lean ====
section
/-! DEFINITION. The host tick driver: ADVANCE (40_tick_driver.md R120 to R126). -/

namespace Sys2Proof.Machine

/-- ADVANCE's delta (R120): nothing at the first sample and at one below the previous (unsigned). -/
def tickDelta (prev : Option HostTick) (t : HostTick) : Nat :=
  match prev with
  | none => 0
  | some p => if t < p then 0 else t.toNat - p.toNat

/-- ADVANCE's time update (R120 step 1). -/
def State.timeUpdate (t : HostTick) (s : State) : State :=
  { s with vclock := s.vclock + tickDelta s.hostPrev t, hostPrev := some t }

/-- `livelock_check(guest_if)` (R125), with `limit` for IF_STUCK_LIMIT. -/
def State.livelockCheck (limit : Nat) (guestIf : Bool) (s : State) : State :=
  if guestIf then { s with ifOffCount := 0 }
  else if s.ifOffCount + 1 > limit then
    { ((s.emit .forceIf).emit (.diag .livelockBroken)) with ifOffCount := 0 }
  else { s with ifOffCount := s.ifOffCount + 1 }

/-- ADVANCE (R120): the time update, the livelock check, then `activate()` exactly once (R332). -/
def execAdvance (t : HostTick) (guestIf : Bool) (s : State) : Host.Outcome State Fault Refusal :=
  .next ((s.startOp.timeUpdate t).livelockCheck Config.ifStuckLimit guestIf).activate

end Sys2Proof.Machine
end

