-- ==== Sys2Proof/Machine/HostCalls.lean ====
section
/-! DEFINITION. The host calls on interrupt lines and on the scheduler (43_pic.md R248 to R254, 42_scheduler.md
R203, R216), and the fault mark of an access wider than 8 bits (20_memory.md R64). -/

namespace Sys2Proof.Machine

/-- RAISE (R248): a line outside 0..15 is a BadIrq mark. -/
def execRaise (l : Nat) (s : State) : Host.Outcome State Fault Refusal :=
  if h : l < 16 then .next (s.startOp.picRaise ⟨l, h⟩) else .next (s.startOp.raiseFault (.badIrq l))

/-- LOWER (R249): a line outside 0..15 is a BadIrq mark. -/
def execLower (l : Nat) (s : State) : Host.Outcome State Fault Refusal :=
  if h : l < 16 then .next (s.startOp.picLower ⟨l, h⟩) else .next (s.startOp.raiseFault (.badIrq l))

/-- INTA (R252, R254). -/
def execInta (s : State) : Host.Outcome State Fault Refusal := .next s.startOp.takeInterrupt

/-- IS_PENDING (R250): INT, "without mutating state". -/
def execIsPending (s : State) : Host.Outcome State Fault Refusal := .next (s.startOp.answer (.bit s.int))

/-- SCHEDULE (R203): a line outside 0..31 is a BadLine mark. -/
def execSchedule (l : Nat) (iv : Int) (s : State) : Host.Outcome State Fault Refusal :=
  if h : l < 32 then .next (s.startOp.schedule ⟨l, h⟩ iv) else .next (s.startOp.raiseFault (.badLine l))

/-- `busy` of R216, with `threshold` for FLOOD_THRESHOLD. -/
def State.busy (threshold : Nat) (vip sigq : Bool) (s : State) : Bool :=
  decide (s.master.isr ≠ 0) || decide (s.slave.isr ≠ 0) || vip || sigq || s.int
    || decide (s.vclock - s.watermark > threshold)

/-- MAY_SLEEP (R216), a pure query. -/
def execMaySleep (vip sigq : Bool) (s : State) : Host.Outcome State Fault Refusal :=
  .next (s.startOp.answer (.bit (!s.busy Config.floodThreshold vip sigq)))

/-- A 16-bit or 32-bit access to a port of R62 (R64): no operation of the block, a WideAccess mark and nothing
else. The access is judged by its own port number (DEDUCED, log 7; safe). -/
def wideAccess (port : Port) (width : WideWidth) (s : State) : State :=
  s.startOp.raiseFault (.wideAccess port width)

end Sys2Proof.Machine
end

