-- ==== Sys2Proof/Machine/PicEoi.lean ====
section
/-! DEFINITION. The eight OCW2 commands (43_pic.md R262 to R270): the returns from an interrupt, the rotations
and no operation. -/

namespace Sys2Proof.Machine

/-- PIC.OCW2.ROT_AEOI_CLR (R263). -/
def execPicRotAeoiClr (p : PicId) (s : State) : Host.Outcome State Fault Refusal :=
  .next (s.startOp.writePic p (fun x => { x with rotAeoi := false }))

/-- PIC.OCW2.NSEOI (R264). -/
def execPicNseoi (p : PicId) (s : State) : Host.Outcome State Fault Refusal :=
  .next (s.startOp.writePic p Pic.nseoi)

/-- PIC.OCW2.NOP (R265): "`update()` (no field changes)". -/
def execPicNop (p : PicId) (s : State) : Host.Outcome State Fault Refusal :=
  .next (s.startOp.writePic p id)

/-- PIC.OCW2.SEOI (R266). -/
def execPicSeoi (p : PicId) (l : Input) (s : State) : Host.Outcome State Fault Refusal :=
  .next (s.startOp.writePic p (Pic.seoi l))

/-- PIC.OCW2.ROT_AEOI_SET (R267). -/
def execPicRotAeoiSet (p : PicId) (s : State) : Host.Outcome State Fault Refusal :=
  .next (s.startOp.writePic p (fun x => { x with rotAeoi := true }))

/-- The PIC after a rotate on non-specific EOI (R268). -/
def Pic.rotNseoi (p : Pic) : Pic :=
  match p.nseoiInput with
  | none => p
  | some i => p.nseoi.makeLowest i

/-- PIC.OCW2.ROT_NSEOI (R268). -/
def execPicRotNseoi (p : PicId) (s : State) : Host.Outcome State Fault Refusal :=
  .next (s.startOp.writePic p Pic.rotNseoi)

/-- PIC.OCW2.SETPRIO (R269). -/
def execPicSetPrio (p : PicId) (l : Input) (s : State) : Host.Outcome State Fault Refusal :=
  .next (s.startOp.writePic p (Pic.makeLowest l))

/-- PIC.OCW2.ROT_SEOI (R270). -/
def execPicRotSeoi (p : PicId) (l : Input) (s : State) : Host.Outcome State Fault Refusal :=
  .next (s.startOp.writePic p (fun x => (x.seoi l).makeLowest l))

end Sys2Proof.Machine
end

