-- ==== Sys2Proof/Machine/PicInit.lean ====
section
/-! DEFINITION. The PICs' initialization command words and the mask and mode words (43_pic.md R257 to R261,
R271). ICW2, ICW3 and ICW4 follow their pseudocode, which has no `update()` (DEDUCED, log 9; safe in every state
that meets the invariant). -/

namespace Sys2Proof.Machine

/-- The PIC after ICW1 (R257): "level-triggered requests survive", ELCR and ICW3 are kept. -/
def Pic.icw1 (ltim sngl ic4 : Bool) (p : Pic) : Pic :=
  { irr := p.irr &&& p.elcr
    imr := 0
    isr := 0
    elatch := 0
    prio := 0
    base := 0
    rsel := false
    poll := false
    smm := false
    aeoi := false
    rotAeoi := false
    sfnm := false
    initState := .icw2
    ic4 := ic4
    sngl := sngl
    ltim := ltim
    icw3 := p.icw3
    elcr := p.elcr }

/-- PIC.ICW1 (R257). ADI is ignored. -/
def execPicIcw1 (p : PicId) (ltim _adi sngl ic4 : Bool) (s : State) : Host.Outcome State Fault Refusal :=
  .next (s.startOp.writePic p (Pic.icw1 ltim sngl ic4))

/-- The sequencer after the last word before ICW4 (R258, R259): ICW4 if IC4 asked for it, else ready. -/
def afterIcw3 (ic4 : Bool) : InitState := if ic4 then .icw4 else .ready

/-- PIC.ICW2 (R258). -/
def execPicIcw2 (p : PicId) (v : Byte) (s : State) : Host.Outcome State Fault Refusal :=
  let x := s.pic p
  .next (s.startOp.setPic p
    { x with base := v &&& 0xF8, initState := if x.sngl then afterIcw3 x.ic4 else .icw3 })

/-- PIC.ICW3 (R259): stored, without effect. -/
def execPicIcw3 (p : PicId) (v : Byte) (s : State) : Host.Outcome State Fault Refusal :=
  let x := s.pic p
  .next (s.startOp.setPic p { x with icw3 := v, initState := afterIcw3 x.ic4 })

/-- PIC.ICW4 (R260). BUF, M/S and µPM are ignored. -/
def execPicIcw4 (p : PicId) (sfnm _buf _ms aeoi _upm : Bool) (s : State) : Host.Outcome State Fault Refusal :=
  .next (s.startOp.setPic p { s.pic p with sfnm := sfnm, aeoi := aeoi, initState := .ready })

/-- PIC.OCW1 (R261). -/
def execPicOcw1 (p : PicId) (v : Byte) (s : State) : Host.Outcome State Fault Refusal :=
  .next (s.startOp.writePic p (fun x => { x with imr := v }))

/-- The PIC after OCW3 (R271). -/
def Pic.ocw3 (esmm smm poll rr ris : Bool) (p : Pic) : Pic :=
  { p with
    poll := if poll then true else p.poll
    rsel := if rr then ris else p.rsel
    smm := if esmm then smm else p.smm }

/-- PIC.OCW3 (R271). -/
def execPicOcw3 (p : PicId) (esmm smm poll rr ris : Bool) (s : State) : Host.Outcome State Fault Refusal :=
  .next (s.startOp.writePic p (Pic.ocw3 esmm smm poll rr ris))

end Sys2Proof.Machine
end

