-- ==== Sys2Proof/Machine/PicRead.lean ====
section
/-! DEFINITION. The reads of the PIC ports and the edge/level control registers (43_pic.md R272 to R276). -/

namespace Sys2Proof.Machine

/-- PIC.READ.POLL (R272): either port of P, so `a0` has no effect. -/
def execPicReadPoll (p : PicId) (_a0 : Bool) (s : State) : Host.Outcome State Fault Refusal :=
  .next (s.startOp.pollRead p)

/-- PIC.READ.CMD (R273): "IRR is read unmasked". -/
def execPicReadCmd (p : PicId) (s : State) : Host.Outcome State Fault Refusal :=
  .next (s.startOp.answer (.byte (if (s.pic p).rsel then (s.pic p).isr else (s.pic p).irr)))

/-- PIC.READ.DATA (R274). -/
def execPicReadData (p : PicId) (s : State) : Host.Outcome State Fault Refusal :=
  .next (s.startOp.answer (.byte (s.pic p).imr))

/-- ELCR.WRITE (R275): the hardwired bits stay 0 (R35). -/
def execElcrWrite (p : PicId) (v : Byte) (s : State) : Host.Outcome State Fault Refusal :=
  .next (s.startOp.writePic p (fun x => { x with elcr := v &&& Config.elcrMask p }))

/-- ELCR.READ (R276). -/
def execElcrRead (p : PicId) (s : State) : Host.Outcome State Fault Refusal :=
  .next (s.startOp.answer (.byte (s.pic p).elcr))

end Sys2Proof.Machine
end

