-- ==== Sys2Proof/Machine/Pit.lean ====
section
/-! DEFINITION. The PIT operations (41_pit.md R151 to R157). -/

namespace Sys2Proof.Machine

/-- PIT.CW.LATCH (R152). -/
def execPitLatch (c : Chan) (s : State) : Host.Outcome State Fault Refusal :=
  .next (s.startOp.latchCount c)

/-- The channel after a mode control word (R153). -/
def Channel.programmed (rw : Rw) (m : BitVec 3) (bcd : Bool) (x : Channel) : Channel :=
  { x with
    rw := rw
    mode := m
    bcd := bcd
    rphase := .lo
    wphase := .lo
    rlatch := none
    slatch := none
    outputPin := decide (m ≠ 0) }

/-- PIT.CW.MODE (R153). -/
def execPitMode (c : Chan) (rw : Rw) (m : BitVec 3) (bcd : Bool) (s : State) : Host.Outcome State Fault Refusal :=
  .next (s.startOp.setChan c ((s.chan c).programmed rw m bcd))

/-- One channel's turn of a read-back (R154): the status first, then the count. -/
def State.readbackChan (countN statusN : Bool) (c : Chan) (s : State) : State :=
  let s1 := if statusN then s else s.latchStatus c
  if countN then s1 else s1.latchCount c

/-- PIT.CW.READBACK (R154): channels 0, 1, 2 in order, each if its CNT bit selects it. -/
def execPitReadback (countN statusN cnt2 cnt1 cnt0 : Bool) (s : State) : Host.Outcome State Fault Refusal :=
  let s0 := s.startOp
  let s1 := if cnt0 then s0.readbackChan countN statusN 0 else s0
  let s2 := if cnt1 then s1.readbackChan countN statusN 1 else s1
  .next (if cnt2 then s2.readbackChan countN statusN 2 else s2)

/-- The count write of R155: a byte in the channel's width, which completes a load or stages the low byte. -/
def State.writeCount (c : Chan) (v : Byte) (s : State) : State :=
  match (s.chan c).rw, (s.chan c).wphase with
  | .lsb, _ => s.load c (joinBytes 0 v)
  | .msb, _ => s.load c (joinBytes v 0)
  | .word, .lo => s.setChan c { s.chan c with wlatch := v, wphase := .hi }
  | .word, .hi => (s.setChan c { s.chan c with wphase := .lo }).load c (joinBytes v (s.chan c).wlatch)

/-- PIT.DATA.WRITE (R155). -/
def execPitDataWrite (c : Chan) (v : Byte) (s : State) : Host.Outcome State Fault Refusal :=
  .next (s.startOp.writeCount c v)

/-- The byte a read of a pending count latch `v` returns, in the channel's width (R156, R87). -/
def Channel.latchByte (x : Channel) (v : Word16) : Byte :=
  match x.rw, x.rphase with
  | .lsb, _ => lowByte v
  | .msb, _ => highByte v
  | .word, .lo => lowByte v
  | .word, .hi => highByte v

/-- The channel after a read of its pending count latch (R156): a WORD latch is released after its high byte. -/
def Channel.afterCountRead (x : Channel) : Channel :=
  match x.rw, x.rphase with
  | .lsb, _ => { x with rlatch := none }
  | .msb, _ => { x with rlatch := none }
  | .word, .lo => { x with rphase := .hi }
  | .word, .hi => { x with rphase := .lo, rlatch := none }

/-- The status or count read of R156: a pending status byte first; else the count latch, taken now if none is
pending. -/
def State.readCount (c : Chan) (s : State) : State :=
  match (s.chan c).slatch with
  | some b => (s.setChan c { s.chan c with slatch := none }).answer (.byte b)
  | none =>
    let s1 := s.latchCount c
    match (s1.chan c).rlatch with
    | some v => (s1.setChan c (s1.chan c).afterCountRead).answer (.byte ((s1.chan c).latchByte v))
    | none => s1

/-- PIT.DATA.READ (R156). -/
def execPitDataRead (c : Chan) (s : State) : Host.Outcome State Fault Refusal :=
  .next (s.startOp.readCount c)

/-- PIT.CTRL.READ (R157): "unused, reads as 0". -/
def execPitCtrlRead (s : State) : Host.Outcome State Fault Refusal :=
  .next (s.startOp.answer (.byte 0x00))

end Sys2Proof.Machine
end

