-- ==== Sys2Proof/Machine/Reset.lean ====
section
/-! DEFINITION. RESET (70_reset_and_hazards.md R360 to R362). -/

namespace Sys2Proof.Machine

/-- The virtual clock after RESET(kind): "soft reset keeps vclock" (R360, R362). -/
def resetClock (kind : ResetKind) (vclock : Tick) : Tick :=
  match kind with
  | .cold => 0
  | .soft => vclock

/-- Every field at its value of R361, before IRQ0 is armed. The fault marks stay (R321, R361), and so do the
model's own `draws` and `inbox`, which are no state of the block. -/
def State.resetFields (kind : ResetKind) (s : State) : State :=
  let now := resetClock kind s.vclock
  let cfg := Config.resetConfig kind
  { s with
    vclock := now
    hostPrev := none
    ifOffCount := 0
    watermark := now
    pit0Nominal := nominalOf cfg.ch0.count
    spkr := cfg.spkr
    ch := #v[Channel.reset cfg.ch0 now, Channel.reset cfg.ch1 now, Channel.reset cfg.ch2 now]
    master := Pic.reset cfg.masterBase
    slave := Pic.reset cfg.slaveBase
    sched := Vector.replicate 32 SchedLine.reset
    drive := Vector.replicate 16 false }

/-- RESET(kind) (R360): the table, then the first arming of IRQ0. -/
def execReset (kind : ResetKind) (s : State) : Host.Outcome State Fault Refusal :=
  let s1 := s.startOp.resetFields kind
  .next (s1.schedule 0 (s1.chan 0).counter.num)

end Sys2Proof.Machine
end

