-- ==== Sys2Proof/Machine/Speaker.lean ====
section
/-! DEFINITION. Port 0x61 and a channel's elapsed ticks (44_speaker_port.md R300 to R302). -/

namespace Sys2Proof.Machine

/-- SPKR.WRITE (R300): all 8 bits are stored. -/
def execSpkrWrite (v : Byte) (s : State) : Host.Outcome State Fault Refusal :=
  .next { s.startOp with spkr := v }

/-- The byte a port-0x61 read returns (R98, R301): bits 7:6 and 4 free, bit 5 channel 2's OUT, bits 3:0 as
written. -/
def spkrByte (bits76 : BitVec 2) (out : Bool) (bit4 : BitVec 1) (spkr : Byte) : Byte :=
  bits76 ++ BitVec.ofBool out ++ bit4 ++ spkr.extractLsb' 0 4

/-- SPKR.READ (R301): two free values are drawn, `draw_2` and `draw_1`; nothing else changes. -/
def execSpkrRead (s : State) : Host.Outcome State Fault Refusal :=
  .next (s.startOp.drawn.drawn.answer
    (.byte (spkrByte (Config.draw2 s.draws) (s.eval 2).out (Config.draw1 (s.draws + 1)) s.spkr)))

/-- ELAPSED (R302): unreduced, unclamped, not anchored; a channel outside 0..2 is a BadChannel mark. -/
def execElapsed (c : Nat) (s : State) : Host.Outcome State Fault Refusal :=
  if h : c < 3 then .next (s.startOp.answer (.tick (s.elapsed ⟨c, h⟩)))
  else .next (s.startOp.raiseFault (.badChannel c))

end Sys2Proof.Machine
end

