-- ==== Sys2Proof/Machine/Dispatch.lean ====
section
/-! DEFINITION. One arm per operation of spec/opcode_table.json, in its order. -/

namespace Sys2Proof.Machine

def exec (i : Instr) (s : State) : Host.Outcome State Fault Refusal :=
  match i with
  | .pitReadback countN statusN cnt2 cnt1 cnt0 => Sys2Proof.Machine.execPitReadback countN statusN cnt2 cnt1 cnt0 s
  | .pitLatch c => Sys2Proof.Machine.execPitLatch c s
  | .pitMode c rw m bcd => Sys2Proof.Machine.execPitMode c rw m bcd s
  | .pitCtrlRead => Sys2Proof.Machine.execPitCtrlRead s
  | .pitDataWrite c v => Sys2Proof.Machine.execPitDataWrite c v s
  | .pitDataRead c => Sys2Proof.Machine.execPitDataRead c s
  | .picIcw1 p ltim adi sngl ic4 => Sys2Proof.Machine.execPicIcw1 p ltim adi sngl ic4 s
  | .picOcw3 p esmm smm poll rr ris => Sys2Proof.Machine.execPicOcw3 p esmm smm poll rr ris s
  | .picRotAeoiClr p => Sys2Proof.Machine.execPicRotAeoiClr p s
  | .picNseoi p => Sys2Proof.Machine.execPicNseoi p s
  | .picNop p => Sys2Proof.Machine.execPicNop p s
  | .picSeoi p l => Sys2Proof.Machine.execPicSeoi p l s
  | .picRotAeoiSet p => Sys2Proof.Machine.execPicRotAeoiSet p s
  | .picRotNseoi p => Sys2Proof.Machine.execPicRotNseoi p s
  | .picSetPrio p l => Sys2Proof.Machine.execPicSetPrio p l s
  | .picRotSeoi p l => Sys2Proof.Machine.execPicRotSeoi p l s
  | .picIcw2 p v => Sys2Proof.Machine.execPicIcw2 p v s
  | .picIcw3 p v => Sys2Proof.Machine.execPicIcw3 p v s
  | .picIcw4 p sfnm buf ms aeoi upm => Sys2Proof.Machine.execPicIcw4 p sfnm buf ms aeoi upm s
  | .picOcw1 p v => Sys2Proof.Machine.execPicOcw1 p v s
  | .picReadPoll p a0 => Sys2Proof.Machine.execPicReadPoll p a0 s
  | .picReadCmd p => Sys2Proof.Machine.execPicReadCmd p s
  | .picReadData p => Sys2Proof.Machine.execPicReadData p s
  | .elcrWrite p v => Sys2Proof.Machine.execElcrWrite p v s
  | .elcrRead p => Sys2Proof.Machine.execElcrRead p s
  | .spkrWrite v => Sys2Proof.Machine.execSpkrWrite v s
  | .spkrRead => Sys2Proof.Machine.execSpkrRead s
  | .reset kind => Sys2Proof.Machine.execReset kind s
  | .advance t guestIf => Sys2Proof.Machine.execAdvance t guestIf s
  | .raise l => Sys2Proof.Machine.execRaise l s
  | .lower l => Sys2Proof.Machine.execLower l s
  | .inta => Sys2Proof.Machine.execInta s
  | .isPending => Sys2Proof.Machine.execIsPending s
  | .schedule l iv => Sys2Proof.Machine.execSchedule l iv s
  | .elapsed c => Sys2Proof.Machine.execElapsed c s
  | .maySleep vip sigq => Sys2Proof.Machine.execMaySleep vip sigq s

end Sys2Proof.Machine
end

