-- ==== Sys2Proof/Machine/Fetch.lean ====
section
/-! DEFINITION. Taking the next request. The block has no program counter and fetches no instructions (10_state.md
R21): it is issued one operation at a time, in "one total order of operations, the order the host issues them"
(20_memory.md R71). The requests issued and not yet taken stand in `State.inbox`, oldest first (log 1). -/

namespace Sys2Proof.Machine

/-- The oldest request and the state without it; `none` when nothing has been issued. -/
def fetch (s : State) : Option (Request × State) :=
  match s.inbox with
  | [] => none
  | r :: rest => some (r, { s with inbox := rest })

/-- The state with a request issued ahead of all others, so that the next step takes it. -/
def State.withNextRequest (s : State) (r : Request) : State := { s with inbox := r :: s.inbox }

end Sys2Proof.Machine
end

