-- ==== Sys2Proof/Machine/Step.lean ====
section
/-! DEFINITION. One step of the block: "every step of the model is one operation" on one of its two interfaces
(00_scope.md R14), each atomic (20_memory.md R70). -/

namespace Sys2Proof.Machine

/-- One step. With nothing issued the block rests: "Between accesses the channel has no state transitions of
its own" (R140; log 1). A request that decodes runs its operation. A wide access to a port of R62 leaves its
fault mark (R64). An access to any other port is refused by name (R62). -/
def step (s : State) : Host.Outcome State Fault Refusal :=
  match fetch s with
  | none => .next s
  | some (r, s') =>
    match decode s'.decodeCtx r with
    | .ok i => exec i s'
    | .error (.wideAccess port width) => .next (wideAccess port width s')
    | .error (.notBlockPort port) => .refused (.notBlockPort port)

/-- The state in which the next step takes the bus transaction word whose table bits are `w` (log 6). -/
def State.withFetchWord (s : State) (nbits w : Nat) : State := s.withNextRequest (.bus (tableWord nbits w))

end Sys2Proof.Machine
end

