-- ==== Sys2Proof/Safety.lean ====
section
/-! DEFINITION. The terms that claims about the block use: runs of operations and of requests, the rank of an
input (10_state.md R36), who requests and who blocks (43_pic.md R245), what the cascade update does (R247), what
one pass of the scheduler does (42_scheduler.md R201), and the invariant of the machine (10_state.md R44). -/

namespace Sys2Proof.Machine

/-! ### Runs -/

/-- Operations in the order the host issues them (20_memory.md R71), stopping at the first that has no next
state. -/
def execSeq : List Instr → State → Option State
  | [], s => some s
  | i :: is, s =>
    match exec i s with
    | .next t => execSeq is t
    | .fault _ => none
    | .refused _ => none

/-- Requests in the order they are issued, each taken by one step, stopping at the first that has no next
state. -/
def issueSeq : List Request → State → Option State
  | [], s => some s
  | r :: rs, s =>
    match step (s.withNextRequest r) with
    | .next t => issueSeq rs t
    | .fault _ => none
    | .refused _ => none

/-- The state with its free parts forgotten: how many values were drawn, what pending count latches hold, and
what the last operation returned. -/
def State.forgetFree (s : State) : State :=
  { s with
    draws := 0
    result := .nothing
    ch := s.ch.map (fun x => { x with rlatch := x.rlatch.map (fun _ => 0) }) }

/-! ### Priority (R36, R244, R245) -/

/-- The rank of input i: k where i is `(prio + k) mod 8` (R36). -/
def rank (prio i : Input) : Nat := (i - prio).val

/-- Input i is set in `mask` and no other set input has a better rank. -/
def IsHighest (prio : Input) (mask : Byte) (i : Input) : Prop :=
  hasBit mask i = true ∧ ∀ j, hasBit mask j = true → rank prio i ≤ rank prio j

/-- Input j is requested and unmasked. -/
def Pic.Requests (p : Pic) (j : Input) : Prop := hasBit p.irr j = true ∧ hasBit p.imr j = false

/-- Input j is in service and blocks: not a masked one in special mask mode, and not the master's cascade input
in special fully nested mode (R245). -/
def Pic.Blocks (p : Pic) (who : PicId) (j : Input) : Prop :=
  hasBit p.isr j = true ∧ ¬(p.smm = true ∧ hasBit p.imr j = true) ∧
    ¬(p.sfnm = true ∧ who = .master ∧ j = Config.cascadeIn)

/-! ### The cascade (R247) -/

/-- `t` is `s` after the slave's output level reached master input 2 (R247, R241, R242): only IRR bit 2 and the
edge latch's bit 2 of the master may differ. The latch shows the level. An edge-triggered input 2 gains its
request on a rise and keeps it otherwise; were it level-triggered, the request would be the level. -/
structure CascadeSettled (s t : State) : Prop where
  frame : t = { s with master := { s.master with irr := t.master.irr, elatch := t.master.elatch } }
  others : ∀ j, j ≠ Config.cascadeIn →
    hasBit t.master.irr j = hasBit s.master.irr j ∧ hasBit t.master.elatch j = hasBit s.master.elatch j
  latch : hasBit t.master.elatch Config.cascadeIn = s.slaveOut
  request : hasBit t.master.irr Config.cascadeIn =
    if hasBit s.master.elcr Config.cascadeIn then s.slaveOut
    else hasBit s.master.irr Config.cascadeIn || (s.slaveOut && !hasBit s.master.elatch Config.cascadeIn)

/-! ### One pass of the scheduler (R201, R209 to R211) -/

/-- Line L has come due and has not been delivered at that due time (R201). -/
def State.isDue (s : State) (l : Line) : Bool :=
  match (s.line l).nextDue with
  | none => false
  | some d => decide (d ≤ s.vclock) && !((s.line l).lastHonored == some d)

/-- Line L's due time has come and was delivered before (R208). -/
def State.isHonored (s : State) (l : Line) : Bool :=
  match (s.line l).nextDue with
  | none => false
  | some d => decide (d ≤ s.vclock) && (s.line l).lastHonored == some d

/-- What line L emits in a pass: a VIRQ if it is delivered and no PIC carries it (R211), a diagnostic if it was
delivered before (R208). -/
def State.passEvent (s : State) (l : Line) : Option Event :=
  if s.isHonored l then some (.diag (.dueEqualsHonored l))
  else if s.isDue l && decide (16 ≤ l.val) then some (.virq l)
  else none

/-- The input is raised by the pass: its line is due (R210). -/
def State.inputDue (s : State) (p : PicId) (j : Input) : Bool := s.isDue (lineOfIrq (irqOf p j))

/-- `t` is `s` after one pass of `activate()` (R201). Delivered lines record their due time; PIC lines among them
are driven and raised; each line's event comes in line order; the watermark moves to the earliest delivered due
time if that is later; with no PIC line due the PICs are untouched.

Master input 2 also carries the slave's output (R247), which a delivered line 8..15 can bring up and none can bring
down. On an edge-triggered input 2 (R35) a request is kept, and where the input's latch showed the slave's output
before the pass, it shows it after the pass, and the pass adds a request exactly if the output was down before and
line 2 is delivered (R210) or the output is up after (R247). -/
structure Activated (s t : State) : Prop where
  frame : t = { s with
    master := { s.master with irr := t.master.irr, elatch := t.master.elatch }
    slave := { s.slave with irr := t.slave.irr, elatch := t.slave.elatch }
    sched := t.sched, drive := t.drive, watermark := t.watermark, events := t.events }
  nextDue : ∀ l, (t.line l).nextDue = (s.line l).nextDue
  honored : ∀ l, (t.line l).lastHonored = if s.isDue l then (s.line l).nextDue else (s.line l).lastHonored
  driven : ∀ l : Irq, t.drives l = (s.drives l || s.isDue (lineOfIrq l))
  events : t.events = s.events ++ (List.finRange 32).filterMap s.passEvent
  idle : (∀ l : Irq, s.isDue (lineOfIrq l) = false) → t.master = s.master ∧ t.slave = s.slave
  still : (∀ l, s.isDue l = false) → t.watermark = s.watermark
  watermark : ∀ l d, s.isDue l = true → (s.line l).nextDue = some d →
    (∀ k e, s.isDue k = true → (s.line k).nextDue = some e → d ≤ e) → t.watermark = max s.watermark d
  request : ∀ p j, ¬(p = .master ∧ j = Config.cascadeIn) →
    hasBit (t.pic p).irr j = (hasBit (s.pic p).irr j ||
      (s.inputDue p j && (hasBit (s.pic p).elcr j || !hasBit (s.pic p).elatch j)))
  latch : ∀ p j, ¬(p = .master ∧ j = Config.cascadeIn) →
    hasBit (t.pic p).elatch j = (hasBit (s.pic p).elatch j || s.inputDue p j)
  cascade : hasBit s.master.elatch Config.cascadeIn = s.slaveOut →
    hasBit t.master.elatch Config.cascadeIn = t.slaveOut
  kept : hasBit s.master.elcr Config.cascadeIn = false → hasBit s.master.irr Config.cascadeIn = true →
    hasBit t.master.irr Config.cascadeIn = true
  cascadeRequest : hasBit s.master.elcr Config.cascadeIn = false →
    hasBit s.master.elatch Config.cascadeIn = s.slaveOut →
    hasBit t.master.irr Config.cascadeIn = (hasBit s.master.irr Config.cascadeIn ||
      ((s.inputDue .master Config.cascadeIn || t.slaveOut) && !s.slaveOut))

/-! ### The invariant (R44, and what the rules add to it) -/

/-- A channel's invariant at time `now`: R44 (a), (b), (e), (f), with the range of R27. -/
structure Channel.Ok (now : Tick) (x : Channel) : Prop where
  counter : ∀ n, x.counter = .count n → 1 ≤ n ∧ n ≤ Config.countMax
  base : x.baseTime ≤ now
  phases : x.rw ≠ .word → x.rphase = .lo ∧ x.wphase = .lo
  latch : x.rphase = .hi → x.rlatch.isSome = true

/-- A PIC's invariant: R44 (c), (d), and the sequencer never awaits a word ICW1 did not announce (R38). -/
structure Pic.Ok (who : PicId) (p : Pic) : Prop where
  base : p.base &&& 0x07 = 0
  elcr : p.elcr &&& ~~~(Config.elcrMask who) = 0
  icw3 : p.initState = .icw3 → p.sngl = false
  icw4 : p.initState = .icw4 → p.ic4 = true

/-- The machine's invariant: R44 (a) to (f) on every channel and PIC, and, derived from the rules: master input
2's edge latch shows the slave's output (R247), the nominal interval is in 1..65536 (R22), the watermark and
every delivered due time have passed and no due time was moved back behind a delivered one (R201, R204, R209), a
driven line was delivered (R210), the livelock count is within its limit (R125), and the fault marks are a set
(R22). -/
structure State.Inv (s : State) : Prop where
  chans : ∀ c, (s.chan c).Ok s.vclock
  pics : ∀ p, (s.pic p).Ok p
  cascade : hasBit s.master.elatch Config.cascadeIn = s.slaveOut
  nominal : 1 ≤ s.pit0Nominal ∧ s.pit0Nominal ≤ Config.countMax
  watermark : s.watermark ≤ s.vclock
  honored : ∀ l d, (s.line l).lastHonored = some d → d ≤ s.vclock ∧ ∃ e, (s.line l).nextDue = some e ∧ d ≤ e
  driven : ∀ l, s.drives l = true → (s.line (lineOfIrq l)).lastHonored.isSome = true
  livelock : s.ifOffCount ≤ Config.ifStuckLimit
  faults : s.fault.Nodup

/-- No host contract has been broken: "a proof about a correct host may assume `fault` = {}" (R321). -/
def State.ContractKept (s : State) : Prop := s.fault = []

end Sys2Proof.Machine
end

