-- ==== Sys2Proof/Certificates/Slice0/Obligations.lean ====
section
/-! DEFINITION. The statements for the provers, from the numbered rules of the spec. Each docstring names the rules
it formalises. The definitions of `Sys2Proof.Claims` are the spec's own formulas, written a second time from the
rules' text and not from the model. -/

namespace Sys2Proof.Claims

open Sys2Proof.Machine

/-! ### Decoding by fields (30_encoding.md R81, R83, R84, R88, R94, R101, R102) -/

/-- A byte written to port 0x43: SC = v[7:6], RW = v[5:4], M = v[3:1], BCD = v[0] (R151, R84). -/
def controlWord (v : Byte) : Instr :=
  let c : Chan := match v.getLsbD 7, v.getLsbD 6 with
    | false, false => 0
    | false, true => 1
    | _, _ => 2
  if v.getLsbD 7 && v.getLsbD 6 then
    .pitReadback (v.getLsbD 5) (v.getLsbD 4) (v.getLsbD 3) (v.getLsbD 2) (v.getLsbD 1)
  else
    match v.getLsbD 5, v.getLsbD 4 with
    | false, false => .pitLatch c
    | false, true => .pitMode c .lsb (v.extractLsb' 1 3) (v.getLsbD 0)
    | true, false => .pitMode c .msb (v.extractLsb' 1 3) (v.getLsbD 0)
    | true, true => .pitMode c .word (v.extractLsb' 1 3) (v.getLsbD 0)

/-- A byte written to a PIC's command port: ICW1 by v[4], else OCW3 by v[3], else OCW2 by v[7:5] (R255, R94). -/
def commandByte (p : PicId) (v : Byte) : Instr :=
  let l : Input := (v.extractLsb' 0 3).toFin
  if v.getLsbD 4 then .picIcw1 p (v.getLsbD 3) (v.getLsbD 2) (v.getLsbD 1) (v.getLsbD 0)
  else if v.getLsbD 3 then .picOcw3 p (v.getLsbD 6) (v.getLsbD 5) (v.getLsbD 2) (v.getLsbD 1) (v.getLsbD 0)
  else
    match v.getLsbD 7, v.getLsbD 6, v.getLsbD 5 with
    | false, false, false => .picRotAeoiClr p
    | false, false, true => .picNseoi p
    | false, true, false => .picNop p
    | false, true, true => .picSeoi p l
    | true, false, false => .picRotAeoiSet p
    | true, false, true => .picRotNseoi p
    | true, true, false => .picSetPrio p l
    | true, true, true => .picRotSeoi p l

/-- A byte written to a PIC's data port, by the sequencer (R256). -/
def dataByte (p : PicId) (v : Byte) : InitState → Instr
  | .ready => .picOcw1 p v
  | .icw2 => .picIcw2 p v
  | .icw3 => .picIcw3 p v
  | .icw4 => .picIcw4 p (v.getLsbD 4) (v.getLsbD 3) (v.getLsbD 2) (v.getLsbD 1) (v.getLsbD 0)

/-- The operation of one access, by its direction, port and byte (R62, R101, R102). -/
def fieldDecode (ctx : DecodeCtx) (write : Bool) (port : Port) (v : Byte) : Option Instr :=
  if port = 0x40 then some (if write then .pitDataWrite 0 v else .pitDataRead 0)
  else if port = 0x41 then some (if write then .pitDataWrite 1 v else .pitDataRead 1)
  else if port = 0x42 then some (if write then .pitDataWrite 2 v else .pitDataRead 2)
  else if port = 0x43 then some (if write then controlWord v else .pitCtrlRead)
  else if port = 0x20 then
    some (if write then commandByte .master v
      else if ctx.masterPoll then .picReadPoll .master false else .picReadCmd .master)
  else if port = 0x21 then
    some (if write then dataByte .master v ctx.masterInit
      else if ctx.masterPoll then .picReadPoll .master true else .picReadData .master)
  else if port = 0xA0 then
    some (if write then commandByte .slave v
      else if ctx.slavePoll then .picReadPoll .slave false else .picReadCmd .slave)
  else if port = 0xA1 then
    some (if write then dataByte .slave v ctx.slaveInit
      else if ctx.slavePoll then .picReadPoll .slave true else .picReadData .slave)
  else if port = 0x4D0 then some (if write then .elcrWrite .master v else .elcrRead .master)
  else if port = 0x4D1 then some (if write then .elcrWrite .slave v else .elcrRead .slave)
  else if port = 0x61 then some (if write then .spkrWrite v else .spkrRead)
  else none

/-- The data bits that no operand of the operation holds: a latch command's v[3:0], a read-back's v[0], ICW1's
v[7:5], ICW4's v[7:5], OCW3's v[7], the level of an OCW2 command that uses none, and the byte of every read. They are
fewer than the bits R100 lists as ignored: ICW1 v[2], ICW2 v[2:0], ICW3 and ICW4 v[3:2], v[0] are operands here, which
the operations ignore. -/
def droppedBits : Instr → Byte
  | .pitLatch _ => 0x0F
  | .pitReadback .. => 0x01
  | .picIcw1 .. => 0xE0
  | .picIcw4 .. => 0xE0
  | .picOcw3 .. => 0x80
  | .picRotAeoiClr _ | .picNseoi _ | .picNop _ | .picRotAeoiSet _ | .picRotNseoi _ => 0x07
  | .pitCtrlRead | .pitDataRead _ | .picReadPoll .. | .picReadCmd _ | .picReadData _ | .elcrRead _ | .spkrRead => 0xFF
  | _ => 0x00

/-! ### A channel's count and OUT (41_pit.md R142 to R149) -/

/-- Where channel c's periods start: IRQ0's due time for channel 0 once it is armed, else the last load (R142). -/
def anchor (s : State) (c : Chan) : Tick :=
  if c = 0 then (s.line 0).nextDue.getD (s.chan c).baseTime else (s.chan c).baseTime

/-- p is the phase of channel c with reload n: the number in 0..n-1 that is congruent to the distance from the
anchor (R142, and the floored remainder of R9). -/
def IsPhase (s : State) (c : Chan) (n p : Nat) : Prop :=
  p < n ∧ (n : Int) ∣ (s.vclock : Int) - (anchor s c : Int) - (p : Int)

/-- OUT of channel c now, given its phase (R143 to R147). -/
def outNow (s : State) (c : Chan) (p : Nat) : Bool :=
  match (s.chan c).counter with
  | .expired => (s.chan c).outputPin
  | .count n =>
    if (s.chan c).mode = 0 ∨ (s.chan c).mode = 1 then decide ((s.chan c).baseTime + n ≤ s.vclock)
    else if (s.chan c).mode = 4 ∨ (s.chan c).mode = 5 then decide (s.vclock ≠ (s.chan c).baseTime + n)
    else if (s.chan c).mode = 2 ∨ (s.chan c).mode = 6 then decide (p + 1 ≠ n)
    else decide (2 * p < n)

/-- NULL COUNT of channel c now (R149, with the expiry of R144 and R145). -/
def nullNow (s : State) (c : Chan) : Bool :=
  match (s.chan c).counter with
  | .expired => true
  | .count n =>
    ((s.chan c).mode = 0 ∧ (s.chan c).baseTime + n ≤ s.vclock) ∨
      ((s.chan c).mode = 4 ∧ (s.chan c).baseTime + n < s.vclock)

/-- The state after a completed count write (R150, R155): the new epoch, with the given write phase. -/
def loadedState (s : State) (c : Chan) (v : Word16) (wphase : Phase) : State :=
  { s.startOp.setChan c { s.chan c with
      counter := .count (if v = 0 then 65536 else v.toNat), baseTime := s.vclock, wphase := wphase } with
    pit0Nominal := if c = 0 then (if v = 0 then 65536 else v.toNat) else s.pit0Nominal }

/-- The single-channel commands a read-back stands for, in order (R154). -/
def readbackOps (countN statusN cnt2 cnt1 cnt0 : Bool) : List Instr :=
  let one (sel : Bool) (c : Chan) : List Instr :=
    if sel then
      (if statusN then [] else [Instr.pitReadback true false (c == 2) (c == 1) (c == 0)]) ++
        (if countN then [] else [Instr.pitLatch c])
    else []
  one cnt0 0 ++ one cnt1 1 ++ one cnt2 2

/-! ### The PICs (43_pic.md R245, R251, R213) -/

/-- Input i of P would be acknowledged now: the highest-priority requested and unmasked input, outranking every
input in service that blocks (R245). -/
def Eligible (s : State) (p : PicId) (i : Input) : Prop :=
  IsHighest (s.pic p).prio ((s.pic p).irr &&& ~~~(s.pic p).imr) i ∧
    ∀ j, (s.pic p).Blocks p j → rank (s.pic p).prio i < rank (s.pic p).prio j

/-- The PIC after input i has been acknowledged (R251) and, if the scheduler drove it, lowered (R213, R242). -/
def taken (x : Pic) (i : Input) (driven : Bool) : Pic :=
  { x with
    isr := if x.aeoi then x.isr else setBit x.isr i
    prio := if x.aeoi && x.rotAeoi then i + 1 else x.prio
    irr := if hasBit x.elcr i && !driven then x.irr else clearBit x.irr i
    elatch := if driven then clearBit x.elatch i else x.elatch }

/-- The ticks ADVANCE adds: none at the first sample, none when the sample is below the previous one (R120). -/
def sampleDelta : Option HostTick → HostTick → Nat
  | none, _ => 0
  | some y, x => if x.toNat < y.toNat then 0 else x.toNat - y.toNat

/-- The due time of line 0 after its acknowledge (R204, R214): n ticks on, or unchanged by an expired channel 0. -/
def rearmed (due : Option Tick) (now : Tick) : Counter → Option Tick
  | .count n => some (due.getD now + n)
  | .expired => due

/-! ### Who writes what -/

/-- The operations of 41_pit.md that write a channel. -/
def writesChannels : Instr → Bool
  | .pitReadback .. | .pitLatch .. | .pitMode .. | .pitDataWrite .. | .pitDataRead .. => true
  | _ => false

/-- The reads that may return an open value: a count read, a read of port 0x61, a poll read (R148, R301, R96). -/
def returnsOpen : Instr → Bool
  | .pitDataRead _ | .spkrRead | .picReadPoll .. => true
  | _ => false

/-- The operations that program PIC P: ICW1 to ICW4, OCW1, OCW3, the two rotate-in-AEOI commands, ELCR.WRITE and
RESET. -/
def programsPic (p : PicId) : Instr → Bool
  | .picIcw1 q .. | .picIcw2 q _ | .picIcw3 q _ | .picIcw4 q .. | .picOcw1 q _ | .picOcw3 q .. | .picRotAeoiClr q
  | .picRotAeoiSet q | .elcrWrite q _ => p == q
  | .reset _ => true
  | _ => false

/-- The operations that may move line L's due time: SCHEDULE of L, RESET, and for line 0 its acknowledge, by INTA
or by a poll of the master (R220, R214). -/
def mayArm (l : Line) : Instr → Bool
  | .schedule k _ => k == l.val
  | .reset _ => true
  | .inta => l == 0
  | .picReadPoll .master _ => l == 0
  | _ => false

/-- Operation i, which led to state t, armed line L: it was SCHEDULE of L, or L is line 0 and it acknowledged it
(R214). -/
def rearmsLine (l : Line) (i : Instr) (t : State) : Bool :=
  (match i with
    | .schedule k _ => k == l.val
    | _ => false) || (l == 0 && t.events.contains (.ack 0))

/-- How many of the operations armed line L. -/
def rearmCount (l : Line) : List Instr → State → Nat
  | [], _ => 0
  | i :: is, s =>
    match exec i s with
    | .next t => (if rearmsLine l i t then 1 else 0) + rearmCount l is t
    | .fault _ => 0
    | .refused _ => 0

/-- Every arming of line L by the operations is with the interval iv: SCHEDULE of L passes it, channel 0 counts by it
whenever line 0 is acknowledged, and nothing is reset. -/
def PhaseKept (l : Line) (iv : Int) : List Instr → State → Prop
  | [], _ => True
  | i :: is, s => ∀ t, exec i s = .next t →
    (∀ kind, i ≠ .reset kind) ∧ (∀ jv, i = .schedule l.val jv → jv = iv) ∧
    (l = 0 → .ack 0 ∈ t.events → (s.chan 0).counter = .count iv.toNat) ∧ PhaseKept l iv is t

end Sys2Proof.Claims

section

open Sys2Proof Sys2Proof.Machine Sys2Proof.Claims

/-! ### Encodings -/

/-- Decoding an encoded operation gives it back, in every state that admits it (R81, R82, R102). -/
def Obligations.DecodeOfEncode : Prop :=
  ∀ (ctx : DecodeCtx) (i : Instr), ctxAdmits ctx i = true → decode ctx (encode i) = .ok i

/-- An access decodes to an operation that the state admits, and whose encoding is the access with the bits that the
operands drop at 0 (R81, R102). Every bit that is an operand is kept, the ignored ones among them. -/
def Obligations.EncodeOfDecode : Prop :=
  ∀ (ctx : DecodeCtx) (w : Btw) (i : Instr), decodeBus ctx w = .ok i →
    ctxAdmits ctx i = true ∧ encode i = .bus (w &&& ~~~((droppedBits i).zeroExtend 25))

/-- "No bus transaction to a port of 20_memory.md rule R62 is illegal" (R100), and no other port is decoded. -/
def Obligations.BlockPortsDecode : Prop :=
  ∀ (ctx : DecodeCtx) (w : Btw), (∃ i, decodeBus ctx w = .ok i) ↔ btwPort w ∈ blockPorts

/-- The table selects, for every word in every context, the operation its fields name (R84, R88, R94, R101, R102). -/
def Obligations.TableDecodeByField : Prop :=
  ∀ (ctx : DecodeCtx) (w : Btw), decodeBus ctx w =
    match fieldDecode ctx (btwWrite w) (btwPort w) (btwData w) with
    | some i => .ok i
    | none => .error (.notBlockPort (btwPort w))

/-- Words of 95_test_vectors.md part 2.1 decode to the operations written beside them there. -/
def Obligations.DecodedWords : Prop :=
  decodeBus resetCtx 0x1004336 = .ok (.pitMode 0 .word 3 false) ∧
  decodeBus resetCtx 0x100430F = .ok (.pitLatch 0) ∧
  decodeBus resetCtx 0x0004200 = .ok (.pitDataRead 2) ∧
  decodeBus resetCtx 0x100A011 = .ok (.picIcw1 .slave false false false true) ∧
  decodeBus resetCtx 0x10020C4 = .ok (.picSetPrio .master 4) ∧
  decodeBus { resetCtx with masterInit := .icw3 } 0x1002104 = .ok (.picIcw3 .master 0x04) ∧
  decodeBus { resetCtx with slavePoll := true } 0x000A100 = .ok (.picReadPoll .slave true) ∧
  decodeBus resetCtx 0x104D1FF = .ok (.elcrWrite .slave 0xFF) ∧
  decodeBus resetCtx 0x1006103 = .ok (.spkrWrite 0x03)

/-! ### Steps -/

/-- A step takes the oldest request and runs the operation it decodes to (R14, R70, R71). That the issued requests
stand in `inbox`, oldest first, and that the step takes one out is the model's choice (log 1). -/
def Obligations.StepRunsDecoded : Prop :=
  ∀ (s : State) (r : Request) (rest : List Request) (i : Instr),
    s.inbox = r :: rest → decode s.decodeCtx r = .ok i → step s = exec i { s with inbox := rest }

/-- A 16-bit or 32-bit access to a port of R62 leaves its fault mark and changes nothing else (R64). That the request
is taken out of `inbox` is the model's choice (log 1), and so is the mark's place at the end of the list (log 8). -/
def Obligations.WideAccessMarks : Prop :=
  ∀ (s : State) (port : Port) (width : WideWidth) (rest : List Request),
    s.inbox = .wide port width :: rest → port ∈ blockPorts →
    step s = .next { s with
      inbox := rest
      fault := if .wideAccess port width ∈ s.fault then s.fault else s.fault ++ [.wideAccess port width]
      result := .nothing
      events := [] }

/-- An access to a port outside R62 has no meaning here, at any width, and a step with nothing issued changes
nothing (R62, R140). Refusing is the model's choice (log 11). That a wide access is judged by its own port number, so
that 16 bits at 0x3F are refused although they reach over port 0x40, is the model's reading (log 7). The last clause
is the model's choice (log 1). -/
def Obligations.NothingForTheBlock : Prop :=
  (∀ (s : State) (w : Btw) (rest : List Request), s.inbox = .bus w :: rest → btwPort w ∉ blockPorts →
    step s = .refused (.notBlockPort (btwPort w))) ∧
  (∀ (s : State) (port : Port) (width : WideWidth) (rest : List Request),
    s.inbox = .wide port width :: rest → port ∉ blockPorts → step s = .refused (.notBlockPort port)) ∧
  (∀ s : State, s.inbox = [] → step s = .next s)

/-- Every operation completes from every state (R14: "Each operation runs to completion"; R320). -/
def Obligations.EveryOperationCompletes : Prop :=
  ∀ (i : Instr) (s : State), ∃ t, exec i s = .next t

/-- A host call with an argument outside its range leaves its mark, once, and nothing else (R321, R323). The marks
are a set in the spec; that a new one stands at the end of the list is the model's choice (log 8). -/
def Obligations.BadArgumentsMark : Prop :=
  ∀ (s : State) (n : Nat) (iv : Int),
    let marked (f : Fault) : State :=
      { s with fault := if f ∈ s.fault then s.fault else s.fault ++ [f], result := .nothing, events := [] }
    (16 ≤ n → exec (.raise n) s = .next (marked (.badIrq n))) ∧
    (16 ≤ n → exec (.lower n) s = .next (marked (.badIrq n))) ∧
    (32 ≤ n → exec (.schedule n iv) s = .next (marked (.badLine n))) ∧
    (3 ≤ n → exec (.elapsed n) s = .next (marked (.badChannel n)))

/-! ### Invariants and whole-machine rules -/

/-- The state after reset meets the invariant; its values are R361's table, which the model takes (log 4). -/
def Obligations.ResetInv : Prop := State.reset.Inv

/-- Every step keeps the invariant (R44 (a) to (f), and the clauses the rules add). -/
def Obligations.StepKeepsInv : Prop :=
  ∀ s t : State, s.Inv → step s = .next t → t.Inv

/-- `vclock` moves only in ADVANCE and at a cold RESET; it and the watermark never go back otherwise (R121, R44 (g)
and (h)). -/
def Obligations.ClockNeverGoesBack : Prop :=
  ∀ (i : Instr) (s t : State), exec i s = .next t → i ≠ .reset .cold →
    s.vclock ≤ t.vclock ∧ (s.watermark ≤ s.vclock → s.watermark ≤ t.watermark) ∧
    ((∀ x b, i ≠ .advance x b) → t.vclock = s.vclock)

/-- Fault marks are never cleared; an operation whose arguments are in range adds none, and one whose arguments are
not changes nothing but the marks (R321). -/
def Obligations.FaultMarksStay : Prop :=
  ∀ (i : Instr) (s t : State), exec i s = .next t →
    (∀ f ∈ s.fault, f ∈ t.fault) ∧
    (i.wellFormed = true → t.fault = s.fault) ∧
    (i.wellFormed = false → t = { s with fault := t.fault, result := .nothing, events := [] } ∧ t.fault ≠ [])

/-- PIT operations write channels, the nominal interval and the model's own count of free values (log 2), and nothing
else; no other operation but RESET writes a channel (R20, R158). -/
def Obligations.ChannelsAreThePits : Prop :=
  ∀ (i : Instr) (s t : State), exec i s = .next t →
    (writesChannels i = true →
      t = { s with ch := t.ch, pit0Nominal := t.pit0Nominal, draws := t.draws, result := t.result, events := [] }) ∧
    (writesChannels i = false → (∀ kind, i ≠ .reset kind) → t.ch = s.ch ∧ t.pit0Nominal = s.pit0Nominal)

/-- A PIC's mask, trigger modes, vector base and mode bits change only by the operations that program it, and the
port-0x61 byte only by SPKR.WRITE and RESET (R34, R256, R300). -/
def Obligations.SettingsKeepToTheirWriters : Prop :=
  ∀ (i : Instr) (s t : State) (p : PicId), exec i s = .next t →
    (programsPic p i = false → t.pic p = { s.pic p with
      irr := (t.pic p).irr, isr := (t.pic p).isr, elatch := (t.pic p).elatch, prio := (t.pic p).prio
      poll := (t.pic p).poll }) ∧
    ((∀ v, i ≠ .spkrWrite v) → (∀ kind, i ≠ .reset kind) → t.spkr = s.spkr)

/-- Only the named arming operations move a line's due time; activation never does (R201, R220). -/
def Obligations.DueTimesMoveOnlyByArming : Prop :=
  ∀ (i : Instr) (s t : State) (l : Line), exec i s = .next t → mayArm l i = false →
    (t.line l).nextDue = (s.line l).nextDue

/-- An input enters service only by an acknowledge: INTA, or a poll read of its own PIC (R251, R327). -/
def Obligations.ServiceStartsWithAcknowledge : Prop :=
  ∀ (i : Instr) (s t : State) (p : PicId) (j : Input), exec i s = .next t →
    hasBit (t.pic p).isr j = true → hasBit (s.pic p).isr j = false → i = .inta ∨ ∃ a, i = .picReadPoll p a

/-- The free values reach only pending count latches and what count reads, port-0x61 reads and poll reads return: two
states that differ in the values drawn, the contents of pending count latches and the last answer still differ in
nothing else after any operation, and any operation but those three reads gives them the same answer (R12, R382). The
count of values drawn is the model's own (log 2). -/
def Obligations.FreeValuesReachOnlyReads : Prop :=
  ∀ (i : Instr) (s₁ s₂ t₁ t₂ : State), s₁.forgetFree = s₂.forgetFree → exec i s₁ = .next t₁ →
    exec i s₂ = .next t₂ → t₁.forgetFree = t₂.forgetFree ∧ (returnsOpen i = false → t₁.result = t₂.result)

/-! ### The PIT -/

/-- A pending count latch is kept, and an expired channel latches an open value without moving its OUT (R148,
R143 case E, R382); the value drawn advances the model's own count of free values (log 2). -/
def Obligations.CountLatchPendingOrExpired : Prop :=
  ∀ (c : Chan) (s : State),
    ((s.chan c).rlatch ≠ none → exec (.pitLatch c) s = .next s.startOp) ∧
    ((s.chan c).rlatch = none → (s.chan c).counter = .expired →
      ∃ v, exec (.pitLatch c) s = .next (s.startOp.setChan c { s.chan c with rlatch := some v }).drawn)

/-- The counter latch command in modes 0 and 1, e ticks into a count of n (R144, R148, R152). The open value past n
advances the model's own count of free values (log 2). -/
def Obligations.CountLatchOneShot : Prop :=
  ∀ (c : Chan) (s : State) (n e : Nat), (s.chan c).rlatch = none → (s.chan c).counter = .count n →
    ((s.chan c).mode = 0 ∨ (s.chan c).mode = 1) → s.vclock = (s.chan c).baseTime + e →
    let done : Counter := if (s.chan c).mode = 0 then .expired else .count n
    (e < n → exec (.pitLatch c) s = .next (s.startOp.setChan c
      { s.chan c with rlatch := some (BitVec.ofNat 16 (n - e)), outputPin := false })) ∧
    (e = n → exec (.pitLatch c) s = .next (s.startOp.setChan c
      { s.chan c with rlatch := some 0, outputPin := true, counter := done })) ∧
    (n < e → ∃ v, exec (.pitLatch c) s = .next (s.startOp.setChan c
      { s.chan c with rlatch := some v, outputPin := true, counter := done }).drawn)

/-- The counter latch command in modes 4 and 5: OUT is low for the one tick at which e = n, and only the tick after
it has expired (R145, R148, R152). The open value past n advances the model's own count of free values (log 2). -/
def Obligations.CountLatchStrobe : Prop :=
  ∀ (c : Chan) (s : State) (n e : Nat), (s.chan c).rlatch = none → (s.chan c).counter = .count n →
    ((s.chan c).mode = 4 ∨ (s.chan c).mode = 5) → s.vclock = (s.chan c).baseTime + e →
    (e ≤ n → exec (.pitLatch c) s = .next (s.startOp.setChan c
      { s.chan c with rlatch := some (BitVec.ofNat 16 (n - e)), outputPin := decide (e < n) })) ∧
    (n < e → ∃ v, exec (.pitLatch c) s = .next (s.startOp.setChan c
      { s.chan c with rlatch := some v, outputPin := true
                      counter := if (s.chan c).mode = 4 then .expired else .count n }).drawn)

/-- The counter latch command in modes 2 and 6: the count is n less the phase, OUT is low at count 1, and it never
expires (R146, R142, R148). -/
def Obligations.CountLatchRateGenerator : Prop :=
  ∀ (c : Chan) (s : State) (n p : Nat), (s.chan c).rlatch = none → (s.chan c).counter = .count n →
    ((s.chan c).mode = 2 ∨ (s.chan c).mode = 6) → (s.chan c).baseTime ≤ s.vclock → IsPhase s c n p →
    exec (.pitLatch c) s = .next (s.startOp.setChan c
      { s.chan c with rlatch := some (BitVec.ofNat 16 (n - p)), outputPin := decide (n - p ≠ 1) })

/-- The counter latch command in modes 3 and 7: the count falls by 2 a tick in each half, high then low (R147,
R142, R148). -/
def Obligations.CountLatchSquareWave : Prop :=
  ∀ (c : Chan) (s : State) (n p : Nat), (s.chan c).rlatch = none → (s.chan c).counter = .count n →
    ((s.chan c).mode = 3 ∨ (s.chan c).mode = 7) → (s.chan c).baseTime ≤ s.vclock → IsPhase s c n p →
    exec (.pitLatch c) s = .next (s.startOp.setChan c
      { s.chan c with
        rlatch := some (BitVec.ofNat 16 (if 2 * p < n then n - 2 * p else 2 * n - 2 * p))
        outputPin := decide (2 * p < n) })

/-- In mode 2, within one period before IRQ0's due time, channel 0's count is the number of ticks left until it
(R142). -/
def Obligations.ChannelZeroCountsToIrq0 : Prop :=
  ∀ (s : State) (n d : Nat), (s.chan 0).rlatch = none → (s.chan 0).counter = .count n → (s.chan 0).mode = 2 →
    (s.line 0).nextDue = some d → s.vclock < d → d ≤ s.vclock + n →
    ∃ t, exec (.pitLatch 0) s = .next t ∧ (t.chan 0).rlatch = some (BitVec.ofNat 16 (d - s.vclock))

/-- A read-back of one channel's status: a pending status is kept; else the status byte is OUT and NULL COUNT as of
now and RW, M and BCD as written, and nothing else changes (R149, R86). -/
def Obligations.StatusLatch : Prop :=
  ∀ (c : Chan) (s : State) (p : Nat), (s.chan c).baseTime ≤ s.vclock →
    (∀ n, (s.chan c).counter = .count n → IsPhase s c n p) →
    ((s.chan c).slatch ≠ none → exec (.pitReadback true false (c == 2) (c == 1) (c == 0)) s = .next s.startOp) ∧
    ((s.chan c).slatch = none → ∃ b : Byte,
      exec (.pitReadback true false (c == 2) (c == 1) (c == 0)) s =
        .next (s.startOp.setChan c { s.chan c with slatch := some b }) ∧
      b.getLsbD 7 = outNow s c p ∧ b.getLsbD 6 = nullNow s c ∧
      b.extractLsb' 4 2 = (match (s.chan c).rw with
        | .lsb => 0b01
        | .msb => 0b10
        | .word => 0b11) ∧
      b.extractLsb' 1 3 = (s.chan c).mode ∧ b.getLsbD 0 = (s.chan c).bcd)

/-- A read-back does what its single-channel commands do in order: channels 0, 1, 2, the status before the count
(R154). -/
def Obligations.ReadbackLatchByLatch : Prop :=
  ∀ (countN statusN cnt2 cnt1 cnt0 : Bool) (s : State),
    ∃ t, exec (.pitReadback countN statusN cnt2 cnt1 cnt0) s = .next t ∧
      execSeq (readbackOps countN statusN cnt2 cnt1 cnt0) s.startOp = some t

/-- A mode control word (R153). -/
def Obligations.ModeControlWord : Prop :=
  ∀ (c : Chan) (rw : Rw) (m : BitVec 3) (bcd : Bool) (s : State),
    exec (.pitMode c rw m bcd) s = .next (s.startOp.setChan c
      { s.chan c with
        rw := rw, mode := m, bcd := bcd, rphase := .lo, wphase := .lo, rlatch := none, slatch := none
        outputPin := if m = 0 then false else true })

/-- A count write in each width: one byte loads, or the low byte is staged and the high byte loads (R155, R150). -/
def Obligations.CountWrite : Prop :=
  ∀ (c : Chan) (v : Byte) (s : State),
    ((s.chan c).rw = .lsb → exec (.pitDataWrite c v) s = .next (loadedState s c (0x00#8 ++ v) (s.chan c).wphase)) ∧
    ((s.chan c).rw = .msb → exec (.pitDataWrite c v) s = .next (loadedState s c (v ++ 0x00#8) (s.chan c).wphase)) ∧
    ((s.chan c).rw = .word → (s.chan c).wphase = .lo → exec (.pitDataWrite c v) s =
      .next (s.startOp.setChan c { s.chan c with wlatch := v, wphase := .hi })) ∧
    ((s.chan c).rw = .word → (s.chan c).wphase = .hi → exec (.pitDataWrite c v) s =
      .next (loadedState s c (v ++ (s.chan c).wlatch) .lo))

/-- A data-port read: a pending status first, then the pending count's bytes in the channel's width, and with
nothing pending the count is latched first (R156). -/
def Obligations.CountRead : Prop :=
  ∀ (c : Chan) (s : State),
    let answered (b : Byte) (x : Channel) : State := (s.startOp.setChan c x).answer (.byte b)
    (∀ b, (s.chan c).slatch = some b →
      exec (.pitDataRead c) s = .next (answered b { s.chan c with slatch := none })) ∧
    (∀ v, (s.chan c).slatch = none → (s.chan c).rlatch = some v →
      ((s.chan c).rw = .lsb → exec (.pitDataRead c) s =
        .next (answered (v.extractLsb' 0 8) { s.chan c with rlatch := none })) ∧
      ((s.chan c).rw = .msb → exec (.pitDataRead c) s =
        .next (answered (v.extractLsb' 8 8) { s.chan c with rlatch := none })) ∧
      ((s.chan c).rw = .word → (s.chan c).rphase = .lo → exec (.pitDataRead c) s =
        .next (answered (v.extractLsb' 0 8) { s.chan c with rphase := .hi })) ∧
      ((s.chan c).rw = .word → (s.chan c).rphase = .hi → exec (.pitDataRead c) s =
        .next (answered (v.extractLsb' 8 8) { s.chan c with rphase := .lo, rlatch := none }))) ∧
    ((s.chan c).slatch = none → (s.chan c).rlatch = none →
      ∃ u, exec (.pitLatch c) s = .next u ∧ exec (.pitDataRead c) s = exec (.pitDataRead c) u)

/-- A read of port 0x43 returns 0x00 in every state and changes nothing (R157). -/
def Obligations.ControlPortRead : Prop :=
  ∀ s : State, exec .pitCtrlRead s = .next { s with result := .byte 0x00, events := [] }

/-- A 16-bit value written low byte first in mode 0 and read back before any tick is the value (R87, R155, R156). -/
def Obligations.CountRoundTrip : Prop :=
  ∀ (c : Chan) (v : Word16) (s : State), ∃ t u,
    issueSeq [outReq 0x43 (BitVec.ofNat 8 (64 * c.val + 0x30)), outReq (chanPort c) (v.extractLsb' 0 8),
      outReq (chanPort c) (v.extractLsb' 8 8), inReq (chanPort c)] s = some t ∧
    t.result = .byte (v.extractLsb' 0 8) ∧
    issueSeq [inReq (chanPort c)] t = some u ∧ u.result = .byte (v.extractLsb' 8 8) ∧
    (u.chan c).rlatch = none ∧ (u.chan c).rphase = .lo

/-! ### Port 0x61 and elapsed ticks -/

/-- A write of port 0x61 stores all 8 bits and does nothing else (R300). -/
def Obligations.SpeakerWrite : Prop :=
  ∀ (v : Byte) (s : State), exec (.spkrWrite v) s = .next { s with spkr := v, result := .nothing, events := [] }

/-- A read of port 0x61: bits 3:0 as written, bit 5 channel 2's OUT, the other bits open, and nothing changes (R301)
but the model's own count of free values (log 2). -/
def Obligations.SpeakerRead : Prop :=
  ∀ (s : State) (p : Nat), (s.chan 2).baseTime ≤ s.vclock →
    (∀ n, (s.chan 2).counter = .count n → IsPhase s 2 n p) →
    ∃ b : Byte, exec .spkrRead s = .next { s with draws := s.draws + 2, result := .byte b, events := [] } ∧
      b.extractLsb' 0 4 = s.spkr.extractLsb' 0 4 ∧ b.getLsbD 5 = outNow s 2 p

/-- With channel 2 in mode 2, bit 5 of port 0x61 is 0 exactly at the last tick of each period (R303). -/
def Obligations.SpeakerTone : Prop :=
  ∀ (s : State) (n e : Nat), (s.chan 2).mode = 2 → (s.chan 2).counter = .count n →
    s.vclock = (s.chan 2).baseTime + e → 1 ≤ n →
    ∃ t b, exec .spkrRead s = .next t ∧ t.result = .byte b ∧ (b.getLsbD 5 = false ↔ e % n = n - 1)

/-- ELAPSED returns the ticks since the channel's last load, neither reduced nor clamped nor anchored (R302). -/
def Obligations.ElapsedTicks : Prop :=
  ∀ (c : Chan) (s : State) (e : Tick), s.vclock = (s.chan c).baseTime + e →
    exec (.elapsed c.val) s = .next { s with result := .tick e, events := [] }

/-! ### Programming the PICs -/

/-- ICW1 clears every field of the PIC but ELCR, ICW3 and the level-triggered requests, stores its three bits,
starts the sequence, and then the cascade is updated (R257). -/
def Obligations.InitializationCommand : Prop :=
  ∀ (p : PicId) (ltim adi sngl ic4 : Bool) (s : State),
    ∃ t, exec (.picIcw1 p ltim adi sngl ic4) s = .next t ∧
      CascadeSettled (s.startOp.setPic p
        { irr := (s.pic p).irr &&& (s.pic p).elcr, imr := 0, isr := 0, elatch := 0, prio := 0, base := 0
          rsel := false, poll := false, smm := false, aeoi := false, rotAeoi := false, sfnm := false
          initState := .icw2, ic4 := ic4, sngl := sngl, ltim := ltim
          icw3 := (s.pic p).icw3, elcr := (s.pic p).elcr }) t

/-- ICW2, ICW3 and ICW4: each stores its bits and moves the sequencer on (R258, R259, R260). That none of them updates
the cascade, on any state, is the model's reading of their pseudocode against R247's prose (log 9). -/
def Obligations.InitializationWords : Prop :=
  ∀ (p : PicId) (v : Byte) (sfnm buf ms aeoi upm : Bool) (s : State),
    exec (.picIcw2 p v) s = .next (s.startOp.setPic p { s.pic p with
      base := v &&& 0xF8
      initState := if (s.pic p).sngl = false then .icw3 else if (s.pic p).ic4 = true then .icw4 else .ready }) ∧
    exec (.picIcw3 p v) s = .next (s.startOp.setPic p { s.pic p with
      icw3 := v, initState := if (s.pic p).ic4 = true then .icw4 else .ready }) ∧
    exec (.picIcw4 p sfnm buf ms aeoi upm) s = .next (s.startOp.setPic p { s.pic p with
      sfnm := sfnm, aeoi := aeoi, initState := .ready })

/-- The whole initialization, as the bytes of a guest: ICW1, ICW2, ICW3 unless SNGL, ICW4 if IC4 (R38, R101, R256
to R260). -/
def Obligations.InitializationSequence : Prop :=
  ∀ (p : PicId) (v1 v2 v3 v4 : Byte) (s : State), v1.getLsbD 4 = true →
    ∃ t, issueSeq ([outReq (cmdPort p) v1, outReq (dataPort p) v2] ++
        (if v1.getLsbD 1 then [] else [outReq (dataPort p) v3]) ++
        (if v1.getLsbD 0 then [outReq (dataPort p) v4] else [])) s = some t ∧
      (t.pic p).initState = .ready ∧ (t.pic p).base = v2 &&& 0xF8 ∧
      (t.pic p).icw3 = (if v1.getLsbD 1 then (s.pic p).icw3 else v3) ∧
      (t.pic p).sfnm = (v1.getLsbD 0 && v4.getLsbD 4) ∧ (t.pic p).aeoi = (v1.getLsbD 0 && v4.getLsbD 1) ∧
      (t.pic p).imr = 0 ∧ (t.pic p).isr = 0 ∧ (t.pic p).prio = 0

/-- OCW1 sets the mask and ELCR.WRITE the trigger modes, without the hardwired bits; neither touches a request, an
in-service bit or an edge latch but through the cascade (R261, R275, R35). -/
def Obligations.MaskAndTriggerWrites : Prop :=
  ∀ (p : PicId) (v : Byte) (s : State),
    (∃ t, exec (.picOcw1 p v) s = .next t ∧
      CascadeSettled (s.startOp.setPic p { s.pic p with imr := v }) t) ∧
    (∃ t, exec (.elcrWrite p v) s = .next t ∧
      CascadeSettled (s.startOp.setPic p { s.pic p with
        elcr := v &&& (match p with
          | .master => 0xF8
          | .slave => 0xDE) }) t)

/-- OCW3 and the rotate-in-AEOI commands set the mode bits they name, and OCW2's no operation none (R271, R263,
R267, R265). -/
def Obligations.ModeCommands : Prop :=
  ∀ (p : PicId) (esmm smm poll rr ris : Bool) (s : State),
    (∃ t, exec (.picOcw3 p esmm smm poll rr ris) s = .next t ∧
      CascadeSettled (s.startOp.setPic p { s.pic p with
        poll := poll || (s.pic p).poll
        rsel := if rr = true then ris else (s.pic p).rsel
        smm := if esmm = true then smm else (s.pic p).smm }) t) ∧
    (∃ t, exec (.picRotAeoiClr p) s = .next t ∧
      CascadeSettled (s.startOp.setPic p { s.pic p with rotAeoi := false }) t) ∧
    (∃ t, exec (.picRotAeoiSet p) s = .next t ∧
      CascadeSettled (s.startOp.setPic p { s.pic p with rotAeoi := true }) t) ∧
    (∃ t, exec (.picNop p) s = .next t ∧ CascadeSettled s.startOp t)

/-- The non-specific EOIs clear the in-service input of highest priority, and the rotating one makes it the lowest;
with nothing in service neither does anything (R262, R264, R268). -/
def Obligations.NonSpecificEoi : Prop :=
  ∀ (p : PicId) (s : State),
    (∃ t, exec (.picNseoi p) s = .next t ∧
      (((s.pic p).isr = 0 ∧ CascadeSettled s.startOp t) ∨
        ∃ i, IsHighest (s.pic p).prio (s.pic p).isr i ∧
          CascadeSettled (s.startOp.setPic p { s.pic p with isr := clearBit (s.pic p).isr i }) t)) ∧
    (∃ t, exec (.picRotNseoi p) s = .next t ∧
      (((s.pic p).isr = 0 ∧ CascadeSettled s.startOp t) ∨
        ∃ i q, IsHighest (s.pic p).prio (s.pic p).isr i ∧ rank q i = 7 ∧
          CascadeSettled (s.startOp.setPic p { s.pic p with isr := clearBit (s.pic p).isr i, prio := q }) t))

/-- The specific EOI clears input L's in-service bit, SETPRIO makes L the lowest priority, and the rotating EOI does
both (R266, R269, R270). -/
def Obligations.SpecificEoiAndPriority : Prop :=
  ∀ (p : PicId) (l : Input) (s : State),
    (∃ t, exec (.picSeoi p l) s = .next t ∧
      CascadeSettled (s.startOp.setPic p { s.pic p with isr := clearBit (s.pic p).isr l }) t) ∧
    (∃ t q, exec (.picSetPrio p l) s = .next t ∧ rank q l = 7 ∧
      CascadeSettled (s.startOp.setPic p { s.pic p with prio := q }) t) ∧
    (∃ t q, exec (.picRotSeoi p l) s = .next t ∧ rank q l = 7 ∧
      CascadeSettled (s.startOp.setPic p { s.pic p with isr := clearBit (s.pic p).isr l, prio := q }) t)

/-- The reads of the PIC ports and of the ELCR return their register and change nothing (R273, R274, R276). -/
def Obligations.PicReads : Prop :=
  ∀ (p : PicId) (s : State),
    exec (.picReadCmd p) s = .next { s with
      result := .byte (if (s.pic p).rsel = true then (s.pic p).isr else (s.pic p).irr), events := [] } ∧
    exec (.picReadData p) s = .next { s with result := .byte (s.pic p).imr, events := [] } ∧
    exec (.elcrRead p) s = .next { s with result := .byte (s.pic p).elcr, events := [] }

/-! ### Requests and acknowledges -/

/-- RAISE and LOWER of line L at its PIC input: an edge-triggered input latches a request on a rise only and keeps
it on a fall, a level-triggered one follows the level, whatever the mask (R240 to R243, R248, R249). -/
def Obligations.RaiseAndLower : Prop :=
  ∀ (p : PicId) (j : Input) (s : State),
    (∃ t, exec (.raise (irqOf p j).val) s = .next t ∧
      CascadeSettled (s.startOp.setPic p { s.pic p with
        irr := if hasBit (s.pic p).elcr j = false ∧ hasBit (s.pic p).elatch j = true then (s.pic p).irr
          else setBit (s.pic p).irr j
        elatch := setBit (s.pic p).elatch j }) t) ∧
    (∃ t, exec (.lower (irqOf p j).val) s = .next t ∧
      CascadeSettled (s.startOp.setPic p { s.pic p with
        irr := if hasBit (s.pic p).elcr j = true then clearBit (s.pic p).irr j else (s.pic p).irr
        elatch := clearBit (s.pic p).elatch j }) t)

/-- IS_PENDING answers whether some master input would be acknowledged now, and changes nothing (R250, R245). -/
def Obligations.IsPendingAnswers : Prop :=
  ∀ s : State, ∃ b, exec .isPending s = .next { s with result := .bit b, events := [] } ∧
    (b = true ↔ ∃ i, Eligible s .master i)

/-- With nothing eligible on the master, INTA returns none and changes nothing (R254 (a)). -/
def Obligations.IntaNothing : Prop :=
  ∀ s : State, (∀ i, ¬Eligible s .master i) →
    exec .inta s = .next { s with result := .irq none, events := [] }

/-- INTA of a master line other than 0, line 2 among them when the slave has nothing: in service, request consumed,
the scheduler's drive released, vector `base | i`, one ACK; the slave is not touched (R252, R251, R213, R254). -/
def Obligations.IntaMasterLine : Prop :=
  ∀ (s : State) (i : Input), Eligible s .master i → i ≠ 0 →
    (i = Config.cascadeIn → ∀ j, ¬Eligible s .slave j) →
    ∃ t, exec .inta s = .next t ∧ CascadeSettled
      { s with
        master := taken s.master i (s.drives (irqOf .master i))
        drive := s.drive.set (irqOf .master i).val false
        result := .irq (some (irqOf .master i, s.master.base ||| BitVec.ofNat 8 i.val))
        events := [.ack (irqOf .master i)] } t

/-- INTA of a slave line: both PICs put their input in service, the slave gives the vector, and ACK carries the
slave's line (R252, R253, R213). -/
def Obligations.IntaSlaveLine : Prop :=
  ∀ (s : State) (j : Input), Eligible s .master Config.cascadeIn → Eligible s .slave j →
    hasBit s.master.elatch Config.cascadeIn = s.slaveOut →
    ∃ t, exec .inta s = .next t ∧ CascadeSettled
      { s with
        master := taken s.master Config.cascadeIn false
        slave := taken s.slave j (s.drives (irqOf .slave j))
        drive := s.drive.set (irqOf .slave j).val false
        result := .irq (some (irqOf .slave j, s.slave.base ||| BitVec.ofNat 8 j.val))
        events := [.ack (irqOf .slave j)] } t

/-- The acknowledge of line 0, by INTA or by a poll of the master, re-arms IRQ0 by channel 0's reload from its due
time and runs one pass, which keeps and adds cascade requests as `Activated` says (R210, R247); an expired channel 0
leaves the due time (R214, R204, R252, R272). -/
def Obligations.TimerAcknowledgeRearms : Prop :=
  ∀ (s : State) (a0 : Bool), Eligible s .master 0 → (∀ n, (s.chan 0).counter = .count n → 1 ≤ n ∧ n ≤ 65536) →
    let before (x : Pic) : State :=
      { s with
        master := taken x 0 (s.drives 0)
        drive := s.drive.set 0 false
        sched := s.sched.set 0 { s.line 0 with nextDue := rearmed (s.line 0).nextDue s.vclock (s.chan 0).counter }
        result := .nothing
        events := [] }
    (∃ m t, CascadeSettled (before s.master) m ∧ Activated m t ∧
      exec .inta s = .next { t with
        result := .irq (some (0, s.master.base)), events := t.events ++ [.ack 0] }) ∧
    (∃ m t, CascadeSettled (before { s.master with poll := false }) m ∧ Activated m t ∧
      exec (.picReadPoll .master a0) s = .next { t with
        result := .byte 0x80, events := t.events ++ [.ack 0] })

/-- A slow host: when the re-armed due time has passed too, the acknowledge delivers it at once, so the next tick is
already requested when INTA returns (R217, R207). -/
def Obligations.TimerCatchesUp : Prop :=
  ∀ (s : State) (n d : Nat), s.Inv → Eligible s .master 0 → s.drives 0 = true → (s.chan 0).counter = .count n →
    (s.line 0).nextDue = some d → (s.line 0).lastHonored = some d → d + n ≤ s.vclock →
    ∃ t, exec .inta s = .next t ∧ (t.line 0).nextDue = some (d + n) ∧ (t.line 0).lastHonored = some (d + n) ∧
      t.drives 0 = true ∧ hasBit t.master.irr 0 = true

/-- A poll read of P with an eligible input, line 0 apart: in service on P only, the poll word `0x80 | i`, and ACK
unless the master took its cascade input for a slave request (R272, R212). -/
def Obligations.PollAcknowledges : Prop :=
  ∀ (s : State) (p : PicId) (i : Input) (a0 : Bool), Eligible s p i → irqOf p i ≠ 0 →
    hasBit s.master.elatch Config.cascadeIn = s.slaveOut →
    let x : Pic := { s.pic p with poll := false }
    ((p = .master ∧ i = Config.cascadeIn ∧ ∃ j, Eligible s .slave j) →
      ∃ t, exec (.picReadPoll p a0) s = .next t ∧ CascadeSettled
        { s.setPic p (taken x i false) with result := .byte (0x80 ||| BitVec.ofNat 8 i.val), events := [] } t) ∧
    (¬(p = .master ∧ i = Config.cascadeIn ∧ ∃ j, Eligible s .slave j) →
      ∃ t, exec (.picReadPoll p a0) s = .next t ∧ CascadeSettled
        { s.setPic p (taken x i (s.drives (irqOf p i))) with
          drive := s.drive.set (irqOf p i).val false
          result := .byte (0x80 ||| BitVec.ofNat 8 i.val)
          events := [.ack (irqOf p i)] } t)

/-- A poll read with nothing eligible clears the poll flag and returns bits 7:3 as 0 and bits 2:0 open (R272). The
count of free values that advances is the model's own (log 2), and that the cascade is not updated, on any state, is
the model's reading of R272's pseudocode against R247's prose (log 9). -/
def Obligations.PollNothing : Prop :=
  ∀ (s : State) (p : PicId) (a0 : Bool), (∀ i, ¬Eligible s p i) →
    ∃ b : Byte, b.extractLsb' 3 5 = 0 ∧
      exec (.picReadPoll p a0) s = .next { s.setPic p { s.pic p with poll := false } with
        draws := s.draws + 1, result := .byte b, events := [] }

/-! ### The scheduler and the clock -/

/-- SCHEDULE arms an accepted interval from the previous due time, or from now the first time, leaves a rejected one
alone, and always runs one pass (R203, R204, R205, R207). -/
def Obligations.ScheduleArms : Prop :=
  ∀ (l : Line) (iv : Int) (s : State), ∃ t, exec (.schedule l.val iv) s = .next t ∧
    Activated (s.startOp.setLine l { s.line l with
      nextDue := if 0 < iv ∧ iv < 0x3fffffff then some ((s.line l).nextDue.getD s.vclock + iv.toNat)
        else (s.line l).nextDue }) t

/-- ADVANCE: the time update, the livelock check, one pass (R120, R125). -/
def Obligations.AdvanceDrives : Prop :=
  ∀ (x : HostTick) (guestIf : Bool) (s : State), ∃ t, exec (.advance x guestIf) s = .next t ∧
    Activated
      { s with
        vclock := s.vclock + sampleDelta s.hostPrev x
        hostPrev := some x
        ifOffCount := if guestIf = true ∨ Config.ifStuckLimit < s.ifOffCount + 1 then 0 else s.ifOffCount + 1
        result := .nothing
        events := if guestIf = false ∧ Config.ifStuckLimit < s.ifOffCount + 1
          then [.forceIf, .diag .livelockBroken] else [] } t

/-- FORCE_IF comes on the (k+1)-th consecutive ADVANCE with the flag clear, k the limit, and not before (R126). -/
def Obligations.LivelockBreakerPeriod : Prop :=
  ∀ (s : State) (samples : List HostTick) (x : HostTick), s.ifOffCount = 0 →
    samples.length ≤ Config.ifStuckLimit →
    ∃ u v, execSeq (samples.map (fun y => .advance y false)) s = some u ∧ exec (.advance x false) u = .next v ∧
      (Event.forceIf ∈ v.events ↔ samples.length = Config.ifStuckLimit)

/-- A pass run again at the same time delivers nothing and changes nothing (R218). -/
def Obligations.SecondPassDeliversNothing : Prop :=
  ∀ (x : HostTick) (g₁ g₂ : Bool) (s t : State), exec (.advance x g₁) s = .next t →
    ∃ u, exec (.advance x g₂) t = .next u ∧
      u = { t with ifOffCount := u.ifOffCount, events := u.events } ∧ ∀ l, Event.virq l ∉ u.events

/-- A line re-armed with one interval, by SCHEDULE or, line 0, by its own acknowledges, has due times in arithmetic
progression, whatever runs in between and however late (R206, R214, R219; program P5's timer is line 0 under mode 2). -/
def Obligations.PhaseLock : Prop :=
  ∀ (l : Line) (iv : Int) (ops : List Instr) (s t : State) (d : Tick), 0 < iv → iv < 0x3fffffff →
    (s.line l).nextDue = some d → PhaseKept l iv ops s → execSeq ops s = some t →
    (t.line l).nextDue = some (d + rearmCount l ops s * iv.toNat)

/-- MAY_SLEEP answers 1 exactly when nothing is in service, nothing is pending and the clock has not run too far
ahead, and changes nothing (R216). -/
def Obligations.MaySleepAnswers : Prop :=
  ∀ (vip sigq : Bool) (s : State), ∃ b, exec (.maySleep vip sigq) s = .next { s with result := .bit b, events := [] } ∧
    (b = true ↔ s.master.isr = 0 ∧ s.slave.isr = 0 ∧ vip = false ∧ sigq = false ∧
      (∀ i, ¬Eligible s .master i) ∧ s.vclock ≤ s.watermark + Config.floodThreshold)

/-! ### Reset -/

/-- RESET gives every field its value of R361, arms IRQ0 65536 ticks on, and keeps the fault marks; a cold one gives
the model's initial state but for the marks (R360, R361) and the model's own `draws` and `inbox`. That both kinds take
R361's one table, where R362 lets a model give each kind its own, is the model's choice (log 4), and so are the fields
`draws` (log 2), `inbox` (log 1), `result` and `events` (log 5) and what RESET leaves in them. -/
def Obligations.ResetTable : Prop :=
  ∀ (kind : ResetKind) (s : State),
    let now : Tick := match kind with
      | .cold => 0
      | .soft => s.vclock
    let chan (mode : BitVec 3) (n : Nat) : Channel :=
      { mode := mode, rw := .word, bcd := false, counter := .count n, outputPin := true, rlatch := none
        slatch := none, rphase := .lo, wphase := .lo, wlatch := 0x00, baseTime := now }
    let pic (base : Byte) : Pic :=
      { irr := 0, imr := 0, isr := 0, elatch := 0, prio := 0, base := base, rsel := false, poll := false
        smm := false, aeoi := false, rotAeoi := false, sfnm := false, initState := .ready, ic4 := false
        sngl := false, ltim := false, icw3 := 0, elcr := 0x00 }
    (kind = .cold → exec (.reset kind) s =
      .next { State.reset with fault := s.fault, draws := s.draws, inbox := s.inbox }) ∧
    exec (.reset kind) s = .next
      { vclock := now, hostPrev := none, ifOffCount := 0, watermark := now, pit0Nominal := 65536, spkr := 0x00
        fault := s.fault, ch := #v[chan 3 65536, chan 2 18, chan 3 65536], master := pic 0x08, slave := pic 0x70
        sched := (Vector.replicate 32 { nextDue := none, lastHonored := none }).set 0
          { nextDue := some (now + 65536), lastHonored := none }
        drive := Vector.replicate 16 false
        draws := s.draws, result := .nothing, events := [], inbox := s.inbox }

end
end

