-- ==== Sys2Proof/Laws/Decode.lean ====
section
/-! SUPPORT. The fields of a bus transaction word built from its parts (30_encoding.md R81), and what the two
requests of R81 decode to. -/

namespace Sys2Proof

/-- Bit i of a bus transaction word: DATA, then PORT, then D (R81). -/
theorem getLsbD_busWord (write : Bool) (port : Port) (data : Byte) (i : Nat) :
    (busWord write port data).getLsbD i =
      if i < 8 then data.getLsbD i else if i < 24 then port.getLsbD (i - 8) else decide (i = 24) && write := by
  have h : (busWord write port data).getLsbD i = (BitVec.ofBool write ++ port ++ data).getLsbD i := rfl
  rw [h, BitVec.getLsbD_append, BitVec.getLsbD_append]
  by_cases h8 : i < 8
  · simp [h8]
  · by_cases h24 : i < 24
    · have : i - 8 < 16 := by omega
      simp [h8, h24, this]
    · have : ¬i - 8 < 16 := by omega
      simp only [h8, h24, this, if_false, BitVec.getLsbD_ofBool]
      congr 1
      rw [decide_eq_decide]
      omega

@[simp] theorem btwPort_busWord (write : Bool) (port : Port) (data : Byte) :
    btwPort (busWord write port data) = port := by
  apply BitVec.eq_of_getLsbD_eq
  intro i hi
  have h : ¬8 + i < 8 := by omega
  have h' : 8 + i < 24 := by omega
  simp [btwPort, hi, getLsbD_busWord, h']

@[simp] theorem btwData_busWord (write : Bool) (port : Port) (data : Byte) :
    btwData (busWord write port data) = data := by
  apply BitVec.eq_of_getLsbD_eq
  intro i hi
  simp [btwData, hi, getLsbD_busWord]

@[simp] theorem btwWrite_busWord (write : Bool) (port : Port) (data : Byte) :
    btwWrite (busWord write port data) = write := by
  rw [btwWrite, getLsbD_busWord]
  simp

/-- A write of a byte to a port decodes as its bus transaction word does. -/
@[simp] theorem decode_outReq (ctx : DecodeCtx) (port : Port) (data : Byte) :
    decode ctx (outReq port data) = decodeBus ctx (busWord true port data) := rfl

/-- A read of a port decodes as its bus transaction word does. -/
@[simp] theorem decode_inReq (ctx : DecodeCtx) (port : Port) :
    decode ctx (inReq port) = decodeBus ctx (busWord false port 0) := rfl

end Sys2Proof
end

