-- ==== Sys2Proof/Laws/State.lean ====
section
/-! SUPPORT. One lemma per field per update of the state, true by rfl, and the lemmas of the accessors over the
updates, so that no proof unfolds a record update. -/

namespace Sys2Proof.Machine

variable (s : State)

/-! ### `startOp` -/

@[simp] theorem State.startOp_vclock : (s.startOp).vclock = s.vclock := rfl
@[simp] theorem State.startOp_hostPrev : (s.startOp).hostPrev = s.hostPrev := rfl
@[simp] theorem State.startOp_ifOffCount : (s.startOp).ifOffCount = s.ifOffCount := rfl
@[simp] theorem State.startOp_watermark : (s.startOp).watermark = s.watermark := rfl
@[simp] theorem State.startOp_pit0Nominal : (s.startOp).pit0Nominal = s.pit0Nominal := rfl
@[simp] theorem State.startOp_spkr : (s.startOp).spkr = s.spkr := rfl
@[simp] theorem State.startOp_fault : (s.startOp).fault = s.fault := rfl
@[simp] theorem State.startOp_ch : (s.startOp).ch = s.ch := rfl
@[simp] theorem State.startOp_master : (s.startOp).master = s.master := rfl
@[simp] theorem State.startOp_slave : (s.startOp).slave = s.slave := rfl
@[simp] theorem State.startOp_sched : (s.startOp).sched = s.sched := rfl
@[simp] theorem State.startOp_drive : (s.startOp).drive = s.drive := rfl
@[simp] theorem State.startOp_draws : (s.startOp).draws = s.draws := rfl
@[simp] theorem State.startOp_result : (s.startOp).result = .nothing := rfl
@[simp] theorem State.startOp_events : (s.startOp).events = [] := rfl
@[simp] theorem State.startOp_inbox : (s.startOp).inbox = s.inbox := rfl

/-! ### `emit` -/

@[simp] theorem State.emit_vclock (e : Event) : (s.emit e).vclock = s.vclock := rfl
@[simp] theorem State.emit_hostPrev (e : Event) : (s.emit e).hostPrev = s.hostPrev := rfl
@[simp] theorem State.emit_ifOffCount (e : Event) : (s.emit e).ifOffCount = s.ifOffCount := rfl
@[simp] theorem State.emit_watermark (e : Event) : (s.emit e).watermark = s.watermark := rfl
@[simp] theorem State.emit_pit0Nominal (e : Event) : (s.emit e).pit0Nominal = s.pit0Nominal := rfl
@[simp] theorem State.emit_spkr (e : Event) : (s.emit e).spkr = s.spkr := rfl
@[simp] theorem State.emit_fault (e : Event) : (s.emit e).fault = s.fault := rfl
@[simp] theorem State.emit_ch (e : Event) : (s.emit e).ch = s.ch := rfl
@[simp] theorem State.emit_master (e : Event) : (s.emit e).master = s.master := rfl
@[simp] theorem State.emit_slave (e : Event) : (s.emit e).slave = s.slave := rfl
@[simp] theorem State.emit_sched (e : Event) : (s.emit e).sched = s.sched := rfl
@[simp] theorem State.emit_drive (e : Event) : (s.emit e).drive = s.drive := rfl
@[simp] theorem State.emit_draws (e : Event) : (s.emit e).draws = s.draws := rfl
@[simp] theorem State.emit_result (e : Event) : (s.emit e).result = s.result := rfl
@[simp] theorem State.emit_events (e : Event) : (s.emit e).events = s.events ++ [e] := rfl
@[simp] theorem State.emit_inbox (e : Event) : (s.emit e).inbox = s.inbox := rfl

/-! ### `answer` -/

@[simp] theorem State.answer_vclock (r : Result) : (s.answer r).vclock = s.vclock := rfl
@[simp] theorem State.answer_hostPrev (r : Result) : (s.answer r).hostPrev = s.hostPrev := rfl
@[simp] theorem State.answer_ifOffCount (r : Result) : (s.answer r).ifOffCount = s.ifOffCount := rfl
@[simp] theorem State.answer_watermark (r : Result) : (s.answer r).watermark = s.watermark := rfl
@[simp] theorem State.answer_pit0Nominal (r : Result) : (s.answer r).pit0Nominal = s.pit0Nominal := rfl
@[simp] theorem State.answer_spkr (r : Result) : (s.answer r).spkr = s.spkr := rfl
@[simp] theorem State.answer_fault (r : Result) : (s.answer r).fault = s.fault := rfl
@[simp] theorem State.answer_ch (r : Result) : (s.answer r).ch = s.ch := rfl
@[simp] theorem State.answer_master (r : Result) : (s.answer r).master = s.master := rfl
@[simp] theorem State.answer_slave (r : Result) : (s.answer r).slave = s.slave := rfl
@[simp] theorem State.answer_sched (r : Result) : (s.answer r).sched = s.sched := rfl
@[simp] theorem State.answer_drive (r : Result) : (s.answer r).drive = s.drive := rfl
@[simp] theorem State.answer_draws (r : Result) : (s.answer r).draws = s.draws := rfl
@[simp] theorem State.answer_result (r : Result) : (s.answer r).result = r := rfl
@[simp] theorem State.answer_events (r : Result) : (s.answer r).events = s.events := rfl
@[simp] theorem State.answer_inbox (r : Result) : (s.answer r).inbox = s.inbox := rfl

/-! ### `raiseFault` -/

@[simp] theorem State.raiseFault_vclock (f : Fault) : (s.raiseFault f).vclock = s.vclock := rfl
@[simp] theorem State.raiseFault_hostPrev (f : Fault) : (s.raiseFault f).hostPrev = s.hostPrev := rfl
@[simp] theorem State.raiseFault_ifOffCount (f : Fault) : (s.raiseFault f).ifOffCount = s.ifOffCount := rfl
@[simp] theorem State.raiseFault_watermark (f : Fault) : (s.raiseFault f).watermark = s.watermark := rfl
@[simp] theorem State.raiseFault_pit0Nominal (f : Fault) : (s.raiseFault f).pit0Nominal = s.pit0Nominal := rfl
@[simp] theorem State.raiseFault_spkr (f : Fault) : (s.raiseFault f).spkr = s.spkr := rfl
@[simp] theorem State.raiseFault_fault (f : Fault) : (s.raiseFault f).fault = insertFault f s.fault := rfl
@[simp] theorem State.raiseFault_ch (f : Fault) : (s.raiseFault f).ch = s.ch := rfl
@[simp] theorem State.raiseFault_master (f : Fault) : (s.raiseFault f).master = s.master := rfl
@[simp] theorem State.raiseFault_slave (f : Fault) : (s.raiseFault f).slave = s.slave := rfl
@[simp] theorem State.raiseFault_sched (f : Fault) : (s.raiseFault f).sched = s.sched := rfl
@[simp] theorem State.raiseFault_drive (f : Fault) : (s.raiseFault f).drive = s.drive := rfl
@[simp] theorem State.raiseFault_draws (f : Fault) : (s.raiseFault f).draws = s.draws := rfl
@[simp] theorem State.raiseFault_result (f : Fault) : (s.raiseFault f).result = s.result := rfl
@[simp] theorem State.raiseFault_events (f : Fault) : (s.raiseFault f).events = s.events := rfl
@[simp] theorem State.raiseFault_inbox (f : Fault) : (s.raiseFault f).inbox = s.inbox := rfl

/-! ### `drawn` -/

@[simp] theorem State.drawn_vclock : (s.drawn).vclock = s.vclock := rfl
@[simp] theorem State.drawn_hostPrev : (s.drawn).hostPrev = s.hostPrev := rfl
@[simp] theorem State.drawn_ifOffCount : (s.drawn).ifOffCount = s.ifOffCount := rfl
@[simp] theorem State.drawn_watermark : (s.drawn).watermark = s.watermark := rfl
@[simp] theorem State.drawn_pit0Nominal : (s.drawn).pit0Nominal = s.pit0Nominal := rfl
@[simp] theorem State.drawn_spkr : (s.drawn).spkr = s.spkr := rfl
@[simp] theorem State.drawn_fault : (s.drawn).fault = s.fault := rfl
@[simp] theorem State.drawn_ch : (s.drawn).ch = s.ch := rfl
@[simp] theorem State.drawn_master : (s.drawn).master = s.master := rfl
@[simp] theorem State.drawn_slave : (s.drawn).slave = s.slave := rfl
@[simp] theorem State.drawn_sched : (s.drawn).sched = s.sched := rfl
@[simp] theorem State.drawn_drive : (s.drawn).drive = s.drive := rfl
@[simp] theorem State.drawn_draws : (s.drawn).draws = s.draws + 1 := rfl
@[simp] theorem State.drawn_result : (s.drawn).result = s.result := rfl
@[simp] theorem State.drawn_events : (s.drawn).events = s.events := rfl
@[simp] theorem State.drawn_inbox : (s.drawn).inbox = s.inbox := rfl

/-! ### `setChan` -/

@[simp] theorem State.setChan_vclock (c : Chan) (x : Channel) : (s.setChan c x).vclock = s.vclock := rfl
@[simp] theorem State.setChan_hostPrev (c : Chan) (x : Channel) : (s.setChan c x).hostPrev = s.hostPrev := rfl
@[simp] theorem State.setChan_ifOffCount (c : Chan) (x : Channel) : (s.setChan c x).ifOffCount = s.ifOffCount := rfl
@[simp] theorem State.setChan_watermark (c : Chan) (x : Channel) : (s.setChan c x).watermark = s.watermark := rfl
@[simp] theorem State.setChan_pit0Nominal (c : Chan) (x : Channel) : (s.setChan c x).pit0Nominal = s.pit0Nominal := rfl
@[simp] theorem State.setChan_spkr (c : Chan) (x : Channel) : (s.setChan c x).spkr = s.spkr := rfl
@[simp] theorem State.setChan_fault (c : Chan) (x : Channel) : (s.setChan c x).fault = s.fault := rfl
@[simp] theorem State.setChan_ch (c : Chan) (x : Channel) : (s.setChan c x).ch = s.ch.set c.val x := rfl
@[simp] theorem State.setChan_master (c : Chan) (x : Channel) : (s.setChan c x).master = s.master := rfl
@[simp] theorem State.setChan_slave (c : Chan) (x : Channel) : (s.setChan c x).slave = s.slave := rfl
@[simp] theorem State.setChan_sched (c : Chan) (x : Channel) : (s.setChan c x).sched = s.sched := rfl
@[simp] theorem State.setChan_drive (c : Chan) (x : Channel) : (s.setChan c x).drive = s.drive := rfl
@[simp] theorem State.setChan_draws (c : Chan) (x : Channel) : (s.setChan c x).draws = s.draws := rfl
@[simp] theorem State.setChan_result (c : Chan) (x : Channel) : (s.setChan c x).result = s.result := rfl
@[simp] theorem State.setChan_events (c : Chan) (x : Channel) : (s.setChan c x).events = s.events := rfl
@[simp] theorem State.setChan_inbox (c : Chan) (x : Channel) : (s.setChan c x).inbox = s.inbox := rfl

/-! ### `setPic` -/

@[simp] theorem State.setPic_vclock (p : PicId) (x : Pic) : (s.setPic p x).vclock = s.vclock := rfl
@[simp] theorem State.setPic_hostPrev (p : PicId) (x : Pic) : (s.setPic p x).hostPrev = s.hostPrev := rfl
@[simp] theorem State.setPic_ifOffCount (p : PicId) (x : Pic) : (s.setPic p x).ifOffCount = s.ifOffCount := rfl
@[simp] theorem State.setPic_watermark (p : PicId) (x : Pic) : (s.setPic p x).watermark = s.watermark := rfl
@[simp] theorem State.setPic_pit0Nominal (p : PicId) (x : Pic) : (s.setPic p x).pit0Nominal = s.pit0Nominal := rfl
@[simp] theorem State.setPic_spkr (p : PicId) (x : Pic) : (s.setPic p x).spkr = s.spkr := rfl
@[simp] theorem State.setPic_fault (p : PicId) (x : Pic) : (s.setPic p x).fault = s.fault := rfl
@[simp] theorem State.setPic_ch (p : PicId) (x : Pic) : (s.setPic p x).ch = s.ch := rfl
@[simp] theorem State.setPic_sched (p : PicId) (x : Pic) : (s.setPic p x).sched = s.sched := rfl
@[simp] theorem State.setPic_drive (p : PicId) (x : Pic) : (s.setPic p x).drive = s.drive := rfl
@[simp] theorem State.setPic_draws (p : PicId) (x : Pic) : (s.setPic p x).draws = s.draws := rfl
@[simp] theorem State.setPic_result (p : PicId) (x : Pic) : (s.setPic p x).result = s.result := rfl
@[simp] theorem State.setPic_events (p : PicId) (x : Pic) : (s.setPic p x).events = s.events := rfl
@[simp] theorem State.setPic_inbox (p : PicId) (x : Pic) : (s.setPic p x).inbox = s.inbox := rfl

/-! ### `setLine` -/

@[simp] theorem State.setLine_vclock (l : Line) (x : SchedLine) : (s.setLine l x).vclock = s.vclock := rfl
@[simp] theorem State.setLine_hostPrev (l : Line) (x : SchedLine) : (s.setLine l x).hostPrev = s.hostPrev := rfl
@[simp] theorem State.setLine_ifOffCount (l : Line) (x : SchedLine) : (s.setLine l x).ifOffCount = s.ifOffCount := rfl
@[simp] theorem State.setLine_watermark (l : Line) (x : SchedLine) : (s.setLine l x).watermark = s.watermark := rfl
@[simp] theorem State.setLine_pit0Nominal (l : Line) (x : SchedLine) : (s.setLine l x).pit0Nominal = s.pit0Nominal := rfl
@[simp] theorem State.setLine_spkr (l : Line) (x : SchedLine) : (s.setLine l x).spkr = s.spkr := rfl
@[simp] theorem State.setLine_fault (l : Line) (x : SchedLine) : (s.setLine l x).fault = s.fault := rfl
@[simp] theorem State.setLine_ch (l : Line) (x : SchedLine) : (s.setLine l x).ch = s.ch := rfl
@[simp] theorem State.setLine_master (l : Line) (x : SchedLine) : (s.setLine l x).master = s.master := rfl
@[simp] theorem State.setLine_slave (l : Line) (x : SchedLine) : (s.setLine l x).slave = s.slave := rfl
@[simp] theorem State.setLine_sched (l : Line) (x : SchedLine) : (s.setLine l x).sched = s.sched.set l.val x := rfl
@[simp] theorem State.setLine_drive (l : Line) (x : SchedLine) : (s.setLine l x).drive = s.drive := rfl
@[simp] theorem State.setLine_draws (l : Line) (x : SchedLine) : (s.setLine l x).draws = s.draws := rfl
@[simp] theorem State.setLine_result (l : Line) (x : SchedLine) : (s.setLine l x).result = s.result := rfl
@[simp] theorem State.setLine_events (l : Line) (x : SchedLine) : (s.setLine l x).events = s.events := rfl
@[simp] theorem State.setLine_inbox (l : Line) (x : SchedLine) : (s.setLine l x).inbox = s.inbox := rfl

/-! ### `setDrive` -/

@[simp] theorem State.setDrive_vclock (l : Irq) (b : Bool) : (s.setDrive l b).vclock = s.vclock := rfl
@[simp] theorem State.setDrive_hostPrev (l : Irq) (b : Bool) : (s.setDrive l b).hostPrev = s.hostPrev := rfl
@[simp] theorem State.setDrive_ifOffCount (l : Irq) (b : Bool) : (s.setDrive l b).ifOffCount = s.ifOffCount := rfl
@[simp] theorem State.setDrive_watermark (l : Irq) (b : Bool) : (s.setDrive l b).watermark = s.watermark := rfl
@[simp] theorem State.setDrive_pit0Nominal (l : Irq) (b : Bool) : (s.setDrive l b).pit0Nominal = s.pit0Nominal := rfl
@[simp] theorem State.setDrive_spkr (l : Irq) (b : Bool) : (s.setDrive l b).spkr = s.spkr := rfl
@[simp] theorem State.setDrive_fault (l : Irq) (b : Bool) : (s.setDrive l b).fault = s.fault := rfl
@[simp] theorem State.setDrive_ch (l : Irq) (b : Bool) : (s.setDrive l b).ch = s.ch := rfl
@[simp] theorem State.setDrive_master (l : Irq) (b : Bool) : (s.setDrive l b).master = s.master := rfl
@[simp] theorem State.setDrive_slave (l : Irq) (b : Bool) : (s.setDrive l b).slave = s.slave := rfl
@[simp] theorem State.setDrive_sched (l : Irq) (b : Bool) : (s.setDrive l b).sched = s.sched := rfl
@[simp] theorem State.setDrive_drive (l : Irq) (b : Bool) : (s.setDrive l b).drive = s.drive.set l.val b := rfl
@[simp] theorem State.setDrive_draws (l : Irq) (b : Bool) : (s.setDrive l b).draws = s.draws := rfl
@[simp] theorem State.setDrive_result (l : Irq) (b : Bool) : (s.setDrive l b).result = s.result := rfl
@[simp] theorem State.setDrive_events (l : Irq) (b : Bool) : (s.setDrive l b).events = s.events := rfl
@[simp] theorem State.setDrive_inbox (l : Irq) (b : Bool) : (s.setDrive l b).inbox = s.inbox := rfl

/-! ### `update` -/

@[simp] theorem State.update_vclock : (s.update).vclock = s.vclock := rfl
@[simp] theorem State.update_hostPrev : (s.update).hostPrev = s.hostPrev := rfl
@[simp] theorem State.update_ifOffCount : (s.update).ifOffCount = s.ifOffCount := rfl
@[simp] theorem State.update_watermark : (s.update).watermark = s.watermark := rfl
@[simp] theorem State.update_pit0Nominal : (s.update).pit0Nominal = s.pit0Nominal := rfl
@[simp] theorem State.update_spkr : (s.update).spkr = s.spkr := rfl
@[simp] theorem State.update_fault : (s.update).fault = s.fault := rfl
@[simp] theorem State.update_ch : (s.update).ch = s.ch := rfl
@[simp] theorem State.update_master : (s.update).master = s.master.driveIn Config.cascadeIn s.slaveOut := rfl
@[simp] theorem State.update_slave : (s.update).slave = s.slave := rfl
@[simp] theorem State.update_sched : (s.update).sched = s.sched := rfl
@[simp] theorem State.update_drive : (s.update).drive = s.drive := rfl
@[simp] theorem State.update_draws : (s.update).draws = s.draws := rfl
@[simp] theorem State.update_result : (s.update).result = s.result := rfl
@[simp] theorem State.update_events : (s.update).events = s.events := rfl
@[simp] theorem State.update_inbox : (s.update).inbox = s.inbox := rfl

/-! ### `withNextRequest` -/

@[simp] theorem State.withNextRequest_vclock (r : Request) : (s.withNextRequest r).vclock = s.vclock := rfl
@[simp] theorem State.withNextRequest_hostPrev (r : Request) : (s.withNextRequest r).hostPrev = s.hostPrev := rfl
@[simp] theorem State.withNextRequest_ifOffCount (r : Request) : (s.withNextRequest r).ifOffCount = s.ifOffCount := rfl
@[simp] theorem State.withNextRequest_watermark (r : Request) : (s.withNextRequest r).watermark = s.watermark := rfl
@[simp] theorem State.withNextRequest_pit0Nominal (r : Request) : (s.withNextRequest r).pit0Nominal = s.pit0Nominal := rfl
@[simp] theorem State.withNextRequest_spkr (r : Request) : (s.withNextRequest r).spkr = s.spkr := rfl
@[simp] theorem State.withNextRequest_fault (r : Request) : (s.withNextRequest r).fault = s.fault := rfl
@[simp] theorem State.withNextRequest_ch (r : Request) : (s.withNextRequest r).ch = s.ch := rfl
@[simp] theorem State.withNextRequest_master (r : Request) : (s.withNextRequest r).master = s.master := rfl
@[simp] theorem State.withNextRequest_slave (r : Request) : (s.withNextRequest r).slave = s.slave := rfl
@[simp] theorem State.withNextRequest_sched (r : Request) : (s.withNextRequest r).sched = s.sched := rfl
@[simp] theorem State.withNextRequest_drive (r : Request) : (s.withNextRequest r).drive = s.drive := rfl
@[simp] theorem State.withNextRequest_draws (r : Request) : (s.withNextRequest r).draws = s.draws := rfl
@[simp] theorem State.withNextRequest_result (r : Request) : (s.withNextRequest r).result = s.result := rfl
@[simp] theorem State.withNextRequest_events (r : Request) : (s.withNextRequest r).events = s.events := rfl
@[simp] theorem State.withNextRequest_inbox (r : Request) : (s.withNextRequest r).inbox = r :: s.inbox := rfl

/-! ### Accessors over updates -/

@[simp] theorem State.setPic_master_master (x : Pic) : (s.setPic .master x).master = x := rfl
@[simp] theorem State.setPic_master_slave (x : Pic) : (s.setPic .master x).slave = s.slave := rfl
@[simp] theorem State.setPic_slave_master (x : Pic) : (s.setPic .slave x).master = s.master := rfl
@[simp] theorem State.setPic_slave_slave (x : Pic) : (s.setPic .slave x).slave = x := rfl
@[simp] theorem State.pic_master : s.pic .master = s.master := rfl
@[simp] theorem State.pic_slave : s.pic .slave = s.slave := rfl

@[simp] theorem State.setPic_pic_self (p : PicId) (x : Pic) : (s.setPic p x).pic p = x := by
  cases p <;> rfl

theorem State.setPic_pic_other {p q : PicId} (h : q ≠ p) (x : Pic) : (s.setPic p x).pic q = s.pic q := by
  cases p <;> cases q <;> first | rfl | exact absurd rfl h

@[simp] theorem State.setChan_chan_self (c : Chan) (x : Channel) : (s.setChan c x).chan c = x := by
  simp [State.chan, State.setChan]

theorem State.setChan_chan_other {c d : Chan} (h : d ≠ c) (x : Channel) : (s.setChan c x).chan d = s.chan d := by
  have : c.val ≠ d.val := fun e => h (Fin.ext e.symm)
  simp [State.chan, State.setChan, this]

@[simp] theorem State.setLine_line_self (l : Line) (x : SchedLine) : (s.setLine l x).line l = x := by
  simp [State.line, State.setLine]

theorem State.setLine_line_other {l k : Line} (h : k ≠ l) (x : SchedLine) :
    (s.setLine l x).line k = s.line k := by
  have : l.val ≠ k.val := fun e => h (Fin.ext e.symm)
  simp [State.line, State.setLine, this]

@[simp] theorem State.setDrive_drives_self (l : Irq) (b : Bool) : (s.setDrive l b).drives l = b := by
  simp [State.drives, State.setDrive]

theorem State.setDrive_drives_other {l k : Irq} (h : k ≠ l) (b : Bool) :
    (s.setDrive l b).drives k = s.drives k := by
  have : l.val ≠ k.val := fun e => h (Fin.ext e.symm)
  simp [State.drives, State.setDrive, this]

@[simp] theorem State.startOp_chan (c : Chan) : (s.startOp).chan c = s.chan c := rfl
@[simp] theorem State.startOp_line (l : Line) : (s.startOp).line l = s.line l := rfl
@[simp] theorem State.startOp_drives (l : Irq) : (s.startOp).drives l = s.drives l := rfl
@[simp] theorem State.startOp_pic (p : PicId) : (s.startOp).pic p = s.pic p := by cases p <;> rfl
@[simp] theorem State.emit_chan (e : Event) (c : Chan) : (s.emit e).chan c = s.chan c := rfl
@[simp] theorem State.emit_line (e : Event) (l : Line) : (s.emit e).line l = s.line l := rfl
@[simp] theorem State.emit_drives (e : Event) (l : Irq) : (s.emit e).drives l = s.drives l := rfl
@[simp] theorem State.emit_pic (e : Event) (p : PicId) : (s.emit e).pic p = s.pic p := by cases p <;> rfl
@[simp] theorem State.answer_chan (r : Result) (c : Chan) : (s.answer r).chan c = s.chan c := rfl
@[simp] theorem State.answer_line (r : Result) (l : Line) : (s.answer r).line l = s.line l := rfl
@[simp] theorem State.answer_drives (r : Result) (l : Irq) : (s.answer r).drives l = s.drives l := rfl
@[simp] theorem State.answer_pic (r : Result) (p : PicId) : (s.answer r).pic p = s.pic p := by cases p <;> rfl
@[simp] theorem State.raiseFault_chan (f : Fault) (c : Chan) : (s.raiseFault f).chan c = s.chan c := rfl
@[simp] theorem State.raiseFault_line (f : Fault) (l : Line) : (s.raiseFault f).line l = s.line l := rfl
@[simp] theorem State.raiseFault_drives (f : Fault) (l : Irq) : (s.raiseFault f).drives l = s.drives l := rfl
@[simp] theorem State.raiseFault_pic (f : Fault) (p : PicId) : (s.raiseFault f).pic p = s.pic p := by cases p <;> rfl
@[simp] theorem State.drawn_chan (c : Chan) : (s.drawn).chan c = s.chan c := rfl
@[simp] theorem State.drawn_line (l : Line) : (s.drawn).line l = s.line l := rfl
@[simp] theorem State.drawn_drives (l : Irq) : (s.drawn).drives l = s.drives l := rfl
@[simp] theorem State.drawn_pic (p : PicId) : (s.drawn).pic p = s.pic p := by cases p <;> rfl
@[simp] theorem State.setChan_line (c : Chan) (x : Channel) (l : Line) : (s.setChan c x).line l = s.line l := rfl
@[simp] theorem State.setChan_drives (c : Chan) (x : Channel) (l : Irq) : (s.setChan c x).drives l = s.drives l := rfl
@[simp] theorem State.setChan_pic (c : Chan) (x : Channel) (p : PicId) : (s.setChan c x).pic p = s.pic p := by cases p <;> rfl
@[simp] theorem State.setPic_chan (p : PicId) (x : Pic) (c : Chan) : (s.setPic p x).chan c = s.chan c := rfl
@[simp] theorem State.setPic_line (p : PicId) (x : Pic) (l : Line) : (s.setPic p x).line l = s.line l := rfl
@[simp] theorem State.setPic_drives (p : PicId) (x : Pic) (l : Irq) : (s.setPic p x).drives l = s.drives l := rfl
@[simp] theorem State.setLine_chan (l : Line) (x : SchedLine) (c : Chan) : (s.setLine l x).chan c = s.chan c := rfl
@[simp] theorem State.setLine_drives (l : Line) (x : SchedLine) (k : Irq) : (s.setLine l x).drives k = s.drives k := rfl
@[simp] theorem State.setLine_pic (l : Line) (x : SchedLine) (p : PicId) : (s.setLine l x).pic p = s.pic p := by cases p <;> rfl
@[simp] theorem State.setDrive_chan (l : Irq) (b : Bool) (c : Chan) : (s.setDrive l b).chan c = s.chan c := rfl
@[simp] theorem State.setDrive_line (l : Irq) (b : Bool) (k : Line) : (s.setDrive l b).line k = s.line k := rfl
@[simp] theorem State.setDrive_pic (l : Irq) (b : Bool) (p : PicId) : (s.setDrive l b).pic p = s.pic p := by cases p <;> rfl
@[simp] theorem State.update_chan (c : Chan) : (s.update).chan c = s.chan c := rfl
@[simp] theorem State.update_line (l : Line) : (s.update).line l = s.line l := rfl
@[simp] theorem State.update_drives (l : Irq) : (s.update).drives l = s.drives l := rfl
@[simp] theorem State.withNextRequest_chan (r : Request) (c : Chan) : (s.withNextRequest r).chan c = s.chan c := rfl
@[simp] theorem State.withNextRequest_line (r : Request) (l : Line) : (s.withNextRequest r).line l = s.line l := rfl
@[simp] theorem State.withNextRequest_drives (r : Request) (l : Irq) : (s.withNextRequest r).drives l = s.drives l := rfl
@[simp] theorem State.withNextRequest_pic (r : Request) (p : PicId) : (s.withNextRequest r).pic p = s.pic p := by cases p <;> rfl

end Sys2Proof.Machine
end

