-- ==== Sys2Proof/Laws/Pic.lean ====
section
/-! SUPPORT. Lemmas about the bits of a byte, the priority resolver, the PIC inputs and the cascade. -/

namespace Sys2Proof.Machine

/-! ### Bits -/

@[simp] theorem hasBit_setBit (v : Byte) (i j : Input) : hasBit (setBit v i) j = (hasBit v j || decide (j = i)) := by
  fin_cases i <;> fin_cases j <;> simp [hasBit, setBit, bitOf]

@[simp] theorem hasBit_clearBit (v : Byte) (i j : Input) : hasBit (clearBit v i) j = (hasBit v j && !decide (j = i)) := by
  fin_cases i <;> fin_cases j <;> simp [hasBit, clearBit, bitOf]

/-- What `raise_in` does to the request register (R241): input i alone gains a request, unless its edge is spent. -/
@[simp] theorem hasBit_raiseIn_irr (p : Pic) (i j : Input) : hasBit (p.raiseIn i).irr j =
    (hasBit p.irr j || (decide (j = i) && (hasBit p.elcr i || !hasBit p.elatch i))) := by
  unfold Pic.raiseIn
  cases hasBit p.elcr i <;> cases hasBit p.elatch i <;> simp

@[simp] theorem hasBit_raiseIn_elatch (p : Pic) (i j : Input) :
    hasBit (p.raiseIn i).elatch j = (hasBit p.elatch j || decide (j = i)) := hasBit_setBit _ _ _

@[simp] theorem raiseIn_elcr (p : Pic) (i : Input) : (p.raiseIn i).elcr = p.elcr := rfl

@[simp] theorem hasBit_zero (j : Input) : hasBit 0 j = false := by simp [hasBit]

@[simp] theorem hasBit_and (v w : Byte) (j : Input) : hasBit (v &&& w) j = (hasBit v j && hasBit w j) := by
  simp [hasBit]

@[simp] theorem hasBit_not (v : Byte) (j : Input) : hasBit (~~~v) j = !hasBit v j := by
  simp [hasBit]

theorem byte_eq_of_hasBit {v w : Byte} (h : ∀ j, hasBit v j = hasBit w j) : v = w :=
  BitVec.eq_of_getLsbD_eq fun i hi => h ⟨i, hi⟩

/-! ### Ranks -/

theorem rank_lt (prio i : Input) : rank prio i < 8 := (i - prio).isLt

theorem inputOfRank_rank (prio i : Input) : inputOfRank prio (rank prio i) = i := by
  revert prio i; decide

theorem rank_inputOfRank {k : Nat} (prio : Input) (hk : k < 8) : rank prio (inputOfRank prio k) = k := by
  have : ∀ (p : Input) (k : Fin 8), rank p (inputOfRank p k.val) = k.val := by decide
  exact this prio ⟨k, hk⟩

theorem rank_injective {prio i j : Input} (h : rank prio i = rank prio j) : i = j := by
  rw [← inputOfRank_rank prio i, h, inputOfRank_rank]

/-- "L becomes the lowest priority" (R269): after `prio <- L + 1`, L has rank 7. -/
theorem rank_makeLowest (l : Input) : rank (l + 1) l = 7 := by revert l; decide

/-! ### `prio_of` -/

theorem prioOf_le (prio : Input) (mask : Byte) : prioOf prio mask ≤ 8 := by
  simpa [prioOf] using List.findIdx_le_length (p := fun k => hasBit mask (inputOfRank prio k)) (xs := List.range 8)

/-- No set bit has a rank below `prio_of`. -/
theorem prioOf_le_rank {prio : Input} {mask : Byte} {j : Input} (h : hasBit mask j = true) :
    prioOf prio mask ≤ rank prio j := by
  by_contra hlt
  have hlt : rank prio j < prioOf prio mask := Nat.lt_of_not_le hlt
  have := List.not_of_lt_findIdx (p := fun k => hasBit mask (inputOfRank prio k)) (xs := List.range 8) hlt
  simp [inputOfRank_rank, h] at this

/-- The input of rank `prio_of` is set. -/
theorem hasBit_prioOf {prio : Input} {mask : Byte} (h : prioOf prio mask < 8) :
    hasBit mask (inputOfRank prio (prioOf prio mask)) = true := by
  have hl : (List.range 8).findIdx (fun k => hasBit mask (inputOfRank prio k)) < (List.range 8).length := by
    simpa [prioOf] using h
  simpa [prioOf] using List.findIdx_getElem (w := hl)

/-- `prio_of` is 8 exactly when no bit is set. -/
theorem prioOf_eq_eight {prio : Input} {mask : Byte} : prioOf prio mask = 8 ↔ ∀ j, hasBit mask j = false := by
  constructor
  · intro h j
    by_contra hj
    have := prioOf_le_rank (prio := prio) (by simpa using hj)
    have := rank_lt prio j
    omega
  · intro h
    by_contra hne
    have := hasBit_prioOf (lt_of_le_of_ne (prioOf_le prio mask) hne)
    simp [h] at this

/-- Below 8, `prio_of` is the rank of the highest set input. -/
theorem prioOf_eq_rank {prio : Input} {mask : Byte} {i : Input} :
    IsHighest prio mask i ↔ prioOf prio mask < 8 ∧ i = inputOfRank prio (prioOf prio mask) := by
  constructor
  · rintro ⟨hi, hmin⟩
    have hle := prioOf_le_rank (prio := prio) hi
    have hlt : prioOf prio mask < 8 := lt_of_le_of_lt hle (rank_lt prio i)
    refine ⟨hlt, ?_⟩
    have h2 := hmin _ (hasBit_prioOf hlt)
    rw [rank_inputOfRank prio hlt] at h2
    rw [← le_antisymm h2 hle, inputOfRank_rank]
  · rintro ⟨hlt, rfl⟩
    refine ⟨hasBit_prioOf hlt, fun j hj => ?_⟩
    rw [rank_inputOfRank prio hlt]
    exact prioOf_le_rank hj

/-! ### The resolver (R245) -/

theorem hasBit_blocking (p : Pic) (who : PicId) (j : Input) :
    hasBit (p.blocking who) j = true ↔ p.Blocks who j := by
  unfold Pic.blocking Pic.Blocks
  cases hs : p.smm <;> cases hf : p.sfnm <;> cases who <;> simp [and_assoc]

/-- `resolve(P)` is the highest-priority requested and unmasked input, if it outranks every blocking one. -/
theorem resolve_eq_some (p : Pic) (who : PicId) (i : Input) : p.resolve who = some i ↔
    IsHighest p.prio (p.irr &&& ~~~p.imr) i ∧ ∀ j, p.Blocks who j → rank p.prio i < rank p.prio j := by
  have hblock : (∀ j, p.Blocks who j → rank p.prio i < rank p.prio j) ↔
      rank p.prio i < prioOf p.prio (p.blocking who) := by
    constructor
    · intro h
      by_contra hle
      have hle := not_lt.1 hle
      have h8 := lt_of_le_of_lt hle (rank_lt p.prio i)
      have := h _ ((hasBit_blocking p who _).1 (hasBit_prioOf h8))
      rw [rank_inputOfRank _ h8] at this
      omega
    · intro h j hj
      exact lt_of_lt_of_le h (prioOf_le_rank ((hasBit_blocking p who j).2 hj))
  rw [hblock, prioOf_eq_rank]
  unfold Pic.resolve
  have hle := prioOf_le p.prio (p.irr &&& ~~~p.imr)
  simp only
  split
  · rename_i h8
    rw [h8]; simp
  · rename_i h8
    have hlt := lt_of_le_of_ne hle h8
    split
    · rename_i hb
      constructor
      · intro h
        cases h
        rw [rank_inputOfRank _ hlt]
        exact ⟨⟨hlt, rfl⟩, hb⟩
      · rintro ⟨⟨_, rfl⟩, _⟩; rfl
    · rename_i hb
      constructor
      · intro h; cases h
      · rintro ⟨⟨_, rfl⟩, h⟩
        rw [rank_inputOfRank _ hlt] at h
        exact absurd h hb

theorem resolve_isSome (p : Pic) (who : PicId) : (p.resolve who).isSome = true ↔ ∃ i, p.resolve who = some i :=
  Option.isSome_iff_exists

/-- The resolver reads IRR, IMR, ISR, the rotation pointer and the two mode bits, nothing else. -/
theorem resolve_congr {p q : Pic} (who : PicId) (hirr : p.irr = q.irr) (himr : p.imr = q.imr)
    (hisr : p.isr = q.isr) (hprio : p.prio = q.prio) (hsmm : p.smm = q.smm) (hsfnm : p.sfnm = q.sfnm) :
    p.resolve who = q.resolve who := by
  simp [Pic.resolve, Pic.blocking, hirr, himr, hisr, hprio, hsmm, hsfnm]

/-! ### The cascade (R247) -/

theorem update_settled (s : State) : CascadeSettled s s.update where
  frame := by
    simp only [State.update, Pic.driveIn]
    split <;> rfl
  others := fun j hj => by
    simp only [State.update, Pic.driveIn, Pic.raiseIn, Pic.lowerIn]
    split <;> split <;> simp_all; split <;> simp_all
  latch := by
    simp only [State.update, Pic.driveIn, Pic.raiseIn, Pic.lowerIn]
    split <;> simp_all
  request := by
    simp only [State.update, Pic.driveIn, Pic.raiseIn, Pic.lowerIn]
    split <;> split <;> simp_all; split <;> simp_all

/-- When the edge latch already shows the slave's output, `update()` changes nothing. -/
theorem update_of_settled {s : State} (hedge : hasBit s.master.elcr Config.cascadeIn = false)
    (h : hasBit s.master.elatch Config.cascadeIn = s.slaveOut) : s.update = s := by
  have hs := update_settled s
  have hirr : s.update.master.irr = s.master.irr := by
    refine byte_eq_of_hasBit fun j => ?_
    by_cases hj : j = Config.cascadeIn
    · subst hj; rw [hs.request, hedge, h]; cases s.slaveOut <;> simp
    · exact (hs.others j hj).1
  have hel : s.update.master.elatch = s.master.elatch := by
    refine byte_eq_of_hasBit fun j => ?_
    by_cases hj : j = Config.cascadeIn
    · subst hj; rw [hs.latch, h]
    · exact (hs.others j hj).2
  have := hs.frame
  rw [hirr, hel] at this
  exact this

@[simp] theorem update_slaveOut (s : State) : s.update.slaveOut = s.slaveOut := rfl

@[simp] theorem update_slave_resolve (s : State) : s.update.resolve .slave = s.resolve .slave := rfl

/-! ### The slave's output and what it depends on -/

theorem slaveOut_eq_of_slave {s t : State} (h : t.slave = s.slave) : t.slaveOut = s.slaveOut := by
  simp [State.slaveOut, State.resolve, h]

theorem CascadeSettled.slave_eq {s t : State} (h : CascadeSettled s t) : t.slave = s.slave := by rw [h.frame]

theorem CascadeSettled.slaveOut_eq {s t : State} (h : CascadeSettled s t) : t.slaveOut = s.slaveOut :=
  slaveOut_eq_of_slave h.slave_eq

/-- The cascade settles in one way only. -/
theorem CascadeSettled.unique {s t u : State} (h : CascadeSettled s t) (h' : CascadeSettled s u) : t = u := by
  have hirr : t.master.irr = u.master.irr := byte_eq_of_hasBit fun j => by
    by_cases hj : j = Config.cascadeIn
    · rw [hj, h.request, h'.request]
    · rw [(h.others j hj).1, (h'.others j hj).1]
  have hel : t.master.elatch = u.master.elatch := byte_eq_of_hasBit fun j => by
    by_cases hj : j = Config.cascadeIn
    · rw [hj, h.latch, h'.latch]
    · rw [(h.others j hj).2, (h'.others j hj).2]
  rw [h.frame, h'.frame, hirr, hel]

/-- Withdrawing requests, with all else as it was, never makes a PIC resolve that did not. -/
theorem resolve_isSome_mono {x y : Pic} {who : PicId} (hprio : y.prio = x.prio) (himr : y.imr = x.imr)
    (hisr : y.isr = x.isr) (hsmm : y.smm = x.smm) (hsfnm : y.sfnm = x.sfnm)
    (hirr : ∀ j, hasBit y.irr j = true → hasBit x.irr j = true) (h : (y.resolve who).isSome = true) :
    (x.resolve who).isSome = true := by
  obtain ⟨i, hi⟩ := Option.isSome_iff_exists.1 h
  obtain ⟨⟨h1, -⟩, h3⟩ := (resolve_eq_some _ _ _).1 hi
  have hblocks : ∀ j, x.Blocks who j ↔ y.Blocks who j := fun j => by simp [Pic.Blocks, hisr, hsmm, hsfnm, himr]
  have hx : hasBit (x.irr &&& ~~~x.imr) i = true := by
    rw [hasBit_and, himr, Bool.and_eq_true] at h1
    rw [hasBit_and, hirr i h1.1, h1.2]; rfl
  have h8 : prioOf x.prio (x.irr &&& ~~~x.imr) < 8 := lt_of_le_of_lt (prioOf_le_rank hx) (rank_lt _ _)
  have hhigh := (prioOf_eq_rank (prio := x.prio) (mask := x.irr &&& ~~~x.imr)).2 ⟨h8, rfl⟩
  refine Option.isSome_iff_exists.2 ⟨_, (resolve_eq_some _ _ _).2 ⟨hhigh, fun j hj => ?_⟩⟩
  have := h3 j ((hblocks j).1 hj)
  rw [hprio] at this
  exact lt_of_le_of_lt (hhigh.2 i hx) this

/-- After a settled cascade the latch shows the slave's output. -/
theorem CascadeSettled.settled {s t : State} (h : CascadeSettled s t) :
    hasBit t.master.elatch Config.cascadeIn = t.slaveOut := by rw [h.latch, h.slaveOut_eq]

/-- With requests added and nothing else of the slave changed, its output does not come down. -/
theorem slaveOut_mono {s t : State} (hf : t.slave = { s.slave with irr := t.slave.irr, elatch := t.slave.elatch })
    (hirr : ∀ j, hasBit s.slave.irr j = true → hasBit t.slave.irr j = true) (h : s.slaveOut = true) :
    t.slaveOut = true := by
  refine resolve_isSome_mono (x := t.slave) (y := s.slave) ?_ ?_ ?_ ?_ ?_ hirr h <;> rw [hf]

end Sys2Proof.Machine
end

