-- ==== Sys2Proof/Laws/Sched.lean ====
section
/-! SUPPORT. What raising and lowering a line do, and what one pass of `activate()` does (42_scheduler.md R201):
`activate_activated` is the spec lemma of `State.activate`. -/

namespace Sys2Proof.Machine

/-! ### Lines and inputs (R240) -/

theorem irqOf_eq_iff (p : PicId) (j : Input) (l : Irq) :
    irqOf p j = l ↔ p = picOfIrq l ∧ j = inputOfIrq l := by
  cases p <;> revert j l <;> decide

@[simp] theorem lineOfIrq_val (l : Irq) : (lineOfIrq l).val = l.val := by
  revert l; decide

theorem lineOfIrq_eq_iff (l : Irq) (k : Line) : lineOfIrq l = k ↔ l.val = k.val := by
  rw [Fin.ext_iff, lineOfIrq_val]

/-! ### Raising and lowering a line (R241, R242, R248, R249) -/

theorem setPic_frame (s : State) (p : PicId) (x : Pic) :
    s.setPic p x = { s with master := (s.setPic p x).master, slave := (s.setPic p x).slave } := rfl

/-- The frame of `pic_raise`: request bits and edge latches only. -/
theorem picRaise_frame (s : State) (l : Irq) : s.picRaise l =
    { s with
      master := { s.master with irr := (s.picRaise l).master.irr, elatch := (s.picRaise l).master.elatch }
      slave := { s.slave with irr := (s.picRaise l).slave.irr, elatch := (s.picRaise l).slave.elatch } } := by
  unfold State.picRaise
  generalize hx : s.setPic (picOfIrq l) ((s.pic (picOfIrq l)).raiseIn (inputOfIrq l)) = u
  have hf := (update_settled u).frame
  generalize u.update = v at hf ⊢
  rw [hf, ← hx]
  cases picOfIrq l <;> rfl

/-- The frame of `pic_lower`: request bits and edge latches only. -/
theorem picLower_frame (s : State) (l : Irq) : s.picLower l =
    { s with
      master := { s.master with irr := (s.picLower l).master.irr, elatch := (s.picLower l).master.elatch }
      slave := { s.slave with irr := (s.picLower l).slave.irr, elatch := (s.picLower l).slave.elatch } } := by
  unfold State.picLower
  generalize hx : s.setPic (picOfIrq l) ((s.pic (picOfIrq l)).lowerIn (inputOfIrq l)) = u
  have hf := (update_settled u).frame
  generalize u.update = v at hf ⊢
  rw [hf, ← hx]
  cases picOfIrq l <;> rfl

/-- `update()` leaves every input but the master's cascade input as it was. -/
theorem update_bits (s : State) (p : PicId) (j : Input) (h : ¬(p = .master ∧ j = Config.cascadeIn)) :
    hasBit (s.update.pic p).irr j = hasBit (s.pic p).irr j ∧
    hasBit (s.update.pic p).elatch j = hasBit (s.pic p).elatch j := by
  cases p with
  | master => exact (update_settled s).others j (fun hj => h ⟨rfl, hj⟩)
  | slave => exact ⟨rfl, rfl⟩

theorem picRaise_latch (s : State) (l : Irq) (p : PicId) (j : Input) (h : ¬(p = .master ∧ j = Config.cascadeIn)) :
    hasBit ((s.picRaise l).pic p).elatch j = (hasBit (s.pic p).elatch j || decide (irqOf p j = l)) := by
  unfold State.picRaise
  rw [(update_bits _ p j h).2]
  by_cases hp : p = picOfIrq l
  · subst hp
    simp [irqOf_eq_iff]
  · rw [State.setPic_pic_other _ hp]
    simp [irqOf_eq_iff, hp]

theorem picRaise_request (s : State) (l : Irq) (p : PicId) (j : Input) (h : ¬(p = .master ∧ j = Config.cascadeIn)) :
    hasBit ((s.picRaise l).pic p).irr j = (hasBit (s.pic p).irr j ||
      (decide (irqOf p j = l) && (hasBit (s.pic p).elcr j || !hasBit (s.pic p).elatch j))) := by
  unfold State.picRaise
  rw [(update_bits _ p j h).1]
  by_cases hp : p = picOfIrq l
  · subst hp
    by_cases hj : j = inputOfIrq l <;> simp [irqOf_eq_iff, hj]
  · rw [State.setPic_pic_other _ hp]
    simp [irqOf_eq_iff, hp]

theorem picLower_latch (s : State) (l : Irq) (p : PicId) (j : Input) (h : ¬(p = .master ∧ j = Config.cascadeIn)) :
    hasBit ((s.picLower l).pic p).elatch j = (hasBit (s.pic p).elatch j && !decide (irqOf p j = l)) := by
  unfold State.picLower
  rw [(update_bits _ p j h).2]
  by_cases hp : p = picOfIrq l
  · subst hp
    simp [Pic.lowerIn, irqOf_eq_iff]
  · rw [State.setPic_pic_other _ hp]
    simp [irqOf_eq_iff, hp]

theorem picLower_request (s : State) (l : Irq) (p : PicId) (j : Input) (h : ¬(p = .master ∧ j = Config.cascadeIn)) :
    hasBit ((s.picLower l).pic p).irr j =
      (hasBit (s.pic p).irr j && !(decide (irqOf p j = l) && hasBit (s.pic p).elcr j)) := by
  unfold State.picLower
  rw [(update_bits _ p j h).1]
  by_cases hp : p = picOfIrq l
  · subst hp
    simp only [State.setPic_pic_self, Pic.lowerIn, irqOf_eq_iff, true_and]
    by_cases hj : j = inputOfIrq l
    · subst hj
      split <;> simp_all
    · split <;> simp_all
  · rw [State.setPic_pic_other _ hp]
    simp [irqOf_eq_iff, hp]

theorem picRaise_cascade (s : State) (l : Irq) :
    hasBit (s.picRaise l).master.elatch Config.cascadeIn = (s.picRaise l).slaveOut :=
  (update_settled _).latch

theorem picLower_cascade (s : State) (l : Irq) :
    hasBit (s.picLower l).master.elatch Config.cascadeIn = (s.picLower l).slaveOut :=
  (update_settled _).latch

/-- Raising a line keeps an edge-triggered cascade input's request. -/
theorem picRaise_kept (s : State) (l : Irq) (hedge : hasBit s.master.elcr Config.cascadeIn = false)
    (h : hasBit s.master.irr Config.cascadeIn = true) : hasBit (s.picRaise l).master.irr Config.cascadeIn = true := by
  unfold State.picRaise
  rw [(update_settled _).request]
  cases picOfIrq l <;> simp [hedge, h]

/-- Raising line l requests master input 2 exactly if the slave's output was down, and l is line 2 or the slave's
output comes up. -/
theorem picRaise_cascadeRequest (s : State) (l : Irq) (hedge : hasBit s.master.elcr Config.cascadeIn = false)
    (h : hasBit s.master.elatch Config.cascadeIn = s.slaveOut) :
    hasBit (s.picRaise l).master.irr Config.cascadeIn = (hasBit s.master.irr Config.cascadeIn ||
      ((decide (irqOf .master Config.cascadeIn = l) || (s.picRaise l).slaveOut) && !s.slaveOut)) := by
  have hreq := (update_settled (s.setPic (picOfIrq l) ((s.pic (picOfIrq l)).raiseIn (inputOfIrq l)))).request
  have hout : (s.picRaise l).slaveOut =
      (s.setPic (picOfIrq l) ((s.pic (picOfIrq l)).raiseIn (inputOfIrq l))).slaveOut := rfl
  rw [hout]
  unfold State.picRaise
  rw [hreq]
  cases hp : picOfIrq l with
  | master =>
    have hso : (s.setPic .master ((s.pic .master).raiseIn (inputOfIrq l))).slaveOut = s.slaveOut :=
      slaveOut_eq_of_slave rfl
    rw [hso]
    rw [State.setPic_master_master, raiseIn_elcr, hasBit_raiseIn_irr, hasBit_raiseIn_elatch, State.pic_master]
    by_cases hi : Config.cascadeIn = inputOfIrq l
    · have hedge' : hasBit s.master.elcr (inputOfIrq l) = false := hi ▸ hedge
      have h' : hasBit s.master.elatch (inputOfIrq l) = s.slaveOut := hi ▸ h
      simp only [irqOf_eq_iff, hp, hi, hedge', h']
      cases s.slaveOut <;> simp
    · simp only [irqOf_eq_iff, hp, hi, hedge, h]
      cases s.slaveOut <;> simp
  | slave =>
    simp only [irqOf_eq_iff, hp, State.setPic_slave_master, hedge, h]
    simp

/-! ### One line of a pass -/

/-- The pass over some of the lines: `Activated` restricted to the lines of `ls`, without the watermark. -/
structure PassOver (ls : List Line) (s t : State) : Prop where
  frame : t = { s with
    master := { s.master with irr := t.master.irr, elatch := t.master.elatch }
    slave := { s.slave with irr := t.slave.irr, elatch := t.slave.elatch }
    sched := t.sched, drive := t.drive, events := t.events }
  nextDue : ∀ l, (t.line l).nextDue = (s.line l).nextDue
  honored : ∀ l, (t.line l).lastHonored =
    if l ∈ ls ∧ s.isDue l = true then (s.line l).nextDue else (s.line l).lastHonored
  driven : ∀ l : Irq, t.drives l = (s.drives l || (decide (lineOfIrq l ∈ ls) && s.isDue (lineOfIrq l)))
  events : t.events = s.events ++ ls.filterMap s.passEvent
  idle : (∀ l : Irq, lineOfIrq l ∈ ls → s.isDue (lineOfIrq l) = false) → t.master = s.master ∧ t.slave = s.slave
  request : ∀ p j, ¬(p = .master ∧ j = Config.cascadeIn) →
    hasBit (t.pic p).irr j = (hasBit (s.pic p).irr j || (decide (lineOfIrq (irqOf p j) ∈ ls) && s.inputDue p j
      && (hasBit (s.pic p).elcr j || !hasBit (s.pic p).elatch j)))
  latch : ∀ p j, ¬(p = .master ∧ j = Config.cascadeIn) →
    hasBit (t.pic p).elatch j = (hasBit (s.pic p).elatch j || (decide (lineOfIrq (irqOf p j) ∈ ls) && s.inputDue p j))
  cascade : hasBit s.master.elatch Config.cascadeIn = s.slaveOut →
    hasBit t.master.elatch Config.cascadeIn = t.slaveOut
  kept : hasBit s.master.elcr Config.cascadeIn = false → hasBit s.master.irr Config.cascadeIn = true →
    hasBit t.master.irr Config.cascadeIn = true
  cascadeRequest : hasBit s.master.elcr Config.cascadeIn = false →
    hasBit s.master.elatch Config.cascadeIn = s.slaveOut →
    hasBit t.master.irr Config.cascadeIn = (hasBit s.master.irr Config.cascadeIn ||
      ((decide (lineOfIrq (irqOf .master Config.cascadeIn) ∈ ls) && s.inputDue .master Config.cascadeIn || t.slaveOut)
        && !s.slaveOut))

theorem PassOver.nil (s : State) : PassOver [] s s where
  frame := rfl
  nextDue := fun _ => rfl
  honored := fun _ => by simp
  driven := fun _ => by simp
  events := by simp
  idle := fun _ => ⟨rfl, rfl⟩
  request := fun _ _ _ => by simp
  latch := fun _ _ _ => by simp
  cascade := id
  kept := fun _ h => h
  cascadeRequest := fun _ _ => by simp

theorem deliver_vclock (l : Line) (s : State) : (s.deliver l).vclock = s.vclock := by
  unfold State.deliver
  split
  · rw [picRaise_frame]; rfl
  · rfl

/-- A line that is not due only emits its event. -/
theorem PassOver.of_not_due {s t : State} {l : Line} (h : s.isDue l = false)
    (ht : t = { s with events := s.events ++ (s.passEvent l).toList }) : PassOver [l] s t := by
  have hin : ∀ k : Line, k ∈ [l] → s.isDue k = false := by simpa using h
  subst ht
  refine ⟨rfl, fun _ => rfl, fun k => ?_, fun k => ?_, ?_, fun _ => ⟨rfl, rfl⟩, fun p j _ => ?_, fun p j _ => ?_, id,
    fun _ h => h, fun _ _ => ?_⟩
  · rw [if_neg]
    · rfl
    · rintro ⟨hk, hk'⟩; simp [hin k hk] at hk'
  · by_cases hk : lineOfIrq k ∈ [l] <;> simp [hk, hin] <;> rfl
  · cases hp : s.passEvent l <;> simp [hp]
  · by_cases hk : lineOfIrq (irqOf p j) ∈ [l] <;> simp [State.inputDue, hk, hin] <;> cases p <;> rfl
  · by_cases hk : lineOfIrq (irqOf p j) ∈ [l] <;> simp [State.inputDue, hk, hin] <;> cases p <;> rfl
  · have hout : ({ s with events := s.events ++ (s.passEvent l).toList } : State).slaveOut = s.slaveOut := rfl
    by_cases hk : lineOfIrq (irqOf .master Config.cascadeIn) ∈ [l] <;> simp [State.inputDue, hk, hin, hout]

/-- A due line is delivered: its due time is recorded, and its PIC input is raised or its event emitted. -/
theorem PassOver.of_due {s : State} {l : Line} {d : Tick} (hd : (s.line l).nextDue = some d)
    (h : s.isDue l = true) :
    PassOver [l] s ((s.setLine l { s.line l with lastHonored := some d }).deliver l) := by
  have hle : d ≤ s.vclock := by simp [State.isDue, hd] at h; exact h.1
  have hh : ¬(s.line l).lastHonored = some d := by simp [State.isDue, hd] at h; exact h.2
  have hhon' : s.isHonored l = false := by simp [State.isHonored, hd, hh]
  generalize hu : s.setLine l { s.line l with lastHonored := some d } = u
  have hune : ∀ k, k ≠ l → u.line k = s.line k := fun k hk => by
    rw [← hu, State.setLine_line_other _ hk]
  have hul : u.line l = { s.line l with lastHonored := some d } := by rw [← hu, State.setLine_line_self]
  have hline : ∀ k, (u.line k).nextDue = (s.line k).nextDue := fun k => by
    by_cases hk : k = l
    · rw [hk, hul]
    · rw [hune k hk]
  have hhon : ∀ k, (u.line k).lastHonored =
      if k ∈ [l] ∧ s.isDue k = true then (s.line k).nextDue else (s.line k).lastHonored := fun k => by
    by_cases hk : k = l
    · subst hk; simp [hul, h, hd]
    · simp [hk, hune k hk]
  unfold State.deliver
  split
  · rename_i h16
    have hmem : ∀ k : Irq, (lineOfIrq k ∈ [l]) ↔ k = ⟨l.val, h16⟩ := fun k => by
      rw [List.mem_singleton, lineOfIrq_eq_iff, Fin.ext_iff]
    have hdue : s.isDue (lineOfIrq ⟨l.val, h16⟩) = true := by
      rw [(lineOfIrq_eq_iff _ l).2 rfl, h]
    have hev : s.passEvent l = none := by
      have : ¬ 16 ≤ l.val := by omega
      simp [State.passEvent, hhon', h, this]
    have hfr := picRaise_frame (u.setDrive ⟨l.val, h16⟩ true) ⟨l.val, h16⟩
    have hup : ∀ p, (u.setDrive ⟨l.val, h16⟩ true).pic p = s.pic p := fun p => by
      rw [← hu]; cases p <;> rfl
    refine ⟨?_, fun k => ?_, fun k => ?_, fun k => ?_, ?_, fun hi => ?_, fun p j hpj => ?_, fun p j hpj => ?_,
      fun _ => picRaise_cascade _ _, fun he hr => ?_, fun he hs => ?_⟩
    · generalize State.picRaise _ _ = v at hfr ⊢
      rw [hfr, ← hu]; rfl
    · rw [← hline k, hfr]; rfl
    · rw [← hhon k, hfr]; rfl
    · have hv : (State.picRaise ⟨l.val, h16⟩ (u.setDrive ⟨l.val, h16⟩ true)).drives k
          = (u.setDrive ⟨l.val, h16⟩ true).drives k := by rw [hfr]; rfl
      rw [hv]
      by_cases hk : k = ⟨l.val, h16⟩
      · subst hk; simp [(hmem _).2 rfl, hdue]
      · rw [State.setDrive_drives_other _ hk, ← hu]
        simp only [hmem k, hk, decide_false, Bool.false_and, Bool.or_false]; rfl
    · rw [hfr]; simp [hev, ← hu]
    · have := hi _ ((hmem _).2 rfl)
      rw [hdue] at this
      cases this
    · rw [picRaise_request _ _ p j hpj, hup]
      simp only [hmem, State.inputDue]
      by_cases hk : irqOf p j = ⟨l.val, h16⟩
      · simp [hk, hdue]
      · simp [hk]
    · rw [picRaise_latch _ _ p j hpj, hup]
      simp only [hmem, State.inputDue]
      by_cases hk : irqOf p j = ⟨l.val, h16⟩
      · simp [hk, hdue]
      · simp [hk]
    · have hm : (u.setDrive ⟨l.val, h16⟩ true).master = s.master := hup .master
      exact picRaise_kept _ _ (by rw [hm]; exact he) (by rw [hm]; exact hr)
    · have hm : (u.setDrive ⟨l.val, h16⟩ true).master = s.master := hup .master
      have ho : (u.setDrive ⟨l.val, h16⟩ true).slaveOut = s.slaveOut := slaveOut_eq_of_slave (hup .slave)
      rw [picRaise_cascadeRequest _ _ (by rw [hm]; exact he) (by rw [hm, ho]; exact hs), hm, ho]
      simp only [hmem, State.inputDue]
      by_cases hk : irqOf .master Config.cascadeIn = ⟨l.val, h16⟩
      · simp [hk, hdue]
      · simp [hk]
  · rename_i h16
    have hmem : ∀ k : Irq, lineOfIrq k ∉ [l] := fun k hk => by
      rw [List.mem_singleton, lineOfIrq_eq_iff] at hk
      omega
    have hev : s.passEvent l = some (.virq l) := by
      have : 16 ≤ l.val := by omega
      simp [State.passEvent, hhon', h, this]
    refine ⟨by rw [← hu]; rfl, fun k => hline k, fun k => hhon k, fun k => ?_, ?_, fun _ => ?_, fun p j _ => ?_,
      fun p j _ => ?_, fun hc => ?_, fun _ hr => ?_, fun _ _ => ?_⟩
    · simp [hmem k, ← hu]
    · simp [hev, ← hu]
    · rw [← hu]; exact ⟨rfl, rfl⟩
    · simp [hmem, ← hu]
    · simp [hmem, ← hu]
    · rw [← hu]; exact hc
    · rw [← hu]; exact hr
    · have ho : (u.emit (.virq l)).slaveOut = s.slaveOut := slaveOut_eq_of_slave (by rw [← hu]; rfl)
      rw [ho, ← hu]
      simp [hmem]

/-- What one turn of the loop adds to `first`. -/
def firstAfter (s : State) (f : Option Tick) (l : Line) : Option Tick :=
  if s.isDue l then
    match (s.line l).nextDue with
    | none => f
    | some d => minDue f d
  else f

/-- One turn of the loop is a pass over its line. -/
theorem activateLine_passOver (s : State) (f : Option Tick) (l : Line) :
    PassOver [l] s (activateLine (s, f) l).1 ∧ (activateLine (s, f) l).2 = firstAfter s f l := by
  unfold activateLine
  cases hd : (s.line l).nextDue with
  | none =>
    have h1 : s.isDue l = false := by simp [State.isDue, hd]
    exact ⟨.of_not_due h1 (by simp [State.passEvent, State.isHonored, hd, h1]), by simp [firstAfter, h1]⟩
  | some d =>
    by_cases hle : d ≤ s.vclock
    · by_cases hh : (s.line l).lastHonored = some d
      · have h1 : s.isDue l = false := by simp [State.isDue, hd, hh]
        simp only [if_pos hle, if_pos hh]
        exact ⟨.of_not_due h1 (by simp [State.passEvent, State.isHonored, hd, hh, hle, State.emit]),
          by simp [firstAfter, h1]⟩
      · have h1 : s.isDue l = true := by simp [State.isDue, hd, hh, hle]
        simp only [if_pos hle, if_neg hh]
        exact ⟨.of_due hd h1, by simp [firstAfter, h1, hd]⟩
    · have h1 : s.isDue l = false := by simp [State.isDue, hd, hle]
      simp only [if_neg hle]
      exact ⟨.of_not_due h1 (by simp [State.passEvent, State.isHonored, hd, h1, hle]), by simp [firstAfter, h1]⟩

/-! ### Composing passes -/

section
variable {s t : State} {ls : List Line} (h : PassOver ls s t)
include h

theorem PassOver.vclock : t.vclock = s.vclock := by rw [h.frame]

theorem PassOver.line_eq {k : Line} (hk : k ∉ ls) : t.line k = s.line k := by
  have h1 := h.nextDue k
  have h2 := h.honored k
  rw [if_neg (fun hc => hk hc.1)] at h2
  cases ht : t.line k; cases hs : s.line k
  simp_all

theorem PassOver.isDue_eq {k : Line} (hk : k ∉ ls) : t.isDue k = s.isDue k := by
  simp [State.isDue, h.line_eq hk, h.vclock]

theorem PassOver.isHonored_eq {k : Line} (hk : k ∉ ls) : t.isHonored k = s.isHonored k := by
  simp [State.isHonored, h.line_eq hk, h.vclock]

theorem PassOver.passEvent_eq {k : Line} (hk : k ∉ ls) : t.passEvent k = s.passEvent k := by
  simp [State.passEvent, h.isDue_eq hk, h.isHonored_eq hk]

theorem PassOver.elcr_eq (p : PicId) : (t.pic p).elcr = (s.pic p).elcr := by
  rw [h.frame]; cases p <;> rfl

/-- A pass adds requests to the slave, so the slave's output does not come down. -/
theorem PassOver.slaveOut_mono (ho : s.slaveOut = true) : t.slaveOut = true := by
  refine Machine.slaveOut_mono (by rw [h.frame]) (fun j hj => ?_) ho
  have := h.request .slave j (fun hc => nomatch hc.1)
  rw [State.pic_slave, State.pic_slave, hj, Bool.true_or] at this
  exact this

end

theorem PassOver.cons {s t u : State} {l : Line} {ls : List Line} (hl : l ∉ ls)
    (h1 : PassOver [l] s t) (h2 : PassOver ls t u) : PassOver (l :: ls) s u where
  frame := by
    rw [h2.frame, h1.frame]
  nextDue := fun k => by rw [h2.nextDue, h1.nextDue]
  honored := fun k => by
    rw [h2.honored, h1.nextDue]
    by_cases hk : k = l
    · subst hk
      rw [if_neg (fun hc => hl hc.1), h1.honored]; simp
    · have hk1 : k ∉ [l] := by simpa using hk
      rw [h1.isDue_eq hk1, h1.line_eq hk1]; simp [hk]
  driven := fun k => by
    rw [h2.driven, h1.driven]
    by_cases hk : lineOfIrq k = l
    · simp [hk, hl]
    · have hk1 : lineOfIrq k ∉ [l] := by simpa using hk
      rw [h1.isDue_eq hk1]; simp [hk]
  events := by
    rw [h2.events, h1.events, List.append_assoc]
    congr 1
    rw [List.filterMap_congr (g := s.passEvent) fun k hk => h1.passEvent_eq (by
      rw [List.mem_singleton]; rintro rfl; exact hl hk)]
    cases hp : s.passEvent l <;> simp [hp]
  idle := fun hi => by
    have hl' := h1.idle (fun k hk => hi k (by simp_all))
    have hls := h2.idle (fun k hk => by
      rw [h1.isDue_eq (by rw [List.mem_singleton]; intro he; exact hl (he ▸ hk))]
      exact hi k (List.mem_cons_of_mem _ hk))
    exact ⟨hls.1.trans hl'.1, hls.2.trans hl'.2⟩
  request := fun p j hpj => by
    rw [h2.request p j hpj, h1.request p j hpj, h1.latch p j hpj, h1.elcr_eq]
    by_cases hk : lineOfIrq (irqOf p j) = l
    · simp [hk, hl, State.inputDue]
    · have hk1 : lineOfIrq (irqOf p j) ∉ [l] := by simpa using hk
      simp [State.inputDue, h1.isDue_eq hk1, hk]
  latch := fun p j hpj => by
    rw [h2.latch p j hpj, h1.latch p j hpj]
    by_cases hk : lineOfIrq (irqOf p j) = l
    · simp [hk, hl, State.inputDue]
    · have hk1 : lineOfIrq (irqOf p j) ∉ [l] := by simpa using hk
      simp [State.inputDue, h1.isDue_eq hk1, hk]
  cascade := fun hc => h2.cascade (h1.cascade hc)
  kept := fun he hr => h2.kept (by rw [show t.master.elcr = s.master.elcr from h1.elcr_eq .master]; exact he) (h1.kept he hr)
  cascadeRequest := fun he hs => by
    have hm1 := h1.slaveOut_mono
    have hm2 := h2.slaveOut_mono
    have hdue : (decide (lineOfIrq (irqOf .master Config.cascadeIn) ∈ ls) && t.inputDue .master Config.cascadeIn) =
        (decide (lineOfIrq (irqOf .master Config.cascadeIn) ∈ ls) && s.inputDue .master Config.cascadeIn) := by
      by_cases hk : lineOfIrq (irqOf .master Config.cascadeIn) ∈ ls
      · simp only [State.inputDue]
        rw [h1.isDue_eq (by rw [List.mem_singleton]; intro hc; exact hl (hc ▸ hk))]
      · simp [hk]
    rw [h2.cascadeRequest (by rw [show t.master.elcr = s.master.elcr from h1.elcr_eq .master]; exact he)
      (h1.cascade hs), h1.cascadeRequest he hs, hdue]
    simp only [List.mem_cons, List.not_mem_nil, or_false, Bool.decide_or]
    revert hm1 hm2
    cases s.slaveOut <;> cases t.slaveOut <;> cases u.slaveOut <;> simp [Bool.or_assoc, Bool.and_or_distrib_right]

/-- The loop over any lines without a repeat is a pass over them. -/
theorem foldl_activateLine (ls : List Line) (hn : ls.Nodup) (s : State) (f : Option Tick) :
    PassOver ls s (ls.foldl activateLine (s, f)).1 ∧
      (ls.foldl activateLine (s, f)).2 = ls.foldl (firstAfter s) f := by
  induction ls generalizing s f with
  | nil => exact ⟨.nil s, rfl⟩
  | cons l ls ih =>
    have hl : l ∉ ls := (List.nodup_cons.1 hn).1
    obtain ⟨h1, h1'⟩ := activateLine_passOver s f l
    obtain ⟨h2, h2'⟩ := ih (List.nodup_cons.1 hn).2 (activateLine (s, f) l).1 (activateLine (s, f) l).2
    refine ⟨h1.cons hl h2, ?_⟩
    rw [List.foldl_cons, List.foldl_cons, h2', ← h1']
    refine List.foldl_ext _ _ _ fun g k hk => ?_
    have hk1 : k ∉ [l] := by rw [List.mem_singleton]; rintro rfl; exact hl hk
    simp only [firstAfter, h1.isDue_eq hk1, h1.line_eq hk1]

/-! ### The earliest delivered due time -/

theorem foldl_firstAfter_idle (s : State) (ls : List Line) (f : Option Tick)
    (h : ∀ l ∈ ls, s.isDue l = false) : ls.foldl (firstAfter s) f = f := by
  induction ls generalizing f with
  | nil => rfl
  | cons l ls ih =>
    rw [List.foldl_cons]
    have : firstAfter s f l = f := by simp [firstAfter, h l (by simp)]
    rw [this, ih f (fun k hk => h k (by simp [hk]))]

/-- `first` is a due time not above any delivered one, once one has been delivered. -/
theorem foldl_firstAfter_le (s : State) (ls : List Line) (f : Option Tick) (d : Tick)
    (hlow : ∀ e, f = some e → d ≤ e) (hmin : ∀ k ∈ ls, ∀ e, s.isDue k = true → (s.line k).nextDue = some e → d ≤ e)
    (hhit : f = some d ∨ ∃ k ∈ ls, s.isDue k = true ∧ (s.line k).nextDue = some d) :
    ls.foldl (firstAfter s) f = some d := by
  induction ls generalizing f with
  | nil => simpa using hhit
  | cons l ls ih =>
    rw [List.foldl_cons]
    have hstep : ∀ e, firstAfter s f l = some e → d ≤ e := fun e he => by
      unfold firstAfter at he
      split at he
      · rename_i hdue
        cases hd : (s.line l).nextDue with
        | none => rw [hd] at he; exact hlow e he
        | some d' =>
          have hd' := hmin l (by simp) d' hdue hd
          rw [hd] at he
          cases f with
          | none => rw [← Option.some.inj he]; exact hd'
          | some g => rw [← Option.some.inj he]; exact le_min (hlow g rfl) hd'
      · exact hlow e he
    refine ih (firstAfter s f l) hstep (fun k hk => hmin k (by simp [hk])) ?_
    rcases hhit with hf | ⟨k, hk, hkd, hkn⟩
    · left
      have : ∃ e, firstAfter s f l = some e ∧ e ≤ d := by
        unfold firstAfter
        split
        · cases hd : (s.line l).nextDue with
          | none => exact ⟨d, hf, le_refl d⟩
          | some d' => exact ⟨_, by rw [hf]; rfl, Nat.min_le_left d d'⟩
        · exact ⟨d, hf, le_refl d⟩
      obtain ⟨e, he, hed⟩ := this
      rw [he, le_antisymm hed (hstep e he)]
    · rcases List.mem_cons.1 hk with rfl | hk
      · left
        have : ∃ e, firstAfter s f k = some e ∧ e ≤ d := by
          simp only [firstAfter, hkd, hkn, if_true]
          cases f with
          | none => exact ⟨d, rfl, le_refl d⟩
          | some g => exact ⟨_, rfl, Nat.min_le_right g d⟩
        obtain ⟨e, he, hed⟩ := this
        rw [he, le_antisymm hed (hstep e he)]
      · exact .inr ⟨k, hk, hkd, hkn⟩

/-! ### `activate()` -/

/-- The spec lemma of `activate()` (R201): one call is one pass over all 32 lines. -/
theorem activate_activated (s : State) : Activated s s.activate := by
  obtain ⟨hp, hf⟩ := foldl_activateLine (List.finRange 32) (List.nodup_finRange 32) s none
  have hall : ∀ l : Line, l ∈ List.finRange 32 := List.mem_finRange
  have hw : s.activate = { ((List.finRange 32).foldl activateLine (s, none)).1 with
      watermark := advanceWatermark ((List.finRange 32).foldl (firstAfter s) none) s.watermark } := by
    rw [State.activate, hf, show ((List.finRange 32).foldl activateLine (s, none)).1.watermark = s.watermark by
      rw [hp.frame]]
  generalize ((List.finRange 32).foldl activateLine (s, none)).1 = t at hp hw
  rw [hw]
  refine ⟨?_, hp.nextDue, fun l => ?_, fun l => ?_, hp.events, fun hi => hp.idle (fun k _ => hi k),
    fun hi => ?_, fun l d hl hd hmin => ?_, fun p j hpj => ?_, fun p j hpj => ?_, hp.cascade, hp.kept,
    fun he hs => ?_⟩
  · rw [hp.frame]
  · have := hp.honored l
    simp only [hall l, true_and] at this
    exact this
  · have := hp.driven l
    simp only [hall (lineOfIrq l), decide_true, Bool.true_and] at this
    exact this
  · show advanceWatermark _ _ = _
    rw [foldl_firstAfter_idle s _ _ (fun k _ => hi k)]; rfl
  · show advanceWatermark _ _ = _
    rw [foldl_firstAfter_le s _ none d (by simp) (fun k _ e => hmin k e) (.inr ⟨l, hall l, hl, hd⟩)]
    simp only [advanceWatermark]
    split
    · rename_i hgt; exact (max_eq_right (le_of_lt hgt)).symm
    · rename_i hgt; exact (max_eq_left (not_lt.1 hgt)).symm
  · have := hp.request p j hpj
    simp only [hall, decide_true, Bool.true_and] at this
    cases p <;> exact this
  · have := hp.latch p j hpj
    simp only [hall, decide_true, Bool.true_and] at this
    cases p <;> exact this
  · have := hp.cascadeRequest he hs
    simp only [hall, decide_true, Bool.true_and] at this
    exact this

/-- After a pass no line is due any more: every delivered one has its due time recorded. -/
theorem Activated.isDue_eq_false {s t : State} (h : Activated s t) (l : Line) : t.isDue l = false := by
  have e1 := h.nextDue l
  have e2 := h.honored l
  have hv : t.vclock = s.vclock := by rw [h.frame]
  cases hs : s.isDue l with
  | true =>
    rw [hs, if_pos rfl] at e2
    unfold State.isDue
    rw [e1, e2]
    cases (s.line l).nextDue <;> simp
  | false =>
    rw [hs] at e2
    unfold State.isDue at hs ⊢
    rw [e1, e2, hv]
    exact hs

/-- A pass over lines of which none is due changes nothing but the events. -/
theorem Activated.idle_frame {s t : State} (h : Activated s t) (hd : ∀ l, s.isDue l = false) :
    t = { s with events := t.events } := by
  have hi := h.idle (fun l => hd (lineOfIrq l))
  have hline : ∀ l, t.line l = s.line l := fun l => by
    have e1 := h.nextDue l
    have e2 := h.honored l
    rw [hd] at e2
    cases ht : t.line l; cases hs : s.line l
    simp_all
  have hs : t.sched = s.sched := Vector.ext fun i hi => hline ⟨i, hi⟩
  have hr : t.drive = s.drive := Vector.ext fun i hi => by
    have := h.driven ⟨i, hi⟩
    rw [hd, Bool.or_false] at this
    exact this
  conv_lhs => rw [h.frame, hi.1, hi.2, h.still hd, hs, hr]

/-- With every due time still ahead, `activate()` changes nothing at all. -/
theorem activate_of_ahead {s : State} (h : ∀ l d, (s.line l).nextDue = some d → s.vclock < d) : s.activate = s := by
  have hd : ∀ l, s.isDue l = false := fun l => by
    cases hl : (s.line l).nextDue with
    | none => simp [State.isDue, hl]
    | some d => simp [State.isDue, hl, not_le.2 (h l d hl)]
  have hh : ∀ l, s.isHonored l = false := fun l => by
    cases hl : (s.line l).nextDue with
    | none => simp [State.isHonored, hl]
    | some d => simp [State.isHonored, hl, not_le.2 (h l d hl)]
  have ha := activate_activated s
  have he : s.activate.events = s.events := by
    rw [ha.events]
    simp [State.passEvent, hd, hh]
  rw [ha.idle_frame hd, he]

/-- Where a line is due, some due line is the earliest. -/
theorem exists_earliest {s : State} (h : ¬∀ l, s.isDue l = false) :
    ∃ l d, s.isDue l = true ∧ (s.line l).nextDue = some d ∧
      ∀ k e, s.isDue k = true → (s.line k).nextDue = some e → d ≤ e := by
  have hex : ∃ d l, s.isDue l = true ∧ (s.line l).nextDue = some d := by
    obtain ⟨l, hl⟩ := not_forall.1 h
    have hl : s.isDue l = true := by simpa using hl
    cases hn : (s.line l).nextDue with
    | none => simp [State.isDue, hn] at hl
    | some d => exact ⟨d, l, hl, hn⟩
  classical
  obtain ⟨l, hl, hn⟩ := Nat.find_spec hex
  exact ⟨l, Nat.find hex, hl, hn, fun k e hk hne => Nat.find_min' hex ⟨k, hk, hne⟩⟩

/-- The relation is the whole pass: where master input 2 is edge-triggered (R35) and its latch shows the slave's
output (R247), at most one state satisfies it. -/
theorem Activated.unique {s t u : State} (h : Activated s t) (ha : Activated s u)
    (he : hasBit s.master.elcr Config.cascadeIn = false) (hc : hasBit s.master.elatch Config.cascadeIn = s.slaveOut) :
    t = u := by
  have hslaveR : t.slave.irr = u.slave.irr := byte_eq_of_hasBit fun j =>
    (h.request .slave j (by simp)).trans (ha.request .slave j (by simp)).symm
  have hslaveL : t.slave.elatch = u.slave.elatch := byte_eq_of_hasBit fun j =>
    (h.latch .slave j (by simp)).trans (ha.latch .slave j (by simp)).symm
  have hslave : t.slave = u.slave := by
    rw [show t.slave = { s.slave with irr := t.slave.irr, elatch := t.slave.elatch } by rw [h.frame],
      show u.slave = { s.slave with irr := u.slave.irr, elatch := u.slave.elatch } by
        conv_lhs => rw [ha.frame], hslaveR, hslaveL]
  have hout : t.slaveOut = u.slaveOut := slaveOut_eq_of_slave hslave
  have hmasterR : t.master.irr = u.master.irr := byte_eq_of_hasBit fun j => by
    by_cases hj : j = Config.cascadeIn
    · rw [hj, h.cascadeRequest he hc, ha.cascadeRequest he hc, hout]
    · exact (h.request .master j (by simp [hj])).trans (ha.request .master j (by simp [hj])).symm
  have hmasterL : t.master.elatch = u.master.elatch := byte_eq_of_hasBit fun j => by
    by_cases hj : j = Config.cascadeIn
    · rw [hj, h.cascade hc, ha.cascade hc, hout]
    · exact (h.latch .master j (by simp [hj])).trans (ha.latch .master j (by simp [hj])).symm
  have hsched : t.sched = u.sched := Vector.ext fun i hi => by
    have hn := (h.nextDue ⟨i, hi⟩).trans (ha.nextDue ⟨i, hi⟩).symm
    have hh := (h.honored ⟨i, hi⟩).trans (ha.honored ⟨i, hi⟩).symm
    show t.line ⟨i, hi⟩ = u.line ⟨i, hi⟩
    cases h1 : t.line ⟨i, hi⟩; cases h2 : u.line ⟨i, hi⟩
    simp_all
  have hdrive : t.drive = u.drive := Vector.ext fun i hi =>
    (h.driven ⟨i, hi⟩).trans (ha.driven ⟨i, hi⟩).symm
  have hmark : t.watermark = u.watermark := by
    by_cases hd : ∀ l, s.isDue l = false
    · rw [h.still hd, ha.still hd]
    · obtain ⟨l, d, hl, hn, hmin⟩ := exists_earliest hd
      rw [h.watermark l d hl hn hmin, ha.watermark l d hl hn hmin]
  rw [h.frame]
  conv_rhs => rw [ha.frame]
  rw [hslaveR, hslaveL, hmasterR, hmasterL, hsched, hdrive, hmark, h.events, ha.events]

theorem Activated.eq_activate {s t : State} (h : Activated s t)
    (he : hasBit s.master.elcr Config.cascadeIn = false) (hc : hasBit s.master.elatch Config.cascadeIn = s.slaveOut) :
    t = s.activate := h.unique (activate_activated s) he hc

end Sys2Proof.Machine
end

