-- ==== Sys2Proof/Laws/Ops.lean ====
section
/-! SUPPORT. One spec lemma per shared operation of Machine/Ops.lean: everything it can do, so that no later proof
unfolds it. The resolver and `update()` are in Laws/Pic.lean; `pic_raise`, `pic_lower` and `activate()` are in Laws/Sched.lean. -/

namespace Sys2Proof.Machine

/-! ### Fault marks (R321) -/

theorem mem_insertFault {f g : Fault} {fs : List Fault} : g ∈ insertFault f fs ↔ g = f ∨ g ∈ fs := by
  unfold insertFault
  split <;> simp_all [or_comm]

theorem insertFault_nodup {f : Fault} {fs : List Fault} (h : fs.Nodup) : (insertFault f fs).Nodup := by
  unfold insertFault
  split
  · exact h
  · rename_i hf
    simp only [List.contains_eq_mem, decide_eq_true_eq] at hf
    simp [List.nodup_append, h]
    rintro a ha rfl
    exact hf ha

/-! ### The EOI (R262) -/

theorem nseoiInput_eq_some (p : Pic) (i : Input) : p.nseoiInput = some i ↔ IsHighest p.prio p.isr i := by
  have hle := prioOf_le p.prio p.isr
  rw [prioOf_eq_rank]
  unfold Pic.nseoiInput
  simp only
  split
  · rename_i h8; simp [h8]
  · rename_i h8
    rw [Option.some.injEq, eq_comm]
    exact ⟨fun h => ⟨lt_of_le_of_ne hle h8, h⟩, And.right⟩

theorem nseoiInput_eq_none (p : Pic) : p.nseoiInput = none ↔ p.isr = 0 := by
  have : p.nseoiInput = none ↔ prioOf p.prio p.isr = 8 := by
    unfold Pic.nseoiInput
    simp only
    split <;> simp_all
  rw [this, prioOf_eq_eight]
  exact ⟨fun h => byte_eq_of_hasBit fun j => by rw [h j, hasBit_zero], fun h j => by rw [h]; exact hasBit_zero j⟩

/-- `nseoi(P)` clears the highest-priority input in service, or changes nothing. -/
theorem nseoi_cases (p : Pic) : (p.isr = 0 ∧ p.nseoi = p) ∨
    ∃ i, p.nseoiInput = some i ∧ IsHighest p.prio p.isr i ∧ p.nseoi = { p with isr := clearBit p.isr i } := by
  unfold Pic.nseoi
  cases h : p.nseoiInput with
  | none => exact .inl ⟨(nseoiInput_eq_none p).1 h, rfl⟩
  | some i => exact .inr ⟨i, rfl, (nseoiInput_eq_some p i).1 h, rfl⟩

/-! ### A channel's evaluation (R142 to R147) -/

section
variable {s : State} {c : Chan} {n : Nat}

theorem eval_expired (h : (s.chan c).counter = .expired) : s.eval c = ⟨none, (s.chan c).outputPin, true⟩ := by
  simp [State.eval, h]

theorem eval_oneShot (h : (s.chan c).counter = .count n) (hm : (s.chan c).mode = 0 ∨ (s.chan c).mode = 1) :
    s.eval c = eval01 n (s.elapsed c) := by
  rcases hm with hm | hm <;> simp [State.eval, h, hm, foldMode]

theorem eval_strobe (h : (s.chan c).counter = .count n) (hm : (s.chan c).mode = 4 ∨ (s.chan c).mode = 5) :
    s.eval c = eval45 n (s.elapsed c) := by
  rcases hm with hm | hm <;> simp [State.eval, h, hm, foldMode]

theorem eval_rate (h : (s.chan c).counter = .count n) (hm : (s.chan c).mode = 2 ∨ (s.chan c).mode = 6) :
    s.eval c = eval2 n (s.phase c n) := by
  rcases hm with hm | hm <;> simp [State.eval, h, hm, foldMode]

theorem eval_square (h : (s.chan c).counter = .count n) (hm : (s.chan c).mode = 3 ∨ (s.chan c).mode = 7) :
    s.eval c = eval3 n (s.phase c n) := by
  rcases hm with hm | hm <;> simp [State.eval, h, hm, foldMode]

/-- Channel 0's phase is anchored to IRQ0's due time once it is armed. -/
theorem phase_anchored {d : Tick} (h : (s.line 0).nextDue = some d) :
    s.phase 0 n = (((s.vclock : Int) - (d : Int)) % (n : Int)).toNat := by
  simp [State.phase, h]

theorem phase_unanchored (h : c ≠ 0 ∨ (s.line 0).nextDue = none) : s.phase c n = s.elapsed c % n := by
  unfold State.phase
  split
  · rename_i d hd
    rcases h with h | h
    · exact absurd rfl h
    · rw [h] at hd; cases hd
  · rfl

/-! ### Latches (R148, R149) -/

theorem latchCount_pending {v : Word16} (h : (s.chan c).rlatch = some v) : s.latchCount c = s := by
  simp [State.latchCount, h]

theorem latchCount_known {k : Nat} (h : (s.chan c).rlatch = none) (hk : (s.eval c).cnt = some k) :
    s.latchCount c = s.setChan c ((s.chan c).latched (s.eval c) (BitVec.ofNat 16 k)) := by
  simp [State.latchCount, h, hk, latchValue]

theorem latchCount_unknown (h : (s.chan c).rlatch = none) (hk : (s.eval c).cnt = none) :
    s.latchCount c = (s.setChan c ((s.chan c).latched (s.eval c) (Config.draw16 s.draws))).drawn := by
  simp [State.latchCount, h, hk, latchValue]

theorem latchStatus_pending {b : Byte} (h : (s.chan c).slatch = some b) : s.latchStatus c = s := by
  simp [State.latchStatus, h]

theorem latchStatus_free (h : (s.chan c).slatch = none) :
    s.latchStatus c = s.setChan c { s.chan c with slatch := some (s.statusByte c) } := by
  simp [State.latchStatus, h]

/-- A count latch is pending after `latch_count`. -/
theorem latchCount_rlatch_isSome (s : State) (c : Chan) : ((s.latchCount c).chan c).rlatch.isSome = true := by
  cases h : (s.chan c).rlatch with
  | some v => rw [latchCount_pending h, h]; rfl
  | none =>
    cases hk : (s.eval c).cnt with
    | some k => rw [latchCount_known h hk, State.setChan_chan_self]; rfl
    | none => rw [latchCount_unknown h hk, State.drawn_chan, State.setChan_chan_self]; rfl

end

/-! ### Scheduling and acknowledging a line (R204, R212 to R215) -/

theorem schedule_activated (l : Line) (iv : Int) (s : State) :
    Activated (s.setLine l ((s.line l).armed s.vclock iv)) (s.schedule l iv) := activate_activated _

theorem releaseDrive_idle {l : Irq} {s : State} (h : s.drives l = false) : s.releaseDrive l = s := by
  simp [State.releaseDrive, h]

theorem releaseDrive_driven {l : Irq} {s : State} (h : s.drives l = true) :
    s.releaseDrive l = (s.setDrive l false).picLower l := by
  simp [State.releaseDrive, h]

theorem releaseDrive_frame (l : Irq) (s : State) : s.releaseDrive l =
    { s with
      master := { s.master with irr := (s.releaseDrive l).master.irr, elatch := (s.releaseDrive l).master.elatch }
      slave := { s.slave with irr := (s.releaseDrive l).slave.irr, elatch := (s.releaseDrive l).slave.elatch }
      drive := s.drive.set l.val false } := by
  cases h : s.drives l with
  | false =>
    have hd : s.drive.set l.val false = s.drive := by
      have hg : s.drive[l.val] = false := h
      rw [← hg, Vector.set_getElem_self]
    rw [releaseDrive_idle h, hd]
  | true =>
    rw [releaseDrive_driven h]
    have hf := picLower_frame (s.setDrive l false) l
    generalize State.picLower l (s.setDrive l false) = v at hf ⊢
    rw [hf]; rfl

theorem ack_other {l : Irq} (h : l ≠ 0) (s : State) : s.ack l = (s.releaseDrive l).emit (.ack l) := by
  simp [State.ack, h]

theorem ack_timer (s : State) :
    s.ack 0 = ((s.releaseDrive 0).schedule 0 ((s.releaseDrive 0).chan 0).counter.num).emit (.ack 0) := by
  simp [State.ack]

/-! ### Taking an interrupt and polling (R252, R254, R272) -/

/-- What INTA does in each of its four cases. -/
theorem takeInterrupt_cases (s : State) :
    (s.resolve .master = none ∧ s.takeInterrupt = s.answer (.irq none)) ∨
    (∃ i, s.resolve .master = some i ∧ i ≠ Config.cascadeIn ∧
      s.takeInterrupt = (s.intack .master i).finishEntry (irqOf .master i) (vectorOf s.master i)) ∨
    (∃ j, s.resolve .master = some Config.cascadeIn ∧ s.resolve .slave = some j ∧
      s.takeInterrupt = ((s.intack .master Config.cascadeIn).intack .slave j).finishEntry (irqOf .slave j)
        (vectorOf s.slave j)) ∨
    (s.resolve .master = some Config.cascadeIn ∧ s.resolve .slave = none ∧
      s.takeInterrupt = (s.intack .master Config.cascadeIn).finishEntry 2 (vectorOf s.master 2)) := by
  unfold State.takeInterrupt
  cases hm : s.resolve .master with
  | none => exact .inl ⟨rfl, rfl⟩
  | some i =>
    by_cases hi : i = Config.cascadeIn
    · subst hi
      have hs : (s.intack .master Config.cascadeIn).resolve .slave = s.resolve .slave := rfl
      cases hr : s.resolve .slave with
      | none => exact .inr (.inr (.inr ⟨rfl, rfl, by simp only [if_true, hs, hr]; rfl⟩))
      | some j => exact .inr (.inr (.inl ⟨j, rfl, rfl, by simp only [if_true, hs, hr]; rfl⟩))
    · exact .inr (.inl ⟨i, rfl, hi, by simp only [if_neg hi]; rfl⟩)

/-- What a poll read does: nothing but clear the flag, or an acknowledge on its own PIC. -/
theorem pollRead_cases (s : State) (p : PicId) :
    (s.resolve p = none ∧ s.pollRead p = ((s.setPic p { s.pic p with poll := false }).drawn).answer
      (.byte (emptyPollWord (Config.draw3 s.draws)))) ∨
    ∃ i, s.resolve p = some i ∧ s.pollRead p =
      (if (((s.setPic p { s.pic p with poll := false }).intack p i).update).pollRunsAck p i then
        (((s.setPic p { s.pic p with poll := false }).intack p i).update).ack (irqOf p i)
      else ((s.setPic p { s.pic p with poll := false }).intack p i).update).answer (.byte (pollWord i)) := by
  have hr : (s.setPic p { s.pic p with poll := false }).resolve p = s.resolve p := by
    simp only [State.resolve, State.setPic_pic_self]
    exact resolve_congr p rfl rfl rfl rfl rfl rfl
  unfold State.pollRead
  simp only [hr]
  cases s.resolve p with
  | none => exact .inl ⟨rfl, rfl⟩
  | some i => exact .inr ⟨i, rfl, rfl⟩

end Sys2Proof.Machine
end

