-- ==== Sys2Proof/Laws/Entry.lean ====
section
/-! SUPPORT. The acknowledge of a line after its operation's `update()` (43_pic.md R252, R272; 42_scheduler.md R213):
the release of a scheduler's drive leaves what one cascade update of the released state leaves. -/

namespace Sys2Proof.Machine

/-- The PIC after input i, if the scheduler drove it, is lowered (R213, R242). -/
def Pic.lowered (x : Pic) (i : Input) (driven : Bool) : Pic :=
  { x with
    irr := if driven && hasBit x.elcr i then clearBit x.irr i else x.irr
    elatch := if driven then clearBit x.elatch i else x.elatch }

/-- The state after line L's drive is released and its input lowered, before the cascade is updated (R213). -/
def State.released (u : State) (l : Irq) : State :=
  { u.setPic (picOfIrq l) ((u.pic (picOfIrq l)).lowered (inputOfIrq l) (u.drives l)) with
    drive := u.drive.set l.val false }

theorem drive_set_same {u : State} {l : Irq} (h : u.drives l = false) : u.drive.set l.val false = u.drive := by
  have hg : u.drive[l.val] = false := h
  rw [← hg, Vector.set_getElem_self]

theorem released_idle {u : State} {l : Irq} (h : u.drives l = false) : u.released l = u := by
  unfold State.released
  rw [drive_set_same h]
  simp only [Pic.lowered, h, Bool.false_and, Bool.false_eq_true, if_false]
  cases picOfIrq l <;> rfl

/-- `update()` and then the release of line L's drive settle the cascade of the released state, provided a slave line's
request had already reached the master. -/
theorem releaseDrive_settled (l : Irq) (u : State)
    (h : picOfIrq l = .slave → hasBit u.master.elatch Config.cascadeIn = true) :
    CascadeSettled (u.released l) ((u.update).releaseDrive l) := by
  cases hd : u.drives l with
  | false => rw [released_idle hd, releaseDrive_idle (by exact hd)]; exact update_settled u
  | true =>
    rw [releaseDrive_driven (by exact hd)]
    have hu := update_settled u
    generalize u.update = w at hu ⊢
    have hv := update_settled
      ((w.setDrive l false).setPic (picOfIrq l) (((w.setDrive l false).pic (picOfIrq l)).lowerIn (inputOfIrq l)))
    change CascadeSettled _ (State.update
      ((w.setDrive l false).setPic (picOfIrq l) (((w.setDrive l false).pic (picOfIrq l)).lowerIn (inputOfIrq l))))
    generalize (State.update
      ((w.setDrive l false).setPic (picOfIrq l) (((w.setDrive l false).pic (picOfIrq l)).lowerIn (inputOfIrq l))))
      = v at hv ⊢
    have hf := hu.frame
    rcases hp : picOfIrq l with _ | _
    · simp only [hp, State.pic_master, State.setDrive_master] at hv ⊢
      have hsw : w.slaveOut = u.slaveOut := hu.slaveOut_eq
      have hso : ((w.setDrive l false).setPic .master (w.master.lowerIn (inputOfIrq l))).slaveOut = u.slaveOut := hsw
      have hrel : (u.released l).slaveOut = u.slaveOut := slaveOut_eq_of_slave (by simp [State.released, hp])
      have hel : w.master.elcr = u.master.elcr := by rw [hf]
      refine ⟨?_, fun j hj => ?_, ?_, ?_⟩
      · rw [hv.frame, hf]; simp [State.released, hp, State.setPic, State.setDrive, Pic.lowerIn, Pic.lowered]
      · have := hv.others j hj
        have h2 := hu.others j hj
        simp only [State.setPic_master_master, Pic.lowerIn] at this
        simp only [State.released, hp, State.setPic_master_master, Pic.lowered, hd, Bool.true_and, if_true, State.pic_master]
        rw [this.1, this.2, hel]
        by_cases hc : hasBit u.master.elcr (inputOfIrq l) = true <;> simp [hc, h2]
      · rw [hv.latch, hso, hrel]
      · rw [hv.request, hso, hrel]
        have h3 := hu.request
        have h4 := hu.latch
        simp only [State.released, hp, State.setPic_master_master, Pic.lowered, hd, Bool.true_and, if_true, State.pic_master, Pic.lowerIn]
        simp only [hel]
        by_cases hc : hasBit u.master.elcr Config.cascadeIn = true
        · simp [hc]
        · simp only [hc, if_false, Bool.false_eq_true] at h3 ⊢
          by_cases hi : Config.cascadeIn = inputOfIrq l
          · rw [← hi]; simp [hc, h3, h4]; cases u.slaveOut <;> simp
          · by_cases hcl : hasBit u.master.elcr (inputOfIrq l) = true <;> simp [hcl, h3, h4, hi]
    · have h := h hp
      simp only [hp, State.pic_slave, State.setDrive_slave] at hv ⊢
      have hws : w.slave = u.slave := hu.slave_eq
      have hrs : (u.released l).slave = (u.slave.lowerIn (inputOfIrq l)) := by
        simp [State.released, hp, Pic.lowered, Pic.lowerIn, hd]
      have hso : ((w.setDrive l false).setPic .slave (w.slave.lowerIn (inputOfIrq l))).slaveOut = (u.released l).slaveOut :=
        slaveOut_eq_of_slave (by rw [hrs]; simp [hws])
      have hmono : (u.released l).slaveOut = true → u.slaveOut = true := by
        intro hx
        have : ((u.released l).slave.resolve .slave).isSome = true := hx
        rw [hrs] at this
        refine resolve_isSome_mono (x := u.slave) (y := u.slave.lowerIn (inputOfIrq l)) rfl rfl rfl rfl rfl (fun j => ?_) this
        simp only [Pic.lowerIn]; split
        · simp; intro a _; exact a
        · exact id
      refine ⟨?_, fun j hj => ?_, ?_, ?_⟩
      · rw [hv.frame, hf]; simp [State.released, hp, State.setPic, State.setDrive, Pic.lowerIn, Pic.lowered, hd]
      · have := hv.others j hj
        have h2 := hu.others j hj
        simp only [State.setPic_slave_master, State.setDrive_master] at this
        simp only [State.released, hp, State.setPic_slave_master]
        rw [this.1, this.2]; exact h2
      · rw [hv.latch, hso]
      · rw [hv.request, hso]
        have h3 := hu.request
        have h4 := hu.latch
        have hel : w.master.elcr = u.master.elcr := by rw [hf]
        have e1 : (u.released l).master = u.master := by simp [State.released, hp]
        simp only [e1, State.setPic_slave_master, State.setDrive_master, hel]
        by_cases hc : hasBit u.master.elcr Config.cascadeIn = true
        · simp [hc]
        · simp only [hc, if_false, Bool.false_eq_true, h4, h] at h3 ⊢
          simp only [h3]
          cases hq : (u.released l).slaveOut
          · simp
          · simp [hmono hq]

/-! ### Frames -/

/-- `ack(L)` changes requests and edge latches, the scheduler's fields and the events, and nothing else (R212). -/
theorem ack_frame (l : Irq) (s : State) : s.ack l = { s with
    master := { s.master with irr := (s.ack l).master.irr, elatch := (s.ack l).master.elatch }
    slave := { s.slave with irr := (s.ack l).slave.irr, elatch := (s.ack l).slave.elatch }
    sched := (s.ack l).sched, drive := (s.ack l).drive, watermark := (s.ack l).watermark
    events := (s.ack l).events } := by
  have hr := releaseDrive_frame l s
  by_cases hl : l = 0
  · subst hl
    rw [ack_timer]
    generalize s.releaseDrive 0 = u at hr ⊢
    have ha := (schedule_activated 0 (u.chan 0).counter.num u).frame
    generalize u.schedule 0 (u.chan 0).counter.num = v at ha ⊢
    rw [ha, hr]
    rfl
  · rw [ack_other hl]
    generalize s.releaseDrive l = u at hr ⊢
    rw [hr]
    rfl

/-- `ack(L)` moves no due time but line 0's, and that only for L = 0 (R214, R220). -/
theorem ack_nextDue (l : Irq) (k : Line) (h : l ≠ 0 ∨ k ≠ 0) (s : State) :
    ((s.ack l).line k).nextDue = (s.line k).nextDue := by
  have hr := releaseDrive_frame l s
  by_cases hl : l = 0
  · subst hl
    have hk : k ≠ 0 := h.resolve_left (fun h => h rfl)
    rw [ack_timer]
    generalize s.releaseDrive 0 = u at hr ⊢
    have ha := (schedule_activated 0 (u.chan 0).counter.num u).nextDue k
    generalize u.schedule 0 (u.chan 0).counter.num = v at ha ⊢
    have hu : u.line k = s.line k := by rw [hr]; rfl
    simp only [State.emit_line, ha]
    rw [State.setLine_line_other _ hk, hu]
  · rw [ack_other hl]
    generalize s.releaseDrive l = u at hr ⊢
    rw [hr]
    rfl

end Sys2Proof.Machine
end

