-- ==== Sys2Proof/Laws/PerInstr.lean ====
section
/-! SUPPORT. A law stated for every operation of the block, one lemma per constructor: the bus transaction word that
issues it addresses a port of R62 (20_memory.md R62, 30_encoding.md R81, R82). A host call has no word. -/

namespace Sys2Proof.Laws

/-- If the operation is issued by a bus transaction word, that word's port is one of the block's (R62, R81). -/
def PortOfBlock.Statement (i : Instr) : Prop :=
  ∀ w : Btw, encode i = .bus w → isBlockPort (btwPort w) = true

/-- A request that writes a block port carries a block port. -/
theorem portOfBlock_out {port : Port} (h : isBlockPort port = true) (data : Byte) (w : Btw)
    (e : outReq port data = .bus w) : isBlockPort (btwPort w) = true := by
  cases e; rwa [btwPort_busWord]

/-- A request that reads a block port carries a block port. -/
theorem portOfBlock_in {port : Port} (h : isBlockPort port = true) (w : Btw)
    (e : inReq port = .bus w) : isBlockPort (btwPort w) = true := by
  cases e; rwa [btwPort_busWord]

theorem PortOfBlock.pitReadback (countN statusN cnt2 cnt1 cnt0 : Bool) :
    PortOfBlock.Statement (.pitReadback countN statusN cnt2 cnt1 cnt0) :=
  portOfBlock_out (by decide) _

theorem PortOfBlock.pitLatch (c : Chan) : PortOfBlock.Statement (.pitLatch c) :=
  portOfBlock_out (by revert c; decide) _

theorem PortOfBlock.pitMode (c : Chan) (rw : Rw) (m : BitVec 3) (bcd : Bool) :
    PortOfBlock.Statement (.pitMode c rw m bcd) :=
  portOfBlock_out (by revert c; decide) _

theorem PortOfBlock.pitCtrlRead : PortOfBlock.Statement .pitCtrlRead :=
  portOfBlock_in (by decide)

theorem PortOfBlock.pitDataWrite (c : Chan) (v : Byte) : PortOfBlock.Statement (.pitDataWrite c v) :=
  portOfBlock_out (by revert c; decide) _

theorem PortOfBlock.pitDataRead (c : Chan) : PortOfBlock.Statement (.pitDataRead c) :=
  portOfBlock_in (by revert c; decide)

theorem PortOfBlock.picIcw1 (p : PicId) (ltim adi sngl ic4 : Bool) :
    PortOfBlock.Statement (.picIcw1 p ltim adi sngl ic4) :=
  portOfBlock_out (by cases p <;> decide) _

theorem PortOfBlock.picOcw3 (p : PicId) (esmm smm poll rr ris : Bool) :
    PortOfBlock.Statement (.picOcw3 p esmm smm poll rr ris) :=
  portOfBlock_out (by cases p <;> decide) _

theorem PortOfBlock.picRotAeoiClr (p : PicId) : PortOfBlock.Statement (.picRotAeoiClr p) :=
  portOfBlock_out (by cases p <;> decide) _

theorem PortOfBlock.picNseoi (p : PicId) : PortOfBlock.Statement (.picNseoi p) :=
  portOfBlock_out (by cases p <;> decide) _

theorem PortOfBlock.picNop (p : PicId) : PortOfBlock.Statement (.picNop p) :=
  portOfBlock_out (by cases p <;> decide) _

theorem PortOfBlock.picSeoi (p : PicId) (l : Input) : PortOfBlock.Statement (.picSeoi p l) :=
  portOfBlock_out (by cases p <;> decide) _

theorem PortOfBlock.picRotAeoiSet (p : PicId) : PortOfBlock.Statement (.picRotAeoiSet p) :=
  portOfBlock_out (by cases p <;> decide) _

theorem PortOfBlock.picRotNseoi (p : PicId) : PortOfBlock.Statement (.picRotNseoi p) :=
  portOfBlock_out (by cases p <;> decide) _

theorem PortOfBlock.picSetPrio (p : PicId) (l : Input) : PortOfBlock.Statement (.picSetPrio p l) :=
  portOfBlock_out (by cases p <;> decide) _

theorem PortOfBlock.picRotSeoi (p : PicId) (l : Input) : PortOfBlock.Statement (.picRotSeoi p l) :=
  portOfBlock_out (by cases p <;> decide) _

theorem PortOfBlock.picIcw2 (p : PicId) (v : Byte) : PortOfBlock.Statement (.picIcw2 p v) :=
  portOfBlock_out (by cases p <;> decide) _

theorem PortOfBlock.picIcw3 (p : PicId) (v : Byte) : PortOfBlock.Statement (.picIcw3 p v) :=
  portOfBlock_out (by cases p <;> decide) _

theorem PortOfBlock.picIcw4 (p : PicId) (sfnm buf ms aeoi upm : Bool) :
    PortOfBlock.Statement (.picIcw4 p sfnm buf ms aeoi upm) :=
  portOfBlock_out (by cases p <;> decide) _

theorem PortOfBlock.picOcw1 (p : PicId) (v : Byte) : PortOfBlock.Statement (.picOcw1 p v) :=
  portOfBlock_out (by cases p <;> decide) _

theorem PortOfBlock.picReadPoll (p : PicId) (dataPort : Bool) : PortOfBlock.Statement (.picReadPoll p dataPort) :=
  portOfBlock_in (by cases p <;> cases dataPort <;> decide)

theorem PortOfBlock.picReadCmd (p : PicId) : PortOfBlock.Statement (.picReadCmd p) :=
  portOfBlock_in (by cases p <;> decide)

theorem PortOfBlock.picReadData (p : PicId) : PortOfBlock.Statement (.picReadData p) :=
  portOfBlock_in (by cases p <;> decide)

theorem PortOfBlock.elcrWrite (p : PicId) (v : Byte) : PortOfBlock.Statement (.elcrWrite p v) :=
  portOfBlock_out (by cases p <;> decide) _

theorem PortOfBlock.elcrRead (p : PicId) : PortOfBlock.Statement (.elcrRead p) :=
  portOfBlock_in (by cases p <;> decide)

theorem PortOfBlock.spkrWrite (v : Byte) : PortOfBlock.Statement (.spkrWrite v) :=
  portOfBlock_out (by decide) _

theorem PortOfBlock.spkrRead : PortOfBlock.Statement .spkrRead :=
  portOfBlock_in (by decide)

theorem PortOfBlock.reset (kind : ResetKind) : PortOfBlock.Statement (.reset kind) :=
  fun _ e => nomatch e

theorem PortOfBlock.advance (t : HostTick) (guestIf : Bool) : PortOfBlock.Statement (.advance t guestIf) :=
  fun _ e => nomatch e

theorem PortOfBlock.raise (l : Nat) : PortOfBlock.Statement (.raise l) :=
  fun _ e => nomatch e

theorem PortOfBlock.lower (l : Nat) : PortOfBlock.Statement (.lower l) :=
  fun _ e => nomatch e

theorem PortOfBlock.inta : PortOfBlock.Statement .inta :=
  fun _ e => nomatch e

theorem PortOfBlock.isPending : PortOfBlock.Statement .isPending :=
  fun _ e => nomatch e

theorem PortOfBlock.schedule (l : Nat) (iv : Int) : PortOfBlock.Statement (.schedule l iv) :=
  fun _ e => nomatch e

theorem PortOfBlock.elapsed (c : Nat) : PortOfBlock.Statement (.elapsed c) :=
  fun _ e => nomatch e

theorem PortOfBlock.maySleep (vip sigq : Bool) : PortOfBlock.Statement (.maySleep vip sigq) :=
  fun _ e => nomatch e

end Sys2Proof.Laws
end

