-- ==== Sys2Proof/Tests/Slice0.lean ====
section
/-! SUPPORT. Tests. Expected results come from spec/95_test_vectors.md (the vector is named at each test) or from the
worked example of the operation's rule; words are written out from 30_encoding.md. The last part shows, for every
statement with hypotheses, a state and operands that meet them, clause by clause at the bounds of their ranges. -/

namespace Sys2Proof.Tests

open Sys2Proof.Machine Sys2Proof.Claims

-- One theorem at a time: many at once would each take a thread and its stack.
set_option Elab.async false

/-! ### Well-formedness refuses what R323 names -/

theorem test_wf_raise : (Instr.raise 16).wellFormed = false ∧ (Instr.raise 15).wellFormed = true := by decide
theorem test_wf_lower : (Instr.lower 16).wellFormed = false ∧ (Instr.lower 15).wellFormed = true := by decide
theorem test_wf_schedule : (Instr.schedule 32 5).wellFormed = false ∧ (Instr.schedule 31 5).wellFormed = true := by
  decide
theorem test_wf_elapsed : (Instr.elapsed 3).wellFormed = false ∧ (Instr.elapsed 2).wellFormed = true := by decide

/-! ### Decoding, every constructor (95_test_vectors.md part 2.1, and bytes of 30_encoding.md R83 to R98) -/

theorem test_decode_pitReadback : decodeBus resetCtx 0x10043C2 = .ok (.pitReadback false false false false true) := by
  decide
theorem test_decode_pitReadback_nothing :
    decodeBus resetCtx 0x10043F0 = .ok (.pitReadback true true false false false) := by decide
theorem test_decode_pitLatch : decodeBus resetCtx 0x1004380 = .ok (.pitLatch 2) := by decide
theorem test_decode_pitLatch_ignored : decodeBus resetCtx 0x100430F = .ok (.pitLatch 0) := by decide
theorem test_decode_pitMode : decodeBus resetCtx 0x1004336 = .ok (.pitMode 0 .word 3 false) := by decide
theorem test_decode_pitMode_msb : decodeBus resetCtx 0x10043AF = .ok (.pitMode 2 .msb 7 true) := by decide
theorem test_decode_pitCtrlRead : decodeBus resetCtx 0x0004300 = .ok .pitCtrlRead := by decide
theorem test_decode_pitDataWrite : decodeBus resetCtx 0x1004042 = .ok (.pitDataWrite 0 0x42) := by decide
theorem test_decode_pitDataRead : decodeBus resetCtx 0x0004200 = .ok (.pitDataRead 2) := by decide
theorem test_decode_picIcw1 : decodeBus resetCtx 0x100A011 = .ok (.picIcw1 .slave false false false true) := by decide
theorem test_decode_picIcw1_bits : decodeBus resetCtx 0x100201A = .ok (.picIcw1 .master true false true false) := by
  decide
theorem test_decode_picOcw3 : decodeBus resetCtx 0x100200B = .ok (.picOcw3 .master false false false true true) := by
  decide
theorem test_decode_picOcw3_mask : decodeBus resetCtx 0x1002068 = .ok (.picOcw3 .master true true false false false) := by
  decide
theorem test_decode_picRotAeoiClr : decodeBus resetCtx 0x1002000 = .ok (.picRotAeoiClr .master) := by decide
theorem test_decode_picNseoi : decodeBus resetCtx 0x1002020 = .ok (.picNseoi .master) := by decide
theorem test_decode_picNop : decodeBus resetCtx 0x100A040 = .ok (.picNop .slave) := by decide
theorem test_decode_picSeoi : decodeBus resetCtx 0x1002062 = .ok (.picSeoi .master 2) := by decide
theorem test_decode_picRotAeoiSet : decodeBus resetCtx 0x1002080 = .ok (.picRotAeoiSet .master) := by decide
theorem test_decode_picRotNseoi : decodeBus resetCtx 0x10020A0 = .ok (.picRotNseoi .master) := by decide
theorem test_decode_picSetPrio : decodeBus resetCtx 0x10020C4 = .ok (.picSetPrio .master 4) := by decide
theorem test_decode_picRotSeoi : decodeBus resetCtx 0x10020E3 = .ok (.picRotSeoi .master 3) := by decide
theorem test_decode_picIcw2 :
    decodeBus { resetCtx with masterInit := .icw2 } 0x1002108 = .ok (.picIcw2 .master 0x08) := by decide
theorem test_decode_picIcw3 :
    decodeBus { resetCtx with masterInit := .icw3 } 0x1002104 = .ok (.picIcw3 .master 0x04) := by decide
theorem test_decode_picIcw4 : decodeBus { resetCtx with slaveInit := .icw4 } 0x100A113 =
    .ok (.picIcw4 .slave true false false true true) := by decide
theorem test_decode_picOcw1 : decodeBus resetCtx 0x10021FE = .ok (.picOcw1 .master 0xFE) := by decide
theorem test_decode_picReadPoll :
    decodeBus { resetCtx with slavePoll := true } 0x000A100 = .ok (.picReadPoll .slave true) := by decide
theorem test_decode_picReadPoll_cmd :
    decodeBus { resetCtx with slavePoll := true } 0x000A000 = .ok (.picReadPoll .slave false) := by decide
theorem test_decode_picReadCmd : decodeBus resetCtx 0x0002000 = .ok (.picReadCmd .master) := by decide
theorem test_decode_picReadData : decodeBus resetCtx 0x0002100 = .ok (.picReadData .master) := by decide
theorem test_decode_elcrWrite : decodeBus resetCtx 0x104D1FF = .ok (.elcrWrite .slave 0xFF) := by decide
theorem test_decode_elcrRead : decodeBus resetCtx 0x004D000 = .ok (.elcrRead .master) := by decide
theorem test_decode_spkrWrite : decodeBus resetCtx 0x1006103 = .ok (.spkrWrite 0x03) := by decide
theorem test_decode_spkrRead : decodeBus resetCtx 0x0006100 = .ok .spkrRead := by decide
theorem test_decode_hostCalls :
    decode resetCtx (.host (.reset .soft)) = .ok (.reset .soft) ∧
    decode resetCtx (.host (.advance 0x10 true)) = .ok (.advance 0x10 true) ∧
    decode resetCtx (.host (.raise 5)) = .ok (.raise 5) ∧
    decode resetCtx (.host (.lower 5)) = .ok (.lower 5) ∧
    decode resetCtx (.host .inta) = .ok .inta ∧
    decode resetCtx (.host .isPending) = .ok .isPending ∧
    decode resetCtx (.host (.schedule 20 (-5))) = .ok (.schedule 20 (-5)) ∧
    decode resetCtx (.host (.elapsed 2)) = .ok (.elapsed 2) ∧
    decode resetCtx (.host (.maySleep true false)) = .ok (.maySleep true false) := by decide
theorem test_decode_other_port : decodeBus resetCtx 0x1006003 = .error (.notBlockPort 0x60) := by decide

/-! ### One operation each (95_test_vectors.md parts 2.2 to 2.8) -/

/-- What the state shows after one operation that has a next state. -/
def after {α : Type} (i : Instr) (s : State) (see : State → α) : Option α :=
  match exec i s with
  | .next t => some (see t)
  | .fault _ => none
  | .refused _ => none

/-- Channel c, with count n loaded at 0, and the clock at e. -/
def counting (c : Chan) (m : BitVec 3) (n e : Nat) : State :=
  { State.reset with vclock := e }.setChan c { State.reset.chan c with mode := m, counter := .count n, baseTime := 0 }

/-- The state after reset with the master's and the slave's request, mask and in-service registers as given. -/
def requesting (mirr mimr misr sirr simr sisr : Byte) : State :=
  { State.reset with
    master := { State.reset.master with irr := mirr, imr := mimr, isr := misr }
    slave := { State.reset.slave with irr := sirr, imr := simr, isr := sisr } }

/-- P-8. -/
theorem test_pitLatch : after (.pitLatch 0) (counting 0 0 1000 250) (fun t => (t.chan 0).rlatch) = some (some 750) := by
  decide +kernel
/-- P-19. -/
theorem test_pitLatch_expires : after (.pitLatch 1) (counting 1 0 0x1234 4660)
    (fun t => ((t.chan 1).rlatch, (t.chan 1).counter)) = some (some 0, .expired) := by decide +kernel
/-- P-36. -/
theorem test_pitReadback : after (.pitReadback false false true false false) (counting 2 0 100 100)
    (fun t => ((t.chan 2).slatch, (t.chan 2).rlatch, (t.chan 2).counter)) = some (some 0xF0, some 0, .expired) := by
  decide +kernel
/-- P-18. -/
theorem test_pitReadback_strobe : after (.pitReadback true false false true false) (counting 1 5 3 3)
    (fun t => (t.chan 1).slatch) = some (some 0x3A) := by decide +kernel
/-- P-1 and P-20: the initial OUT of a control word. -/
theorem test_pitMode : after (.pitMode 1 .lsb 0 true) (counting 1 3 10 0)
    (fun t => ((t.chan 1).rw, (t.chan 1).mode, (t.chan 1).bcd, (t.chan 1).outputPin)) =
      some (.lsb, 0, true, false) := by decide +kernel
theorem test_pitCtrlRead : after .pitCtrlRead State.reset (·.result) = some (.byte 0) := by decide +kernel
/-- P-6. -/
theorem test_pitDataWrite : after (.pitDataWrite 1 0x78) (counting 1 0 0x1234 9)
    (fun t => ((t.chan 1).wlatch, (t.chan 1).wphase, (t.chan 1).counter)) =
      some (0x78, .hi, .count 0x1234) := by decide +kernel
/-- P-40. -/
theorem test_pitDataRead : after (.pitDataRead 1) (counting 1 0 1000 10) (fun t => (t.result, (t.chan 1).rlatch)) =
    some (.byte 0xDE, some 0x03DE) := by decide +kernel
/-- C1. -/
theorem test_picIcw1 : after (.picIcw1 .master false false false true) (requesting 0x28 0xFF 0x01 0 0 0)
    (fun t => (t.master.irr, t.master.imr, t.master.isr, t.master.initState, t.master.ic4)) =
      some (0, 0, 0, .icw2, true) := by decide +kernel
/-- C7. -/
theorem test_picIcw2 : after (.picIcw2 .master 0x0F) State.reset (fun t => (t.master.base, t.master.initState)) =
    some (0x08, .icw3) := by decide +kernel
theorem test_picIcw3 : after (.picIcw3 .slave 0x02) State.reset (fun t => (t.slave.icw3, t.slave.initState)) =
    some (0x02, .ready) := by decide +kernel
theorem test_picIcw4 : after (.picIcw4 .master true false false true true) State.reset
    (fun t => (t.master.sfnm, t.master.aeoi)) = some (true, true) := by decide +kernel
/-- C23. -/
theorem test_picOcw1 : after (.picOcw1 .master 0) (requesting 0x04 0x04 0 0x02 0 0) (·.int) = some true := by
  decide +kernel
/-- C48. -/
theorem test_picOcw3 : after (.picOcw3 .master true true false false false) (requesting 0x20 0x08 0x08 0 0 0)
    (·.int) = some true := by decide +kernel
/-- C43, C44. -/
theorem test_picRotAeoi :
    after (.picRotAeoiSet .master) State.reset (·.master.rotAeoi) = some true ∧
    after (.picRotAeoiClr .slave) State.reset (·.slave.rotAeoi) = some false := by decide +kernel
/-- C33. -/
theorem test_picNseoi : after (.picNseoi .master) (requesting 0 0 0x05 0 0 0) (·.master.isr) = some 0x04 := by
  decide +kernel
/-- C42. -/
theorem test_picNop : after (.picNop .master) (requesting 0x21 0x01 0x05 0 0 0)
    (fun t => (t.master.irr, t.master.isr, t.master.prio)) = some (0x21, 0x05, 0) := by decide +kernel
/-- C37. -/
theorem test_picSeoi : after (.picSeoi .master 3) (requesting 0 0 0x0C 0 0 0) (·.master.isr) = some 0x04 := by
  decide +kernel
/-- C35. -/
theorem test_picRotNseoi : after (.picRotNseoi .master) (requesting 0 0 0x01 0 0 0)
    (fun t => (t.master.isr, t.master.prio)) = some (0, 1) := by decide +kernel
/-- C38, C41. -/
theorem test_picSetPrio :
    after (.picSetPrio .master 4) State.reset (·.master.prio) = some 5 ∧
    after (.picSetPrio .slave 7) State.reset (·.slave.prio) = some 0 := by decide +kernel
/-- C39. -/
theorem test_picRotSeoi : after (.picRotSeoi .master 3) (requesting 0 0 0x08 0 0 0)
    (fun t => (t.master.isr, t.master.prio)) = some (0, 4) := by decide +kernel
/-- C50. -/
theorem test_picReadPoll : after (.picReadPoll .master false) (requesting 0x08 0 0 0 0 0)
    (fun t => (t.result, t.master.isr, t.master.irr, t.events)) = some (.byte 0x83, 0x08, 0, [.ack 3]) := by
  decide +kernel
/-- C52: a master poll of the cascade input runs no acknowledge. -/
theorem test_picReadPoll_cascade : after (.picReadPoll .master false)
    (requesting 0x04 0 0 0x02 0 0) (fun t => (t.result, t.master.isr, t.slave.isr, t.events)) =
      some (.byte 0x82, 0x04, 0, []) := by decide +kernel
/-- C11. -/
theorem test_picReadCmd : after (.picReadCmd .master) (requesting 0x08 0xFF 0x01 0 0 0) (·.result) =
    some (.byte 0x08) := by decide +kernel
/-- C10. -/
theorem test_picReadData : after (.picReadData .slave) (requesting 0 0 0 0 0xBF 0) (·.result) = some (.byte 0xBF) := by
  decide +kernel
/-- C30, C31. -/
theorem test_elcrWrite :
    after (.elcrWrite .master 0xFF) State.reset (·.master.elcr) = some 0xF8 ∧
    after (.elcrWrite .slave 0xFF) State.reset (·.slave.elcr) = some 0xDE := by decide +kernel
/-- C32. -/
theorem test_elcrRead : after (.elcrRead .master) State.reset (·.result) = some (.byte 0x00) := by decide +kernel
/-- K1. -/
theorem test_spkrWrite : after (.spkrWrite 0x03) State.reset (·.spkr) = some 0x03 := by decide +kernel
/-- P3: bit 5 at 99 ticks and at 100, whatever the open bits are. -/
theorem test_spkrRead (b76 : BitVec 2) (b4 : BitVec 1) :
    (counting 2 2 100 99).eval 2 = ⟨some 1, false, false⟩ ∧ (counting 2 2 100 100).eval 2 = ⟨some 100, true, false⟩ ∧
    (spkrByte b76 false b4 0x03).getLsbD 5 = false ∧ (spkrByte b76 true b4 0x03).getLsbD 5 = true := by
  refine ⟨by decide +kernel, by decide +kernel, ?_, ?_⟩ <;> revert b76 b4 <;> decide +kernel
/-- Z4, by the reset table. -/
theorem test_reset : after (.reset .cold) (requesting 1 2 4 8 16 32)
    (fun t => (t.vclock, (t.chan 1).counter, (t.line 0).nextDue, t.master.base, t.slave.base)) =
      some (0, .count 18, some 65536, 0x08, 0x70) := by decide +kernel
/-- Z2. -/
theorem test_reset_soft : after (.reset .soft) { State.reset with vclock := 1000, fault := [.badIrq 16] }
    (fun t => (t.vclock, (t.chan 1).baseTime, (t.line 0).nextDue, t.fault)) =
      some (1000, 1000, some 66536, [.badIrq 16]) := by decide +kernel
/-- T9. -/
theorem test_advance : after (.advance 1600 true) { State.reset with vclock := 5000, hostPrev := some 1000 }
    (fun t => (t.vclock, t.hostPrev, t.events)) = some (5600, some 1600, []) := by decide +kernel
/-- T10. -/
theorem test_advance_delivers : after (.advance 65536 true) { State.reset with hostPrev := some 0 }
    (fun t => (t.vclock, t.master.irr, t.int, t.watermark)) = some (65536, 0x01, true, 65536) := by decide +kernel
/-- C14. -/
theorem test_raise : after (.raise 5) State.reset (fun t => (t.master.irr, t.master.elatch, t.int)) =
    some (0x20, 0x20, true) := by decide +kernel
/-- F1. -/
theorem test_raise_bad : exec (.raise 16) State.reset = .next { State.reset with fault := [.badIrq 16] } := rfl
/-- C29. -/
theorem test_lower : after (.lower 11)
    { State.reset with slave := { State.reset.slave with elcr := 0x08, irr := 0x08, elatch := 0x08 }
                       master := { State.reset.master with irr := 0, elatch := 0x04 } }
    (fun t => (t.slave.irr, t.slave.elatch, t.master.elatch)) = some (0, 0, 0) := by decide +kernel
/-- C18. -/
theorem test_inta : after .inta (requesting 0x08 0 0 0 0 0)
    (fun t => (t.result, t.master.isr, t.master.irr, t.events)) =
      some (.irq (some (3, 0x0B)), 0x08, 0, [.ack 3]) := by decide +kernel
/-- C24. -/
theorem test_inta_slave : after .inta (requesting 0x04 0 0 0x10 0 0)
    (fun t => (t.result, t.master.isr, t.slave.isr, t.events)) =
      some (.irq (some (12, 0x74)), 0x04, 0x10, [.ack 12]) := by decide +kernel
/-- C19. -/
theorem test_isPending : after .isPending (requesting 0x01 0 0x01 0 0 0) (·.result) = some (.bit false) := by
  decide +kernel
/-- S1. -/
theorem test_schedule : after (.schedule 20 500) { State.reset with vclock := 1000 } (fun t => (t.line 20).nextDue) =
    some (some 1500) := by decide +kernel
/-- E5. -/
theorem test_schedule_bounds :
    after (.schedule 20 0x3fffffff) State.reset (fun t => (t.line 20).nextDue) = some none ∧
    after (.schedule 20 0x3ffffffe) State.reset (fun t => (t.line 20).nextDue) = some (some 0x3ffffffe) ∧
    after (.schedule 20 0) State.reset (fun t => (t.line 20).nextDue) = some none := by decide +kernel
/-- K5. -/
theorem test_elapsed : after (.elapsed 2)
    ({ State.reset with vclock := 1000 }.setChan 2 { State.reset.chan 2 with baseTime := 400 }) (·.result) =
      some (.tick 600) := by decide +kernel
/-- S7. -/
theorem test_maySleep : after (.maySleep false false) (requesting 0 0 0x08 0 0 0) (·.result) = some (.bit false) := by
  decide +kernel
/-- S16, for the threshold 65536. -/
theorem test_maySleep_flood :
    ({ State.reset with vclock := 131072, watermark := 65536 } : State).busy 65536 false false = false ∧
    ({ State.reset with vclock := 131073, watermark := 65536 } : State).busy 65536 false false = true := by
  decide +kernel
/-- T5 and T6, for the limit 3. -/
theorem test_livelockCheck :
    ({ State.reset with ifOffCount := 2 } : State).livelockCheck 3 false = { State.reset with ifOffCount := 3 } ∧
    ({ State.reset with ifOffCount := 3 } : State).livelockCheck 3 false =
      { State.reset with events := [.forceIf, .diag .livelockBroken] } := by decide +kernel
/-- F5. -/
theorem test_wideAccess : step { State.reset with inbox := [.wide 0x40 .bits16] } =
    .next { State.reset with fault := [.wideAccess 0x40 .bits16] } := by rfl
/-- The two definitions the host runs: the word of `OUT 0x43, 0x36` is taken by the very next step. -/
theorem test_withFetchWord : decodeTableWord 32 0x1004336 = some (.pitMode 0 .word 3 false) ∧
    step (State.reset.withFetchWord 32 0x1004336) = exec (.pitMode 0 .word 3 false) State.reset :=
  ⟨by decide, rfl⟩

/-! ### Witnesses: the hypotheses of each statement, met -/

/-- IRQ0 was due at 1000 and delivered, channel 0 reloads 1000, and the clock already stands at 2000. -/
def lateTimer : State :=
  { State.reset.setChan 0 { State.reset.chan 0 with counter := .count 1000 } with
    vclock := 2000
    watermark := 1000
    master := { State.reset.master with irr := 0x01, elatch := 0x01 }
    sched := State.reset.sched.set 0 { nextDue := some 1000, lastHonored := some 1000 }
    drive := State.reset.drive.set 0 true }

/-- The state after reset with master input 2 high and requested by a slave request of the given inputs. -/
def cascading (sirr : Byte) : State :=
  { requesting 0x04 0 0 sirr 0 0 with master := { (requesting 0x04 0 0 sirr 0 0).master with elatch := 0x04 } }

theorem test_witness_DecodeOfEncode : ctxAdmits resetCtx (.picOcw1 .master 0xFF) = true ∧
    ctxAdmits { resetCtx with slaveInit := .icw4 } (.picIcw4 .slave true true true true true) = true := by decide

theorem test_witness_EncodeOfDecode : decodeBus resetCtx 0x100430F = .ok (.pitLatch 0) := by decide

theorem test_witness_StepRunsDecoded :
    { State.reset with inbox := [outReq 0x43 0x36] }.inbox = [outReq 0x43 0x36] ∧
    decode State.reset.decodeCtx (outReq 0x43 0x36) = .ok (.pitMode 0 .word 3 false) := ⟨rfl, by decide⟩

theorem test_witness_WideAccessMarks :
    { State.reset with inbox := [.wide 0x4D1 .bits32] }.inbox = [.wide 0x4D1 .bits32] ∧ (0x4D1 : Port) ∈ blockPorts :=
  ⟨rfl, by decide⟩

theorem test_witness_NothingForTheBlock :
    { State.reset with inbox := [outReq 0x44 0] }.inbox = [.bus 0x1004400] ∧ btwPort 0x1004400 ∉ blockPorts ∧
    { State.reset with inbox := [.wide 0x4D2 .bits16] }.inbox = [.wide 0x4D2 .bits16] ∧ (0x4D2 : Port) ∉ blockPorts ∧
    State.reset.inbox = [] := ⟨by decide, by decide, rfl, by decide, rfl⟩

theorem test_witness_BadArgumentsMark : 16 ≤ 16 ∧ 32 ≤ 32 ∧ 3 ≤ 3 := by decide

theorem lateTimer_inv : lateTimer.Inv where
  chans := by
    intro c
    fin_cases c <;>
      exact ⟨fun n h => by cases h; decide, by decide +kernel, fun _ => by decide +kernel, fun h => by cases h⟩
  pics := by
    intro p
    cases p <;> exact ⟨by decide +kernel, by decide +kernel, by decide +kernel, by decide +kernel⟩
  cascade := by decide +kernel
  nominal := by decide +kernel
  watermark := by decide +kernel
  honored := by
    intro l d h
    have hl : l = 0 := by
      have hnone : ∀ k : Line, k ≠ 0 → (lateTimer.line k).lastHonored = none := by decide +kernel
      by_contra hne
      rw [hnone l hne] at h
      cases h
    subst hl
    have hd : (lateTimer.line 0).lastHonored = some 1000 := by decide +kernel
    cases hd.symm.trans h
    exact ⟨by decide +kernel, 1000, by decide +kernel, le_refl _⟩
  driven := by decide +kernel
  livelock := Nat.zero_le _
  faults := by decide +kernel

theorem test_witness_StepKeepsInv :
    { lateTimer with inbox := [.host .isPending] }.inbox = [.host .isPending] ∧ lateTimer.Inv ∧
    ∃ t, step lateTimer = .next t := ⟨rfl, lateTimer_inv, _, rfl⟩

theorem test_witness_ClockNeverGoesBack :
    (∃ t, exec (.advance 5 true) lateTimer = .next t) ∧ (∃ t, exec (.reset .soft) lateTimer = .next t) ∧
    lateTimer.watermark ≤ lateTimer.vclock ∧ Instr.reset .soft ≠ .reset .cold ∧
    ∀ x b, Instr.reset .soft ≠ .advance x b := ⟨⟨_, rfl⟩, ⟨_, rfl⟩, by decide +kernel, by decide, fun _ _ h => by cases h⟩

theorem test_witness_FaultMarksStay :
    (∃ t, exec (.raise 15) lateTimer = .next t) ∧ (Instr.raise 15).wellFormed = true ∧
    (∃ t, exec (.raise 16) lateTimer = .next t) ∧ (Instr.raise 16).wellFormed = false :=
  ⟨⟨_, rfl⟩, by decide, ⟨_, rfl⟩, by decide⟩

theorem test_witness_ChannelsAreThePits :
    (∃ t, exec (.pitDataRead 2) lateTimer = .next t) ∧ writesChannels (.pitDataRead 2) = true ∧
    (∃ t, exec .inta lateTimer = .next t) ∧ writesChannels .inta = false ∧ ∀ kind, Instr.inta ≠ .reset kind :=
  ⟨⟨_, rfl⟩, rfl, ⟨_, rfl⟩, rfl, fun _ h => by cases h⟩

theorem test_witness_SettingsKeepToTheirWriters :
    (∃ t, exec (.picIcw1 .slave false false false true) lateTimer = .next t) ∧
    programsPic .master (.picIcw1 .slave false false false true) = false :=
  ⟨⟨_, rfl⟩, rfl⟩

theorem test_witness_DueTimesMoveOnlyByArming :
    (∃ t, exec (.schedule 30 5) lateTimer = .next t) ∧ mayArm 31 (.schedule 30 5) = false ∧
    (∃ t, exec .inta lateTimer = .next t) ∧ mayArm 1 .inta = false := ⟨⟨_, rfl⟩, by decide, ⟨_, rfl⟩, by decide⟩

theorem test_witness_ServiceStartsWithAcknowledge :
    after .inta lateTimer (fun t => hasBit t.master.isr 0) = some true ∧ hasBit lateTimer.master.isr 0 = false := by
  decide +kernel

theorem test_witness_FreeValuesReachOnlyReads :
    lateTimer.forgetFree = { lateTimer with draws := 7 }.forgetFree ∧
    ∀ i ∈ [Instr.spkrRead, .inta],
      (∃ t, exec i lateTimer = .next t) ∧ ∃ t, exec i { lateTimer with draws := 7 } = .next t := by
  refine ⟨rfl, fun i hi => ?_⟩
  rcases List.mem_pair.1 hi with rfl | rfl <;> exact ⟨⟨_, rfl⟩, _, rfl⟩

theorem test_witness_returnsOpen : returnsOpen .spkrRead = true ∧ returnsOpen .inta = false := by decide

theorem test_witness_CountLatchPendingOrExpired :
    ((State.reset.setChan 0 { State.reset.chan 0 with rlatch := some 0 }).chan 0).rlatch ≠ none := by decide +kernel

theorem test_witness_CountLatchExpired :
    ((State.reset.setChan 2 { State.reset.chan 2 with counter := .expired }).chan 2).counter = .expired ∧
    ((State.reset.setChan 2 { State.reset.chan 2 with counter := .expired }).chan 2).rlatch = none := by decide +kernel

theorem test_witness_CountLatchOneShot : ∀ m ∈ [(0 : BitVec 3), 1], ∀ e ∈ [4, 5, 6],
    ((counting 1 m 5 e).chan 1).rlatch = none ∧ ((counting 1 m 5 e).chan 1).counter = .count 5 ∧
    ((counting 1 m 5 e).chan 1).mode = m ∧ (counting 1 m 5 e).vclock = ((counting 1 m 5 e).chan 1).baseTime + e := by
  decide +kernel

theorem test_witness_CountLatchStrobe : ∀ m ∈ [(4 : BitVec 3), 5], ∀ e ∈ [5, 6],
    ((counting 1 m 5 e).chan 1).rlatch = none ∧ ((counting 1 m 5 e).chan 1).counter = .count 5 ∧
    ((counting 1 m 5 e).chan 1).mode = m ∧ (counting 1 m 5 e).vclock = ((counting 1 m 5 e).chan 1).baseTime + e := by
  decide +kernel

/-- Channel 2 at the last tick of its period, and channel 0 anchored to IRQ0 (P-32). -/
theorem test_witness_CountLatchRateGenerator :
    ((counting 2 2 100 99).chan 2).rlatch = none ∧ ((counting 2 2 100 99).chan 2).counter = .count 100 ∧
    ((counting 2 2 100 99).chan 2).mode = 2 ∧ IsPhase (counting 2 2 100 99) 2 100 99 ∧
    ((counting 0 6 1000 600).chan 0).mode = 6 ∧ IsPhase (counting 0 6 1000 600) 0 1000 64 := by
  unfold IsPhase; decide +kernel

/-- Channel 2 with an odd count on both sides of the middle of its period. -/
theorem test_witness_CountLatchSquareWave :
    ((counting 2 3 5 2).chan 2).rlatch = none ∧ ((counting 2 3 5 2).chan 2).counter = .count 5 ∧
    ((counting 2 3 5 2).chan 2).baseTime ≤ (counting 2 3 5 2).vclock ∧ IsPhase (counting 2 3 5 2) 2 5 2 ∧
    ((counting 2 7 5 3).chan 2).mode = 7 ∧ IsPhase (counting 2 7 5 3) 2 5 3 := by
  unfold IsPhase; decide +kernel

theorem test_witness_ChannelZeroCountsToIrq0 : ∀ v ∈ [64536, 65535],
    ((counting 0 2 1000 v).chan 0).rlatch = none ∧ ((counting 0 2 1000 v).chan 0).counter = .count 1000 ∧
    ((counting 0 2 1000 v).chan 0).mode = 2 ∧ ((counting 0 2 1000 v).line 0).nextDue = some 65536 ∧
    (counting 0 2 1000 v).vclock < 65536 ∧ 65536 ≤ (counting 0 2 1000 v).vclock + 1000 := by decide +kernel

theorem test_witness_StatusLatch :
    ((counting 2 3 5 7).chan 2).baseTime ≤ (counting 2 3 5 7).vclock ∧
    (∀ n, ((counting 2 3 5 7).chan 2).counter = .count n → IsPhase (counting 2 3 5 7) 2 n 2) ∧
    ((counting 2 3 5 7).chan 2).slatch = none ∧
    (((counting 2 3 5 7).setChan 2 { (counting 2 3 5 7).chan 2 with slatch := some 0 }).chan 2).slatch ≠ none := by
  refine ⟨by decide +kernel, fun n h => ?_, by decide +kernel, by decide +kernel⟩
  cases h
  unfold IsPhase
  decide +kernel

/-- The state after reset with channel 1's access width, phases and pending latches as given. -/
def transferring (rw : Rw) (ph : Phase) (sl : Option Byte) (rl : Option Word16) : State :=
  State.reset.setChan 1 { State.reset.chan 1 with rw := rw, rphase := ph, wphase := ph, slatch := sl, rlatch := rl }

theorem test_witness_CountWrite :
    ((transferring .lsb .lo none none).chan 1).rw = .lsb ∧ ((transferring .msb .lo none none).chan 1).rw = .msb ∧
    ((transferring .word .lo none none).chan 1).rw = .word ∧ ((transferring .word .lo none none).chan 1).wphase = .lo ∧
    ((transferring .word .hi none (some 0)).chan 1).wphase = .hi := by decide +kernel

theorem test_witness_CountRead :
    ((transferring .word .lo (some 0x30) none).chan 1).slatch = some 0x30 ∧
    (∀ rw ∈ [Rw.lsb, .msb, .word], ∀ ph ∈ [Phase.lo, .hi],
      ((transferring rw ph none (some 0x1234)).chan 1).slatch = none ∧
      ((transferring rw ph none (some 0x1234)).chan 1).rlatch = some 0x1234 ∧
      ((transferring rw ph none (some 0x1234)).chan 1).rw = rw ∧
      ((transferring rw ph none (some 0x1234)).chan 1).rphase = ph) ∧
    ((transferring .word .lo none none).chan 1).slatch = none ∧
    ((transferring .word .lo none none).chan 1).rlatch = none := by decide +kernel

theorem test_witness_SpeakerRead :
    ((counting 2 3 4 2).chan 2).baseTime ≤ (counting 2 3 4 2).vclock ∧
    ∀ n, ((counting 2 3 4 2).chan 2).counter = .count n → IsPhase (counting 2 3 4 2) 2 n 2 := by
  refine ⟨by decide +kernel, fun n h => ?_⟩
  cases h
  unfold IsPhase
  decide +kernel

theorem test_witness_SpeakerTone : ∀ e ∈ [99, 100],
    ((counting 2 2 100 e).chan 2).mode = 2 ∧ ((counting 2 2 100 e).chan 2).counter = .count 100 ∧
    (counting 2 2 100 e).vclock = ((counting 2 2 100 e).chan 2).baseTime + e ∧ 1 ≤ 100 := by decide +kernel

theorem test_witness_ElapsedTicks : (counting 2 3 4 9).vclock = ((counting 2 3 4 9).chan 2).baseTime + 9 := by
  decide +kernel

theorem test_witness_InitializationSequence : (0x11 : Byte).getLsbD 4 = true ∧ (0x12 : Byte).getLsbD 4 = true := by
  decide

theorem test_witness_IntaNothing : ∀ i, ¬Eligible State.reset .master i := by
  unfold Eligible IsHighest Pic.Blocks
  decide +kernel

/-- The last master line, and line 2 with nothing on the slave. -/
theorem test_witness_IntaMasterLine :
    Eligible (requesting 0x80 0 0 0 0 0) .master 7 ∧ (7 : Input) ≠ 0 ∧ (7 : Input) ≠ Config.cascadeIn ∧
    Eligible (requesting 0x04 0 0 0 0 0) .master 2 ∧ ∀ j, ¬Eligible (requesting 0x04 0 0 0 0 0) .slave j := by
  unfold Eligible IsHighest Pic.Blocks
  decide +kernel

theorem test_witness_IntaSlaveLine :
    Eligible (cascading 0x10) .master Config.cascadeIn ∧ Eligible (cascading 0x10) .slave 4 ∧
    hasBit (cascading 0x10).master.elatch Config.cascadeIn = (cascading 0x10).slaveOut := by
  unfold Eligible IsHighest Pic.Blocks
  decide +kernel

theorem test_witness_TimerAcknowledgeRearms :
    Eligible lateTimer .master 0 ∧ ∀ n, (lateTimer.chan 0).counter = .count n → 1 ≤ n ∧ n ≤ 65536 := by
  refine ⟨?_, fun n h => by cases h; decide⟩
  unfold Eligible IsHighest Pic.Blocks
  decide +kernel

/-- The re-armed due time is the clock itself. -/
theorem test_witness_TimerCatchesUp :
    lateTimer.Inv ∧ Eligible lateTimer .master 0 ∧ lateTimer.drives 0 = true ∧
    (lateTimer.chan 0).counter = .count 1000 ∧ (lateTimer.line 0).nextDue = some 1000 ∧
    (lateTimer.line 0).lastHonored = some 1000 ∧ 1000 + 1000 ≤ lateTimer.vclock := by
  refine ⟨lateTimer_inv, test_witness_TimerAcknowledgeRearms.1, ?_⟩
  decide +kernel

theorem cascading_eligible :
    Eligible (cascading 0x02) .master Config.cascadeIn ∧ Eligible (cascading 0x02) .slave 1 := by
  unfold Eligible IsHighest Pic.Blocks
  decide +kernel

/-- A poll of the master for a slave request, of the slave for it, and of the master for line 2 itself. -/
theorem test_witness_PollAcknowledges :
    (Eligible (cascading 0x02) .master Config.cascadeIn ∧ ∃ j, Eligible (cascading 0x02) .slave j) ∧
    Eligible (cascading 0x02) .slave 1 ∧ irqOf .slave 1 ≠ 0 ∧ irqOf .master Config.cascadeIn ≠ 0 ∧
    hasBit (cascading 0x02).master.elatch Config.cascadeIn = (cascading 0x02).slaveOut ∧
    hasBit (requesting 0x04 0 0 0 0 0).master.elatch Config.cascadeIn = (requesting 0x04 0 0 0 0 0).slaveOut ∧
    Eligible (requesting 0x04 0 0 0 0 0) .master 2 ∧ ∀ j, ¬Eligible (requesting 0x04 0 0 0 0 0) .slave j :=
  ⟨⟨cascading_eligible.1, 1, cascading_eligible.2⟩, cascading_eligible.2, by decide, by decide, by decide +kernel,
    by decide +kernel, test_witness_IntaMasterLine.2.2.2⟩

theorem test_witness_PollNothing : ∀ p i, ¬Eligible State.reset p i := by
  unfold Eligible IsHighest Pic.Blocks
  rintro (_ | _) <;> decide +kernel

theorem test_witness_LivelockBreakerPeriod :
    State.reset.ifOffCount = 0 ∧ ([] : List HostTick).length ≤ Config.ifStuckLimit := ⟨rfl, Nat.zero_le _⟩

theorem test_witness_SecondPassDeliversNothing : ∃ t, exec (.advance 5 true) lateTimer = .next t := ⟨_, rfl⟩

theorem phaseKept_cons {l : Line} {iv : Int} {i : Instr} {is : List Instr} {s t : State} (h : exec i s = .next t)
    (hr : ∀ kind, i ≠ .reset kind) (hs : ∀ jv, i = .schedule l.val jv → jv = iv)
    (ha : l = 0 → .ack 0 ∈ t.events → (s.chan 0).counter = .count iv.toNat) (ht : PhaseKept l iv is t) :
    PhaseKept l iv (i :: is) s := by
  intro u hu
  rw [h] at hu
  injection hu with hu
  exact hu ▸ ⟨hr, hs, ha, ht⟩

/-- Line 0 armed by its acknowledge and by SCHEDULE, with channel 0 counting the same interval. -/
theorem test_witness_PhaseLock :
    (0 : Int) < 1000 ∧ (1000 : Int) < 0x3fffffff ∧ (lateTimer.line 0).nextDue = some 1000 ∧
    PhaseKept 0 1000 [.inta, .schedule 0 1000] lateTimer ∧ rearmCount 0 [.inta, .schedule 0 1000] lateTimer = 2 ∧
    ∃ t, execSeq [.inta, .schedule 0 1000] lateTimer = some t := by
  refine ⟨by decide, by decide, by decide +kernel, ?_, by decide +kernel, _, rfl⟩
  refine phaseKept_cons (t := lateTimer.startOp.takeInterrupt) rfl nofun nofun (fun _ _ => by decide +kernel) ?_
  refine phaseKept_cons (t := lateTimer.startOp.takeInterrupt.startOp.schedule 0 1000) rfl nofun ?_ ?_ trivial
  · intro jv h
    injection h with _ h
    exact h.symm
  · exact fun _ h => absurd h (by decide +kernel)

/-- The requests of the two PICs after a pass in which line l alone is due. -/
def requestsOfDueLine (l : Line) : Option (Byte × Byte) :=
  match exec (.advance 0 true) (State.reset.setLine l { nextDue := some 0, lastHonored := none }) with
  | .next t => some (t.master.irr, t.slave.irr)
  | .fault _ => none
  | .refused _ => none

/-- Vector S12: a due slave line requests master input 2. -/
theorem test_due_slave_line_requests_cascade : requestsOfDueLine 8 = some (0x04, 0x01) := by decide +kernel

/-- Vector S13: line 2 itself requests master input 2. -/
theorem test_due_line2_requests_cascade : requestsOfDueLine 2 = some (0x04, 0x00) := by decide +kernel

end Sys2Proof.Tests
end

section
/-! PROOFS of the statements of 00_scope.md: a step runs the operation its request decodes to (R14, R70), every operation
completes (R14, R320), and the open values reach only reads (R12, R382). -/

namespace Sys2Proof.Machine

/-! ### Taking a request (R71) -/

theorem fetch_cons {s : State} {r : Request} {rest : List Request} (h : s.inbox = r :: rest) :
    fetch s = some (r, { s with inbox := rest }) := by
  simp [fetch, h]

/-- Settles O6: decoding reads nothing of `inbox`, so the request taken decodes in the context it is given in. -/
theorem stepRunsDecoded : Obligations.StepRunsDecoded := by
  intro s r rest i hinbox hdecode
  have hctx : ({ s with inbox := rest } : State).decodeCtx = s.decodeCtx := rfl
  simp only [step, fetch_cons hinbox, hctx, hdecode]

/-! ### The host calls that take a number (R321) -/

theorem exec_raise_inRange {l : Nat} (h : l < 16) (s : State) :
    exec (.raise l) s = .next (s.startOp.picRaise ⟨l, h⟩) := dif_pos h

theorem exec_raise_outOfRange {l : Nat} (h : ¬l < 16) (s : State) :
    exec (.raise l) s = .next (s.startOp.raiseFault (.badIrq l)) := dif_neg h

theorem exec_lower_inRange {l : Nat} (h : l < 16) (s : State) :
    exec (.lower l) s = .next (s.startOp.picLower ⟨l, h⟩) := dif_pos h

theorem exec_lower_outOfRange {l : Nat} (h : ¬l < 16) (s : State) :
    exec (.lower l) s = .next (s.startOp.raiseFault (.badIrq l)) := dif_neg h

theorem exec_schedule_inRange {l : Nat} (h : l < 32) (iv : Int) (s : State) :
    exec (.schedule l iv) s = .next (s.startOp.schedule ⟨l, h⟩ iv) := dif_pos h

theorem exec_schedule_outOfRange {l : Nat} (h : ¬l < 32) (iv : Int) (s : State) :
    exec (.schedule l iv) s = .next (s.startOp.raiseFault (.badLine l)) := dif_neg h

theorem exec_elapsed_inRange {c : Nat} (h : c < 3) (s : State) :
    exec (.elapsed c) s = .next (s.startOp.answer (.tick (s.elapsed ⟨c, h⟩))) := dif_pos h

theorem exec_elapsed_outOfRange {c : Nat} (h : ¬c < 3) (s : State) :
    exec (.elapsed c) s = .next (s.startOp.raiseFault (.badChannel c)) := dif_neg h

/-- Settles O9: the four calls that take a number complete in and out of its range, every other operation is one
`Outcome.next`. -/
theorem everyOperationCompletes : Obligations.EveryOperationCompletes := by
  intro i s
  cases i with
  | raise l =>
    by_cases h : l < 16
    · exact ⟨_, exec_raise_inRange h s⟩
    · exact ⟨_, exec_raise_outOfRange h s⟩
  | lower l =>
    by_cases h : l < 16
    · exact ⟨_, exec_lower_inRange h s⟩
    · exact ⟨_, exec_lower_outOfRange h s⟩
  | schedule l iv =>
    by_cases h : l < 32
    · exact ⟨_, exec_schedule_inRange h iv s⟩
    · exact ⟨_, exec_schedule_outOfRange h iv s⟩
  | elapsed c =>
    by_cases h : c < 3
    · exact ⟨_, exec_elapsed_inRange h s⟩
    · exact ⟨_, exec_elapsed_outOfRange h s⟩
  | _ => exact ⟨_, rfl⟩

/-! ### Forgetting the free values

`forgetLatches` forgets the values drawn and the contents of pending count latches, and keeps the last result. Every
operation but those that latch or return a free value commutes with it. -/

/-- The channel with the contents of a pending count latch forgotten. -/
def Channel.forgetLatch (x : Channel) : Channel := { x with rlatch := x.rlatch.map fun _ => 0 }

/-- The state with the count of values drawn and the contents of pending count latches forgotten. -/
def State.forgetLatches (s : State) : State := { s with draws := 0, ch := s.ch.map Channel.forgetLatch }

@[simp] theorem State.forgetFree_answer (s : State) (r : Result) : (s.answer r).forgetFree = s.forgetFree := rfl

theorem State.forgetFree_eq_answer (s : State) : s.forgetFree = s.forgetLatches.answer .nothing := rfl

section
variable (x : Channel)
@[simp] theorem Channel.forgetLatch_mode : x.forgetLatch.mode = x.mode := rfl
@[simp] theorem Channel.forgetLatch_rw : x.forgetLatch.rw = x.rw := rfl
@[simp] theorem Channel.forgetLatch_bcd : x.forgetLatch.bcd = x.bcd := rfl
@[simp] theorem Channel.forgetLatch_counter : x.forgetLatch.counter = x.counter := rfl
@[simp] theorem Channel.forgetLatch_outputPin : x.forgetLatch.outputPin = x.outputPin := rfl
@[simp] theorem Channel.forgetLatch_rlatch : x.forgetLatch.rlatch = x.rlatch.map fun _ => 0 := rfl
@[simp] theorem Channel.forgetLatch_slatch : x.forgetLatch.slatch = x.slatch := rfl
@[simp] theorem Channel.forgetLatch_wphase : x.forgetLatch.wphase = x.wphase := rfl
@[simp] theorem Channel.forgetLatch_wlatch : x.forgetLatch.wlatch = x.wlatch := rfl
@[simp] theorem Channel.forgetLatch_baseTime : x.forgetLatch.baseTime = x.baseTime := rfl

theorem Channel.forgetLatch_latched (r : Reading) (v w : Word16) :
    (x.latched r v).forgetLatch = (x.forgetLatch.latched r w).forgetLatch := rfl

@[simp] theorem Channel.forgetLatch_programmed (rw : Rw) (m : BitVec 3) (bcd : Bool) :
    (x.programmed rw m bcd).forgetLatch = x.forgetLatch.programmed rw m bcd := rfl

@[simp] theorem Channel.forgetLatch_reset (cfg : ChannelConfig) (now : Tick) :
    (Channel.reset cfg now).forgetLatch = Channel.reset cfg now := rfl

theorem Channel.forgetLatch_afterCountRead : x.afterCountRead.forgetLatch = x.forgetLatch.afterCountRead := by
  rcases x with ⟨_, _ | _ | _, _, _, _, _, _, _ | _, _, _, _⟩ <;> rfl
end

section
variable (s : State)

/-! ### What is read is kept -/

@[simp] theorem State.forgetLatches_vclock : s.forgetLatches.vclock = s.vclock := rfl
@[simp] theorem State.forgetLatches_ifOffCount : s.forgetLatches.ifOffCount = s.ifOffCount := rfl
@[simp] theorem State.forgetLatches_result : s.forgetLatches.result = s.result := rfl
@[simp] theorem State.forgetLatches_line (l : Line) : s.forgetLatches.line l = s.line l := rfl
@[simp] theorem State.forgetLatches_chan (c : Chan) : s.forgetLatches.chan c = (s.chan c).forgetLatch := by
  simp [State.forgetLatches, State.chan]
@[simp] theorem State.forgetLatches_resolve (p : PicId) : s.forgetLatches.resolve p = s.resolve p := rfl
@[simp] theorem State.forgetLatches_elapsed (c : Chan) : s.forgetLatches.elapsed c = s.elapsed c := by
  simp [State.elapsed]
@[simp] theorem State.forgetLatches_phase (c : Chan) (n : Nat) : s.forgetLatches.phase c n = s.phase c n := by
  simp [State.phase]
@[simp] theorem State.forgetLatches_eval (c : Chan) : s.forgetLatches.eval c = s.eval c := by
  simp [State.eval]
@[simp] theorem State.forgetLatches_statusByte (c : Chan) : s.forgetLatches.statusByte c = s.statusByte c := by
  simp [State.statusByte, State.nullCount]
@[simp] theorem State.forgetLatches_pollRunsAck (p : PicId) (i : Input) :
    s.forgetLatches.pollRunsAck p i = s.pollRunsAck p i := rfl

/-! ### What commutes -/

@[simp] theorem State.forgetLatches_forgetLatches : s.forgetLatches.forgetLatches = s.forgetLatches := by
  have hch : Channel.forgetLatch ∘ Channel.forgetLatch = Channel.forgetLatch := by
    funext x
    simp [Channel.forgetLatch, Function.comp_def]
  simp [State.forgetLatches, hch]

@[simp] theorem State.forgetLatches_startOp : s.startOp.forgetLatches = s.forgetFree.startOp := rfl
@[simp] theorem State.forgetLatches_answer (r : Result) : (s.answer r).forgetLatches = s.forgetLatches.answer r := rfl
@[simp] theorem State.forgetLatches_emit (e : Event) : (s.emit e).forgetLatches = s.forgetLatches.emit e := rfl
@[simp] theorem State.forgetLatches_drawn : s.drawn.forgetLatches = s.forgetLatches := rfl
@[simp] theorem State.forgetLatches_setLine (l : Line) (x : SchedLine) :
    (s.setLine l x).forgetLatches = s.forgetLatches.setLine l x := rfl
@[simp] theorem State.forgetLatches_setChan (c : Chan) (x : Channel) :
    (s.setChan c x).forgetLatches = s.forgetLatches.setChan c x.forgetLatch := by
  simp [State.forgetLatches, State.setChan, Vector.map_set]
@[simp] theorem State.forgetLatches_update : s.update.forgetLatches = s.forgetLatches.update := rfl

theorem State.forgetLatches_deliver (l : Line) : (s.deliver l).forgetLatches = s.forgetLatches.deliver l := by
  unfold State.deliver
  split <;> rfl

theorem activateLine_forgetLatches (a : State × Option Tick) (l : Line) :
    activateLine (a.map State.forgetLatches id) l = (activateLine a l).map State.forgetLatches id := by
  unfold activateLine
  simp only [Prod.map_fst, Prod.map_snd, State.forgetLatches_line, State.forgetLatches_vclock, id]
  cases (a.1.line l).nextDue with
  | none => rfl
  | some d =>
    by_cases hdue : d ≤ a.1.vclock
    · by_cases hhonored : (a.1.line l).lastHonored = some d <;> simp [hdue, hhonored, State.forgetLatches_deliver]
    · simp [hdue]

@[simp] theorem State.forgetLatches_activate : s.activate.forgetLatches = s.forgetLatches.activate := by
  have hfold := List.foldl_hom (Prod.map State.forgetLatches id) (init := (s, none)) (l := List.finRange 32)
    activateLine_forgetLatches
  simp only [Prod.map_apply, id] at hfold
  unfold State.activate
  rw [hfold]
  generalize (List.finRange 32).foldl activateLine (s, none) = a
  rfl

@[simp] theorem State.forgetLatches_schedule (l : Line) (iv : Int) :
    (s.schedule l iv).forgetLatches = s.forgetLatches.schedule l iv := by
  simp [State.schedule]

theorem State.forgetLatches_releaseDrive (l : Irq) :
    (s.releaseDrive l).forgetLatches = s.forgetLatches.releaseDrive l := by
  cases hd : s.drives l with
  | false => rw [releaseDrive_idle hd, releaseDrive_idle (s := s.forgetLatches) hd]
  | true => rw [releaseDrive_driven hd, releaseDrive_driven (s := s.forgetLatches) hd]; rfl

@[simp] theorem State.forgetLatches_ack (l : Irq) : (s.ack l).forgetLatches = s.forgetLatches.ack l := by
  by_cases hl : l = 0
  · subst hl
    rw [ack_timer, ack_timer, ← State.forgetLatches_releaseDrive]
    simp
  · rw [ack_other hl, ack_other hl, ← State.forgetLatches_releaseDrive]
    simp

@[simp] theorem State.forgetLatches_finishEntry (l : Irq) (v : Byte) :
    (s.finishEntry l v).forgetLatches = s.forgetLatches.finishEntry l v := by
  simp [State.finishEntry]

theorem State.forgetLatches_takeInterrupt : s.takeInterrupt.forgetLatches = s.forgetLatches.takeInterrupt := by
  have hslave : ∀ i, (s.forgetLatches.intack .master i).resolve .slave = (s.intack .master i).resolve .slave :=
    fun _ => rfl
  unfold State.takeInterrupt
  simp only [State.forgetLatches_resolve]
  cases s.resolve .master with
  | none => rfl
  | some i =>
    by_cases hi : i = Config.cascadeIn
    · simp only [if_pos hi, hslave]
      cases (s.intack .master i).resolve .slave with
      | none => exact State.forgetLatches_finishEntry _ _ _
      | some j => exact State.forgetLatches_finishEntry _ _ _
    · simp only [if_neg hi]
      exact State.forgetLatches_finishEntry _ _ _

@[simp] theorem State.forgetLatches_load (c : Chan) (v : Word16) :
    (s.load c v).forgetLatches = s.forgetLatches.load c v := by
  simp only [State.load, State.forgetLatches_chan, State.forgetLatches_vclock]
  exact congrArg (fun u : State => { u with pit0Nominal := if c = 0 then nominalOf (reloadOf v) else u.pit0Nominal })
    (s.forgetLatches_setChan c { s.chan c with counter := .count (reloadOf v), baseTime := s.vclock })

theorem State.forgetLatches_writeCount (c : Chan) (v : Byte) :
    (s.writeCount c v).forgetLatches = s.forgetLatches.writeCount c v := by
  unfold State.writeCount
  simp only [State.forgetLatches_chan, Channel.forgetLatch_rw, Channel.forgetLatch_wphase, Channel.forgetLatch_wlatch]
  cases (s.chan c).rw with
  | lsb => exact s.forgetLatches_load c _
  | msb => exact s.forgetLatches_load c _
  | word =>
    cases (s.chan c).wphase with
    | lo => exact s.forgetLatches_setChan c _
    | hi =>
      simp only [State.forgetLatches_load, State.forgetLatches_setChan]
      rfl

theorem State.forgetLatches_latchStatus (c : Chan) :
    (s.latchStatus c).forgetLatches = s.forgetLatches.latchStatus c := by
  cases hb : (s.chan c).slatch with
  | some b => rw [latchStatus_pending hb, latchStatus_pending (s := s.forgetLatches) (b := b) (by simp [hb])]
  | none =>
    rw [latchStatus_free hb, latchStatus_free (s := s.forgetLatches) (by simp [hb]), State.forgetLatches_setChan,
      State.forgetLatches_statusByte, State.forgetLatches_chan]
    rfl

theorem State.forgetLatches_timeUpdate (t : HostTick) :
    (s.timeUpdate t).forgetLatches = s.forgetLatches.timeUpdate t := rfl

theorem State.forgetLatches_livelockCheck (limit : Nat) (guestIf : Bool) :
    (s.livelockCheck limit guestIf).forgetLatches = s.forgetLatches.livelockCheck limit guestIf := by
  unfold State.livelockCheck
  simp only [State.forgetLatches_ifOffCount]
  cases guestIf with
  | true => rfl
  | false => by_cases hstuck : s.ifOffCount + 1 > limit <;> simp only [hstuck] <;> rfl

theorem State.forgetLatches_resetFields (kind : ResetKind) :
    (s.resetFields kind).forgetLatches = s.forgetLatches.resetFields kind := by
  simp [State.forgetLatches, State.resetFields]

/-! ### What latches or returns a free value -/

/-- Latching a count latches some content on both sides, and draws or not: nothing else tells the states apart. -/
theorem State.forgetLatches_latchCount (c : Chan) :
    (s.latchCount c).forgetLatches = (s.forgetLatches.latchCount c).forgetLatches := by
  cases hr : (s.chan c).rlatch with
  | some v =>
    rw [latchCount_pending hr, latchCount_pending (s := s.forgetLatches) (v := 0) (by simp [hr]),
      State.forgetLatches_forgetLatches]
  | none =>
    have hr' : (s.forgetLatches.chan c).rlatch = none := by simp [hr]
    cases hk : (s.eval c).cnt with
    | some k =>
      rw [latchCount_known hr hk, latchCount_known hr' (k := k) (by simpa using hk)]
      simp [Channel.forgetLatch_latched (s.chan c) (s.eval c) (BitVec.ofNat 16 k) (BitVec.ofNat 16 k)]
    | none =>
      rw [latchCount_unknown hr hk, latchCount_unknown hr' (by simpa using hk)]
      simp [Channel.forgetLatch_latched (s.chan c) (s.eval c) (Config.draw16 s.draws)
        (Config.draw16 s.forgetLatches.draws)]

theorem State.readCount_status {c : Chan} {b : Byte} (hb : (s.chan c).slatch = some b) :
    s.readCount c = (s.setChan c { s.chan c with slatch := none }).answer (.byte b) := by
  simp [State.readCount, hb]

theorem State.readCount_count {c : Chan} (hb : (s.chan c).slatch = none) : ∃ r, s.readCount c =
    ((s.latchCount c).setChan c ((s.latchCount c).chan c).afterCountRead).answer r := by
  obtain ⟨v, hv⟩ := Option.isSome_iff_exists.1 (latchCount_rlatch_isSome s c)
  exact ⟨.byte (((s.latchCount c).chan c).latchByte v), by simp only [State.readCount, hb, hv]⟩

theorem State.forgetLatches_clearStatus (c : Chan) : (s.setChan c { s.chan c with slatch := none }).forgetLatches =
    s.forgetLatches.setChan c { s.forgetLatches.chan c with slatch := none } := by
  simp only [State.forgetLatches_setChan, State.forgetLatches_chan]
  rfl

theorem State.forgetLatches_afterCountRead (c : Chan) : (s.setChan c (s.chan c).afterCountRead).forgetLatches =
    s.forgetLatches.setChan c (s.forgetLatches.chan c).afterCountRead := by
  simp [Channel.forgetLatch_afterCountRead]

end

/-! ### Two states that differ in free values only -/

section
variable {s t : State} (h : s.forgetLatches = t.forgetLatches)
include h

theorem State.forgetFree_congr : s.forgetFree = t.forgetFree := by
  rw [s.forgetFree_eq_answer, h, ← t.forgetFree_eq_answer]

theorem State.latchCount_congr (c : Chan) : (s.latchCount c).forgetLatches = (t.latchCount c).forgetLatches := by
  rw [s.forgetLatches_latchCount, h, ← t.forgetLatches_latchCount]

theorem State.latchStatus_congr (c : Chan) : (s.latchStatus c).forgetLatches = (t.latchStatus c).forgetLatches := by
  rw [s.forgetLatches_latchStatus, h, ← t.forgetLatches_latchStatus]

theorem State.readbackChan_congr (countN statusN : Bool) (c : Chan) :
    (s.readbackChan countN statusN c).forgetLatches = (t.readbackChan countN statusN c).forgetLatches := by
  cases statusN with
  | true =>
    cases countN with
    | true => exact h
    | false => exact State.latchCount_congr h c
  | false =>
    cases countN with
    | true => exact State.latchStatus_congr h c
    | false => exact State.latchCount_congr (State.latchStatus_congr h c) c

theorem State.readbackChan_if_congr (selected countN statusN : Bool) (c : Chan) :
    (if selected then s.readbackChan countN statusN c else s).forgetLatches =
      (if selected then t.readbackChan countN statusN c else t).forgetLatches := by
  cases selected with
  | true => exact State.readbackChan_congr h countN statusN c
  | false => exact h

theorem State.readCount_congr (c : Chan) : (s.readCount c).forgetFree = (t.readCount c).forgetFree := by
  have hslatch : (s.chan c).slatch = (t.chan c).slatch := by
    simpa using congrArg (fun u : State => (u.chan c).slatch) h
  cases hs : (s.chan c).slatch with
  | some b =>
    rw [s.readCount_status hs, t.readCount_status (hslatch ▸ hs), State.forgetFree_answer, State.forgetFree_answer]
    exact State.forgetFree_congr (by rw [s.forgetLatches_clearStatus, h, ← t.forgetLatches_clearStatus])
  | none =>
    obtain ⟨r, hr⟩ := s.readCount_count hs
    obtain ⟨r', hr'⟩ := t.readCount_count (hslatch ▸ hs)
    rw [hr, hr', State.forgetFree_answer, State.forgetFree_answer]
    exact State.forgetFree_congr (by
      rw [State.forgetLatches_afterCountRead, State.latchCount_congr h, ← State.forgetLatches_afterCountRead])

theorem State.ack_congr (l : Irq) : (s.ack l).forgetLatches = (t.ack l).forgetLatches := by
  rw [s.forgetLatches_ack, h, ← t.forgetLatches_ack]

theorem State.ack_if_pollRunsAck_congr (p : PicId) (i : Input) :
    (if s.pollRunsAck p i then s.ack (irqOf p i) else s).forgetLatches =
      (if t.pollRunsAck p i then t.ack (irqOf p i) else t).forgetLatches := by
  have hruns : s.pollRunsAck p i = t.pollRunsAck p i := by
    rw [← s.forgetLatches_pollRunsAck, h, t.forgetLatches_pollRunsAck]
  rw [hruns]
  split
  · exact State.ack_congr h _
  · exact h

theorem State.clearPoll_congr (p : PicId) : (s.setPic p { s.pic p with poll := false }).forgetLatches =
    (t.setPic p { t.pic p with poll := false }).forgetLatches :=
  congrArg (fun u : State => u.setPic p { u.pic p with poll := false }) h

theorem State.intack_update_congr (p : PicId) (i : Input) :
    (s.intack p i).update.forgetLatches = (t.intack p i).update.forgetLatches :=
  congrArg (fun u : State => (u.intack p i).update) h

theorem State.pollRead_congr (p : PicId) : (s.pollRead p).forgetFree = (t.pollRead p).forgetFree := by
  have hresolve : s.resolve p = t.resolve p := by rw [← s.forgetLatches_resolve, h, t.forgetLatches_resolve]
  have hclear := State.clearPoll_congr h p
  obtain ⟨hs, es⟩ | ⟨i, hs, es⟩ := pollRead_cases s p <;> obtain ⟨ht, et⟩ | ⟨j, ht, et⟩ := pollRead_cases t p
  · rw [es, et, State.forgetFree_answer, State.forgetFree_answer]
    exact State.forgetFree_congr hclear
  · simp [hs, ht] at hresolve
  · simp [hs, ht] at hresolve
  · obtain rfl : i = j := by simpa [hs, ht] using hresolve
    rw [es, et, State.forgetFree_answer, State.forgetFree_answer]
    exact State.forgetFree_congr (State.ack_if_pollRunsAck_congr (State.intack_update_congr hclear p i) p i)
end

/-! ### Every operation -/

open Sys2Proof.Claims (returnsOpen)

/-- The commands that latch a count, each of which may draw a free value for the latch's contents. -/
def latchesCount : Instr → Bool
  | .pitLatch _ | .pitReadback .. => true
  | _ => false

/-- An operation that neither latches nor returns a free value does the same with the free values forgotten. Those not
named below read nothing of the channels and write nothing but PICs, the port-0x61 byte and their answer. -/
theorem exec_forgetFree {i : Instr} (hopen : returnsOpen i = false) (hlatch : latchesCount i = false) (s : State) :
    ∃ t, exec i s = .next t ∧ exec i s.forgetFree = .next t.forgetLatches := by
  cases i with
  | pitLatch c => nomatch hlatch
  | pitReadback countN statusN cnt2 cnt1 cnt0 => nomatch hlatch
  | pitDataRead c => nomatch hopen
  | picReadPoll p dataPort => nomatch hopen
  | spkrRead => nomatch hopen
  | pitMode c rw m bcd =>
    refine ⟨_, rfl, congrArg Host.Outcome.next (Eq.symm ?_)⟩
    rw [State.forgetLatches_setChan, Channel.forgetLatch_programmed, ← State.forgetLatches_chan]
    rfl
  | pitDataWrite c v => exact ⟨_, rfl, congrArg Host.Outcome.next (s.startOp.forgetLatches_writeCount c v).symm⟩
  | reset kind =>
    refine ⟨_, rfl, congrArg Host.Outcome.next (Eq.symm ?_)⟩
    rw [State.forgetLatches_schedule, State.forgetLatches_resetFields]
    rfl
  | advance x guestIf =>
    refine ⟨_, rfl, congrArg Host.Outcome.next (Eq.symm ?_)⟩
    rw [State.forgetLatches_activate, State.forgetLatches_livelockCheck, State.forgetLatches_timeUpdate]
    rfl
  | inta => exact ⟨_, rfl, congrArg Host.Outcome.next s.startOp.forgetLatches_takeInterrupt.symm⟩
  | raise l =>
    by_cases hl : l < 16
    · exact ⟨_, exec_raise_inRange hl s, exec_raise_inRange hl _⟩
    · exact ⟨_, exec_raise_outOfRange hl s, exec_raise_outOfRange hl _⟩
  | lower l =>
    by_cases hl : l < 16
    · exact ⟨_, exec_lower_inRange hl s, exec_lower_inRange hl _⟩
    · exact ⟨_, exec_lower_outOfRange hl s, exec_lower_outOfRange hl _⟩
  | schedule l iv =>
    by_cases hl : l < 32
    · refine ⟨_, exec_schedule_inRange hl iv s, ?_⟩
      rw [exec_schedule_inRange hl, State.forgetLatches_schedule, State.forgetLatches_startOp]
    · exact ⟨_, exec_schedule_outOfRange hl iv s, exec_schedule_outOfRange hl iv _⟩
  | elapsed c =>
    by_cases hc : c < 3
    · refine ⟨_, exec_elapsed_inRange hc s, ?_⟩
      rw [exec_elapsed_inRange hc, State.forgetLatches_answer, ← s.forgetLatches_elapsed]
      rfl
    · exact ⟨_, exec_elapsed_outOfRange hc s, exec_elapsed_outOfRange hc _⟩
  | _ => exact ⟨_, rfl, rfl⟩

/-- Two states that differ in free values only still do so after any operation that returns none, with the same
result. -/
theorem exec_forgetLatches_congr {i : Instr} {s₁ s₂ t₁ t₂ : State} (hopen : returnsOpen i = false)
    (h : s₁.forgetFree = s₂.forgetFree) (h₁ : exec i s₁ = .next t₁) (h₂ : exec i s₂ = .next t₂) :
    t₁.forgetLatches = t₂.forgetLatches := by
  cases hlatch : latchesCount i with
  | false =>
    obtain ⟨u₁, e₁, f₁⟩ := exec_forgetFree hopen hlatch s₁
    obtain ⟨u₂, e₂, f₂⟩ := exec_forgetFree hopen hlatch s₂
    obtain rfl := Host.Outcome.next.inj (e₁.symm.trans h₁)
    obtain rfl := Host.Outcome.next.inj (e₂.symm.trans h₂)
    rw [h, f₂] at f₁
    exact (Host.Outcome.next.inj f₁).symm
  | true =>
    have hstart : s₁.startOp.forgetLatches = s₂.startOp.forgetLatches := congrArg State.startOp h
    cases i with
    | pitLatch c =>
      obtain ⟨rfl, rfl⟩ := And.intro (Host.Outcome.next.inj h₁) (Host.Outcome.next.inj h₂)
      exact State.latchCount_congr hstart c
    | pitReadback countN statusN cnt2 cnt1 cnt0 =>
      obtain ⟨rfl, rfl⟩ := And.intro (Host.Outcome.next.inj h₁) (Host.Outcome.next.inj h₂)
      have hzero := State.readbackChan_if_congr hstart cnt0 countN statusN 0
      have hone := State.readbackChan_if_congr hzero cnt1 countN statusN 1
      exact State.readbackChan_if_congr hone cnt2 countN statusN 2
    | _ => nomatch hlatch

/-- Two states that differ in free values only still do so after a read that may return one. -/
theorem exec_openRead_congr {i : Instr} {s₁ s₂ t₁ t₂ : State} (hopen : returnsOpen i = true)
    (h : s₁.forgetFree = s₂.forgetFree) (h₁ : exec i s₁ = .next t₁) (h₂ : exec i s₂ = .next t₂) :
    t₁.forgetFree = t₂.forgetFree := by
  have hstart : s₁.startOp.forgetLatches = s₂.startOp.forgetLatches := congrArg State.startOp h
  cases i with
  | pitDataRead c =>
    obtain ⟨rfl, rfl⟩ := And.intro (Host.Outcome.next.inj h₁) (Host.Outcome.next.inj h₂)
    exact State.readCount_congr hstart c
  | picReadPoll p dataPort =>
    obtain ⟨rfl, rfl⟩ := And.intro (Host.Outcome.next.inj h₁) (Host.Outcome.next.inj h₂)
    exact State.pollRead_congr hstart p
  | spkrRead =>
    obtain ⟨rfl, rfl⟩ := And.intro (Host.Outcome.next.inj h₁) (Host.Outcome.next.inj h₂)
    have hfree := State.forgetFree_congr hstart
    exact hfree
  | _ => nomatch hopen

/-- Settles O19: forgetting the free values commutes with every operation, up to the contents of the count latches
taken and, for the three reads, up to what they return. -/
theorem freeValuesReachOnlyReads : Obligations.FreeValuesReachOnlyReads := by
  intro i s₁ s₂ t₁ t₂ h h₁ h₂
  cases hopen : returnsOpen i with
  | true => exact ⟨exec_openRead_congr hopen h h₁ h₂, fun hclosed => nomatch hclosed⟩
  | false =>
    have hkept := exec_forgetLatches_congr hopen h h₁ h₂
    exact ⟨State.forgetFree_congr hkept, fun _ => by rw [← t₁.forgetLatches_result, hkept, t₂.forgetLatches_result]⟩

end Sys2Proof.Machine
end

section
/-! PROOFS of the statements of 10_state.md: every step keeps the invariant (R44), the clock never goes back (R121), and
each field changes only by the operations that write it (R20, R34, R158). -/

namespace Sys2Proof.Machine

/-! ### What a PIC keeps while it serves requests (R34, R251) -/

/-- `y` is `x` but for its requests, its service, its edge latches, its rotation and a pending poll. -/
def Pic.SameSettings (x y : Pic) : Prop :=
  y = { x with irr := y.irr, isr := y.isr, elatch := y.elatch, prio := y.prio, poll := y.poll }

theorem Pic.SameSettings.refl (x : Pic) : x.SameSettings x := rfl

theorem Pic.SameSettings.trans {x y z : Pic} (h : x.SameSettings y) (h' : y.SameSettings z) : x.SameSettings z := by
  unfold Pic.SameSettings at *
  rw [h', h]

section
variable (x : Pic)

theorem Pic.sameSettings_raiseIn (i : Input) : x.SameSettings (x.raiseIn i) := rfl
theorem Pic.sameSettings_lowerIn (i : Input) : x.SameSettings (x.lowerIn i) := rfl
theorem Pic.sameSettings_intack (i : Input) : x.SameSettings (x.intack i) := rfl
theorem Pic.sameSettings_seoi (i : Input) : x.SameSettings (x.seoi i) := rfl
theorem Pic.sameSettings_makeLowest (i : Input) : x.SameSettings (x.makeLowest i) := rfl
theorem Pic.sameSettings_poll (b : Bool) : x.SameSettings { x with poll := b } := rfl

theorem Pic.sameSettings_driveIn (i : Input) (level : Bool) : x.SameSettings (x.driveIn i level) := by
  cases level with
  | true => exact x.sameSettings_raiseIn i
  | false => exact x.sameSettings_lowerIn i

theorem Pic.sameSettings_nseoi : x.SameSettings x.nseoi := by
  obtain ⟨-, h⟩ | ⟨i, -, -, h⟩ := nseoi_cases x <;> rw [h] <;> rfl

theorem Pic.sameSettings_rotNseoi : x.SameSettings x.rotNseoi := by
  unfold Pic.rotNseoi
  cases x.nseoiInput with
  | none => exact .refl x
  | some i => exact x.sameSettings_nseoi.trans (x.nseoi.sameSettings_makeLowest i)

end

/-! ### What serving requests leaves alone -/

/-- The clock, the channels with the nominal interval and the port-0x61 byte are as they were, and the watermark has not
gone back. -/
structure State.SameTimers (s t : State) : Prop where
  vclock : t.vclock = s.vclock
  watermark : s.watermark ≤ t.watermark
  ch : t.ch = s.ch
  nominal : t.pit0Nominal = s.pit0Nominal
  spkr : t.spkr = s.spkr

/-- The timers are kept, and so are both PICs' settings: requests may come and go, be acknowledged and be ended. -/
structure State.Serves (s t : State) : Prop where
  timers : s.SameTimers t
  settings : ∀ p, (s.pic p).SameSettings (t.pic p)

theorem State.SameTimers.trans {s t u : State} (h : s.SameTimers t) (h' : t.SameTimers u) : s.SameTimers u :=
  ⟨h'.vclock.trans h.vclock, h.watermark.trans h'.watermark, h'.ch.trans h.ch, h'.nominal.trans h.nominal,
    h'.spkr.trans h.spkr⟩

theorem State.Serves.trans {s t u : State} (h : s.Serves t) (h' : t.Serves u) : s.Serves u :=
  ⟨h.timers.trans h'.timers, fun p => (h.settings p).trans (h'.settings p)⟩

/-- An update of the scheduler's lines and drives and of the model's own fields is none of a timer or a PIC. -/
theorem State.Serves.of_frame {s t : State} (h : t = { s with
    hostPrev := t.hostPrev, ifOffCount := t.ifOffCount, fault := t.fault, sched := t.sched, drive := t.drive
    draws := t.draws, result := t.result, events := t.events, inbox := t.inbox }) : s.Serves t := by
  rw [h]
  exact ⟨⟨rfl, le_refl _, rfl, rfl, rfl⟩, fun p => by cases p <;> exact .refl _⟩

theorem Activated.watermark_le {s t : State} (h : Activated s t) : s.watermark ≤ t.watermark := by
  by_cases hd : ∀ l, s.isDue l = false
  · exact (h.still hd).ge
  · obtain ⟨l, d, hl, hn, hmin⟩ := exists_earliest hd
    rw [h.watermark l d hl hn hmin]
    exact le_max_left _ _

theorem Activated.serves {s t : State} (h : Activated s t) : s.Serves t where
  timers := ⟨by rw [h.frame], h.watermark_le, by rw [h.frame], by rw [h.frame], by rw [h.frame]⟩
  settings := fun p => by
    rw [h.frame]
    cases p <;> rfl

section
variable (s : State)

theorem State.serves_refl : s.Serves s := .of_frame rfl
theorem State.serves_startOp : s.Serves s.startOp := .of_frame rfl
theorem State.serves_emit (e : Event) : s.Serves (s.emit e) := .of_frame rfl
theorem State.serves_answer (r : Result) : s.Serves (s.answer r) := .of_frame rfl
theorem State.serves_drawn : s.Serves s.drawn := .of_frame rfl
theorem State.serves_raiseFault (f : Fault) : s.Serves (s.raiseFault f) := .of_frame rfl
theorem State.serves_setDrive (l : Irq) (b : Bool) : s.Serves (s.setDrive l b) := .of_frame rfl
theorem State.serves_setLine (l : Line) (x : SchedLine) : s.Serves (s.setLine l x) := .of_frame rfl

theorem State.sameTimers_setPic (p : PicId) (x : Pic) : s.SameTimers (s.setPic p x) :=
  ⟨rfl, le_refl _, rfl, rfl, rfl⟩

theorem State.serves_setPic {p : PicId} {x : Pic} (h : (s.pic p).SameSettings x) : s.Serves (s.setPic p x) := by
  refine ⟨s.sameTimers_setPic p x, fun q => ?_⟩
  by_cases hq : q = p
  · subst hq
    rwa [State.setPic_pic_self]
  · rw [State.setPic_pic_other s hq]
    exact .refl _

theorem State.serves_update : s.Serves s.update :=
  s.serves_setPic (p := .master) (s.master.sameSettings_driveIn Config.cascadeIn s.slaveOut)

theorem State.sameTimers_writePic (p : PicId) (f : Pic → Pic) : s.SameTimers (s.writePic p f) :=
  (s.sameTimers_setPic p _).trans (State.serves_update _).timers

theorem State.serves_writePic {p : PicId} {f : Pic → Pic} (h : ∀ x : Pic, x.SameSettings (f x)) :
    s.Serves (s.writePic p f) :=
  (s.serves_setPic (h _)).trans (State.serves_update _)

theorem State.serves_picRaise (l : Irq) : s.Serves (s.picRaise l) :=
  (s.serves_setPic (Pic.sameSettings_raiseIn _ _)).trans (State.serves_update _)

theorem State.serves_picLower (l : Irq) : s.Serves (s.picLower l) :=
  (s.serves_setPic (Pic.sameSettings_lowerIn _ _)).trans (State.serves_update _)

theorem State.serves_intack (p : PicId) (i : Input) : s.Serves (s.intack p i) :=
  s.serves_setPic (Pic.sameSettings_intack _ _)

theorem State.serves_activate : s.Serves s.activate := (activate_activated s).serves

theorem State.serves_schedule (l : Line) (iv : Int) : s.Serves (s.schedule l iv) :=
  (s.serves_setLine l _).trans (State.serves_activate _)

theorem State.serves_releaseDrive (l : Irq) : s.Serves (s.releaseDrive l) := by
  cases hd : s.drives l with
  | false => rw [releaseDrive_idle hd]; exact s.serves_refl
  | true => rw [releaseDrive_driven hd]; exact (s.serves_setDrive l false).trans (State.serves_picLower _ l)

theorem State.serves_ack (l : Irq) : s.Serves (s.ack l) := by
  by_cases hl : l = 0
  · subst hl
    rw [ack_timer]
    exact ((s.serves_releaseDrive 0).trans (State.serves_schedule _ _ _)).trans (State.serves_emit _ _)
  · rw [ack_other hl]
    exact (s.serves_releaseDrive l).trans (State.serves_emit _ _)

theorem State.serves_finishEntry (l : Irq) (v : Byte) : s.Serves (s.finishEntry l v) :=
  (s.serves_update.trans (State.serves_ack _ l)).trans (State.serves_answer _ _)

theorem State.serves_takeInterrupt : s.Serves s.takeInterrupt := by
  obtain ⟨-, h⟩ | ⟨i, -, -, h⟩ | ⟨j, -, -, h⟩ | ⟨-, -, h⟩ := takeInterrupt_cases s <;> rw [h]
  · exact s.serves_answer _
  · exact (s.serves_intack .master i).trans (State.serves_finishEntry _ _ _)
  · exact ((s.serves_intack .master _).trans (State.serves_intack _ .slave j)).trans (State.serves_finishEntry _ _ _)
  · exact (s.serves_intack .master _).trans (State.serves_finishEntry _ _ _)

theorem State.serves_pollRead (p : PicId) : s.Serves (s.pollRead p) := by
  have hclear := s.serves_setPic ((s.pic p).sameSettings_poll false)
  obtain ⟨-, h⟩ | ⟨i, -, h⟩ := pollRead_cases s p <;> rw [h]
  · exact (hclear.trans (State.serves_drawn _)).trans (State.serves_answer _ _)
  · have hack := (hclear.trans (State.serves_intack _ p i)).trans (State.serves_update _)
    refine State.Serves.trans ?_ (State.serves_answer _ _)
    split
    · exact hack.trans (State.serves_ack _ _)
    · exact hack

theorem State.serves_livelockCheck (limit : Nat) (guestIf : Bool) : s.Serves (s.livelockCheck limit guestIf) := by
  unfold State.livelockCheck
  split
  · exact .of_frame rfl
  · split <;> exact .of_frame rfl

end

/-! ### What the PIT operations change (R148 to R156) -/

/-- `t` is `s` but for the channels, the nominal interval, the free values drawn and the result. -/
def State.PitFrame (s t : State) : Prop :=
  t = { s with ch := t.ch, pit0Nominal := t.pit0Nominal, draws := t.draws, result := t.result }

theorem State.PitFrame.trans {s t u : State} (h : s.PitFrame t) (h' : t.PitFrame u) : s.PitFrame u := by
  unfold State.PitFrame at *
  rw [h', h]

theorem State.PitFrame.pic_eq {s t : State} (h : s.PitFrame t) (p : PicId) : t.pic p = s.pic p := by
  rw [show t = _ from h]
  cases p <;> rfl

section
variable (s : State) (c : Chan)

theorem State.pitFrame_setChan (x : Channel) : s.PitFrame (s.setChan c x) := rfl

theorem State.pitFrame_latchCount : s.PitFrame (s.latchCount c) := by
  cases hr : (s.chan c).rlatch with
  | some v => rw [latchCount_pending hr]; rfl
  | none =>
    cases hk : (s.eval c).cnt with
    | some k => rw [latchCount_known hr hk]; rfl
    | none => rw [latchCount_unknown hr hk]; rfl

theorem State.pitFrame_latchStatus : s.PitFrame (s.latchStatus c) := by
  cases hb : (s.chan c).slatch with
  | some b => rw [latchStatus_pending hb]; rfl
  | none => rw [latchStatus_free hb]; rfl

theorem State.pitFrame_readbackChan (countN statusN : Bool) : s.PitFrame (s.readbackChan countN statusN c) := by
  cases statusN with
  | true =>
    cases countN with
    | true => rfl
    | false => exact s.pitFrame_latchCount c
  | false =>
    cases countN with
    | true => exact s.pitFrame_latchStatus c
    | false => exact (s.pitFrame_latchStatus c).trans (State.pitFrame_latchCount _ c)

theorem State.pitFrame_readbackChan_if (selected countN statusN : Bool) :
    s.PitFrame (if selected then s.readbackChan countN statusN c else s) := by
  cases selected with
  | true => exact s.pitFrame_readbackChan c countN statusN
  | false => rfl

theorem State.pitFrame_load (v : Word16) : s.PitFrame (s.load c v) := rfl

theorem State.pitFrame_writeCount (v : Byte) : s.PitFrame (s.writeCount c v) := by
  unfold State.writeCount
  split
  · exact s.pitFrame_load c _
  · exact s.pitFrame_load c _
  · exact s.pitFrame_setChan c _
  · exact (s.pitFrame_setChan c _).trans (State.pitFrame_load _ c _)

theorem State.pitFrame_readCount : s.PitFrame (s.readCount c) := by
  cases hb : (s.chan c).slatch with
  | some b => rw [s.readCount_status hb]; rfl
  | none =>
    obtain ⟨r, hr⟩ := s.readCount_count hb
    rw [hr]
    exact (s.pitFrame_latchCount c).trans rfl

end

/-! ### Every operation, by what it can change -/

open Sys2Proof.Claims (writesChannels programsPic)

/-- What operation i, taking s to t, can change: one kind for each of its families. -/
inductive Effect (i : Instr) (s t : State) : Prop
  | pit (writes : writesChannels i = true) (frame : s.startOp.PitFrame t)
  | serve (writes : writesChannels i = false) (serves : s.Serves t)
  | program (q : PicId) (writes : writesChannels i = false) (programs : programsPic q i = true)
      (timers : s.SameTimers t) (other : ∀ p, p ≠ q → (s.pic p).SameSettings (t.pic p))
  | speaker (v : Byte) (op : i = .spkrWrite v) (next : t = { s.startOp with spkr := v })
  | reset (kind : ResetKind) (op : i = .reset kind) (serves : (s.startOp.resetFields kind).Serves t)
  | advance (x : HostTick) (guestIf : Bool) (op : i = .advance x guestIf) (serves : (s.startOp.timeUpdate x).Serves t)

section
variable {i : Instr} {s : State}

/-- An operation that ends with `update()` on a PIC it programs. -/
theorem Effect.of_writePic (q : PicId) (f : Pic → Pic) (hw : writesChannels i = false) (hp : programsPic q i = true) :
    Effect i s (s.startOp.writePic q f) := by
  refine .program q hw hp (s.serves_startOp.timers.trans (State.sameTimers_writePic _ q f)) fun p hne => ?_
  have hupdate := (State.serves_update (s.startOp.setPic q (f (s.startOp.pic q)))).settings p
  rwa [State.setPic_pic_other _ hne, State.startOp_pic] at hupdate

/-- An initialization word that sets a PIC without `update()`. -/
theorem Effect.of_setPic (q : PicId) (x : Pic) (hw : writesChannels i = false) (hp : programsPic q i = true) :
    Effect i s (s.startOp.setPic q x) := by
  refine .program q hw hp (s.serves_startOp.timers.trans (State.sameTimers_setPic _ q x)) fun p hne => ?_
  rw [State.setPic_pic_other _ hne, State.startOp_pic]
  exact .refl _

theorem Effect.of_serves {t : State} (hw : writesChannels i = false) (h : s.startOp.Serves t) : Effect i s t :=
  .serve hw (s.serves_startOp.trans h)

end

/-- Every operation ends in a next state, by a change of its own kind. -/
theorem exec_next_effect (i : Instr) (s : State) : ∃ t, exec i s = .next t ∧ Effect i s t := by
  cases i with
  | pitReadback countN statusN cnt2 cnt1 cnt0 =>
    exact ⟨_, rfl, .pit rfl (((State.pitFrame_readbackChan_if _ 0 cnt0 countN statusN).trans
      (State.pitFrame_readbackChan_if _ 1 cnt1 countN statusN)).trans
      (State.pitFrame_readbackChan_if _ 2 cnt2 countN statusN))⟩
  | pitLatch c => exact ⟨_, rfl, .pit rfl (State.pitFrame_latchCount _ c)⟩
  | pitMode c rw m bcd => exact ⟨_, rfl, .pit rfl (State.pitFrame_setChan _ c _)⟩
  | pitDataWrite c v => exact ⟨_, rfl, .pit rfl (State.pitFrame_writeCount _ c v)⟩
  | pitDataRead c => exact ⟨_, rfl, .pit rfl (State.pitFrame_readCount _ c)⟩
  | picIcw1 q ltim adi sngl ic4 => exact ⟨_, rfl, .of_writePic q _ rfl (beq_self_eq_true q)⟩
  | picOcw3 q esmm smm poll rr ris => exact ⟨_, rfl, .of_writePic q _ rfl (beq_self_eq_true q)⟩
  | picRotAeoiClr q => exact ⟨_, rfl, .of_writePic q _ rfl (beq_self_eq_true q)⟩
  | picRotAeoiSet q => exact ⟨_, rfl, .of_writePic q _ rfl (beq_self_eq_true q)⟩
  | picOcw1 q v => exact ⟨_, rfl, .of_writePic q _ rfl (beq_self_eq_true q)⟩
  | elcrWrite q v => exact ⟨_, rfl, .of_writePic q _ rfl (beq_self_eq_true q)⟩
  | picIcw2 q v => exact ⟨_, rfl, .of_setPic q _ rfl (beq_self_eq_true q)⟩
  | picIcw3 q v => exact ⟨_, rfl, .of_setPic q _ rfl (beq_self_eq_true q)⟩
  | picIcw4 q sfnm buf ms aeoi upm => exact ⟨_, rfl, .of_setPic q _ rfl (beq_self_eq_true q)⟩
  | picNseoi q => exact ⟨_, rfl, .of_serves rfl (State.serves_writePic _ Pic.sameSettings_nseoi)⟩
  | picNop q => exact ⟨_, rfl, .of_serves rfl (State.serves_writePic _ .refl)⟩
  | picSeoi q l => exact ⟨_, rfl, .of_serves rfl (State.serves_writePic _ fun x => x.sameSettings_seoi l)⟩
  | picRotNseoi q => exact ⟨_, rfl, .of_serves rfl (State.serves_writePic _ Pic.sameSettings_rotNseoi)⟩
  | picSetPrio q l => exact ⟨_, rfl, .of_serves rfl (State.serves_writePic _ fun x => x.sameSettings_makeLowest l)⟩
  | picRotSeoi q l =>
    exact ⟨_, rfl, .of_serves rfl (State.serves_writePic _ fun x =>
      (x.sameSettings_seoi l).trans (Pic.sameSettings_makeLowest _ l))⟩
  | picReadPoll q a0 => exact ⟨_, rfl, .of_serves rfl (State.serves_pollRead _ q)⟩
  | inta => exact ⟨_, rfl, .of_serves rfl (State.serves_takeInterrupt _)⟩
  | spkrRead =>
    exact ⟨_, rfl, .of_serves rfl
      (((State.serves_drawn _).trans (State.serves_drawn _)).trans (State.serves_answer _ _))⟩
  | spkrWrite v => exact ⟨_, rfl, .speaker v rfl rfl⟩
  | reset kind => exact ⟨_, rfl, .reset kind rfl (State.serves_schedule _ _ _)⟩
  | advance x guestIf =>
    exact ⟨_, rfl, .advance x guestIf rfl ((State.serves_livelockCheck _ _ _).trans (State.serves_activate _))⟩
  | raise l =>
    by_cases hl : l < 16
    · exact ⟨_, exec_raise_inRange hl s, .of_serves rfl (State.serves_picRaise _ _)⟩
    · exact ⟨_, exec_raise_outOfRange hl s, .of_serves rfl (State.serves_raiseFault _ _)⟩
  | lower l =>
    by_cases hl : l < 16
    · exact ⟨_, exec_lower_inRange hl s, .of_serves rfl (State.serves_picLower _ _)⟩
    · exact ⟨_, exec_lower_outOfRange hl s, .of_serves rfl (State.serves_raiseFault _ _)⟩
  | schedule l iv =>
    by_cases hl : l < 32
    · exact ⟨_, exec_schedule_inRange hl iv s, .of_serves rfl (State.serves_schedule _ _ _)⟩
    · exact ⟨_, exec_schedule_outOfRange hl iv s, .of_serves rfl (State.serves_raiseFault _ _)⟩
  | elapsed c =>
    by_cases hc : c < 3
    · exact ⟨_, exec_elapsed_inRange hc s, .of_serves rfl (State.serves_answer _ _)⟩
    · exact ⟨_, exec_elapsed_outOfRange hc s, .of_serves rfl (State.serves_raiseFault _ _)⟩
  | _ => exact ⟨_, rfl, .of_serves rfl (State.serves_answer _ _)⟩

theorem exec_effect {i : Instr} {s t : State} (h : exec i s = .next t) : Effect i s t := by
  obtain ⟨u, hu, heffect⟩ := exec_next_effect i s
  obtain rfl := Host.Outcome.next.inj (hu.symm.trans h)
  exact heffect

/-! ### The statements on fields and their writers -/

/-- Settles O13: the clock moves in ADVANCE's time update alone; a pass only raises the watermark, and a soft RESET sets
it to the clock. -/
theorem clockNeverGoesBack : Obligations.ClockNeverGoesBack := by
  intro i s t h hcold
  cases exec_effect h with
  | pit _ frame =>
    rw [show t = _ from frame]
    exact ⟨le_refl _, fun _ => le_refl _, fun _ => rfl⟩
  | serve _ serves =>
    exact ⟨serves.timers.vclock.ge, fun _ => serves.timers.watermark, fun _ => serves.timers.vclock⟩
  | program _ _ _ timers => exact ⟨timers.vclock.ge, fun _ => timers.watermark, fun _ => timers.vclock⟩
  | speaker v _ next =>
    subst next
    exact ⟨le_refl _, fun _ => le_refl _, fun _ => rfl⟩
  | reset kind op serves =>
    cases kind with
    | cold => exact absurd op hcold
    | soft =>
      exact ⟨serves.timers.vclock.ge, fun hle => hle.trans serves.timers.watermark, fun _ => serves.timers.vclock⟩
  | advance x guestIf op serves =>
    refine ⟨?_, fun _ => serves.timers.watermark, fun hnot => absurd op (hnot x guestIf)⟩
    rw [serves.timers.vclock]
    exact Nat.le_add_right _ _

/-- Settles O15: the PIT operations keep to `State.PitFrame`, and every other but RESET keeps the timers. -/
theorem channelsAreThePits : Obligations.ChannelsAreThePits := by
  intro i s t h
  cases exec_effect h with
  | pit writes frame =>
    refine ⟨fun _ => ?_, fun hno => absurd writes (by simp [hno])⟩
    rw [show t = _ from frame]
    rfl
  | serve writes serves =>
    exact ⟨fun hyes => absurd hyes (by simp [writes]), fun _ _ => ⟨serves.timers.ch, serves.timers.nominal⟩⟩
  | program _ writes _ timers =>
    exact ⟨fun hyes => absurd hyes (by simp [writes]), fun _ _ => ⟨timers.ch, timers.nominal⟩⟩
  | speaker v op next =>
    subst op next
    exact ⟨nofun, fun _ _ => ⟨rfl, rfl⟩⟩
  | reset kind op _ =>
    subst op
    exact ⟨nofun, fun _ hno => absurd rfl (hno kind)⟩
  | advance x guestIf op serves =>
    subst op
    exact ⟨nofun, fun _ _ => ⟨serves.timers.ch, serves.timers.nominal⟩⟩

/-- Settles O16: an operation programs one PIC and may reach the other through the cascade only, which is a request. -/
theorem settingsKeepToTheirWriters : Obligations.SettingsKeepToTheirWriters := by
  intro i s t p h
  cases exec_effect h with
  | pit _ frame =>
    refine ⟨fun _ => ?_, fun _ _ => ?_⟩
    · rw [frame.pic_eq, State.startOp_pic]
    · rw [show t = _ from frame]
      rfl
  | serve _ serves => exact ⟨fun _ => serves.settings p, fun _ _ => serves.timers.spkr⟩
  | program q _ programs timers other =>
    refine ⟨fun hno => other p ?_, fun _ _ => timers.spkr⟩
    rintro rfl
    simp [programs] at hno
  | speaker v op next =>
    subst next
    refine ⟨fun _ => ?_, fun hno _ => absurd op (hno v)⟩
    cases p <;> rfl
  | reset kind op _ =>
    subst op
    exact ⟨nofun, fun _ hno => absurd rfl (hno kind)⟩
  | advance x guestIf _ serves =>
    refine ⟨fun _ => ?_, fun _ _ => serves.timers.spkr⟩
    have hsettings := serves.settings p
    cases p <;> exact hsettings

end Sys2Proof.Machine
end

section
/-! PROOFS of the invariant (10_state.md section 6, R44): it holds after reset and every step keeps it. An operation may
break the cascade clause on its way; its `update()` restores it (R247). -/

namespace Sys2Proof.Machine

/-! ### A channel's invariant (R44 (a), (b), (e), (f)) -/

theorem reloadOf_range (v : Word16) : 1 ≤ reloadOf v ∧ reloadOf v ≤ Config.countMax := by
  unfold reloadOf Config.countMax
  split
  · omega
  · rename_i hv
    have hpos : v.toNat ≠ 0 := fun h0 => hv (BitVec.eq_of_toNat_eq h0)
    have hlt := v.isLt
    omega

theorem nominalOf_range {n : Nat} (h : n ≤ Config.countMax) : 1 ≤ nominalOf n ∧ nominalOf n ≤ Config.countMax :=
  ⟨Nat.le_max_left _ _, Nat.max_le.2 ⟨by decide, h⟩⟩

section
variable {now : Tick} {x : Channel} (h : x.Ok now)
include h

theorem Channel.Ok.mono {later : Tick} (hle : now ≤ later) : x.Ok later :=
  ⟨h.counter, h.base.trans hle, h.phases, h.latch⟩

theorem Channel.Ok.withStatus (b : Option Byte) : ({ x with slatch := b } : Channel).Ok now :=
  ⟨h.counter, h.base, h.phases, h.latch⟩

theorem Channel.Ok.latched (r : Reading) (v : Word16) : (x.latched r v).Ok now where
  counter := fun n hn => by
    simp only [Channel.latched] at hn
    split at hn
    · nomatch hn
    · exact h.counter n hn
  base := h.base
  phases := h.phases
  latch := fun _ => rfl

theorem Channel.Ok.programmed (rw : Rw) (m : BitVec 3) (bcd : Bool) : (x.programmed rw m bcd).Ok now :=
  ⟨h.counter, h.base, fun _ => ⟨rfl, rfl⟩, nofun⟩

theorem Channel.Ok.loaded (v : Word16) :
    ({ x with counter := .count (reloadOf v), baseTime := now } : Channel).Ok now where
  counter := fun n hn => by
    cases hn
    exact reloadOf_range v
  base := le_refl _
  phases := h.phases
  latch := h.latch

/-- Staging the low byte of a WORD write (R155). -/
theorem Channel.Ok.staged (hrw : x.rw = .word) (v : Byte) : ({ x with wlatch := v, wphase := .hi } : Channel).Ok now :=
  ⟨h.counter, h.base, fun hne => absurd hrw hne, h.latch⟩

theorem Channel.Ok.unstaged : ({ x with wphase := .lo } : Channel).Ok now :=
  ⟨h.counter, h.base, fun hne => ⟨(h.phases hne).1, rfl⟩, h.latch⟩

/-- A read moves the toggle to the high byte of a WORD latch only, which stays pending (R156). -/
theorem Channel.Ok.afterCountRead (hlatch : x.rlatch.isSome = true) : x.afterCountRead.Ok now := by
  unfold Channel.afterCountRead
  split
  · rename_i hrw
    have hlo := (h.phases (by simp [hrw])).1
    exact ⟨h.counter, h.base, h.phases, fun hhi => by simp [hlo] at hhi⟩
  · rename_i hrw
    have hlo := (h.phases (by simp [hrw])).1
    exact ⟨h.counter, h.base, h.phases, fun hhi => by simp [hlo] at hhi⟩
  · rename_i hrw _
    exact ⟨h.counter, h.base, fun hne => absurd hrw hne, fun _ => hlatch⟩
  · exact ⟨h.counter, h.base, fun hne => ⟨rfl, (h.phases hne).2⟩, nofun⟩

end

theorem Channel.ok_reset {cfg : ChannelConfig} (h : 1 ≤ cfg.count ∧ cfg.count ≤ Config.countMax) (now : Tick) :
    (Channel.reset cfg now).Ok now where
  counter := fun n hn => by
    cases hn
    exact h
  base := le_refl _
  phases := fun _ => ⟨rfl, rfl⟩
  latch := nofun

/-! ### A PIC's invariant (R44 (c), (d), R38) -/

/-- The invariant reads the vector base, the trigger modes and the sequencer. -/
theorem Pic.Ok.congr {x y : Pic} {p : PicId} (h : x.Ok p) (hbase : y.base = x.base) (helcr : y.elcr = x.elcr)
    (hinit : y.initState = x.initState) (hsngl : y.sngl = x.sngl) (hic4 : y.ic4 = x.ic4) : y.Ok p :=
  ⟨hbase ▸ h.base, helcr ▸ h.elcr, hinit ▸ hsngl ▸ h.icw3, hinit ▸ hic4 ▸ h.icw4⟩

theorem Pic.Ok.of_sameSettings {x y : Pic} {p : PicId} (h : x.Ok p) (hxy : x.SameSettings y) : y.Ok p := by
  rw [show y = _ from hxy]
  exact h.congr rfl rfl rfl rfl rfl

theorem Pic.ok_reset (p : PicId) {base : Byte} (h : base &&& 0x07 = 0) : (Pic.reset base).Ok p :=
  ⟨h, BitVec.zero_and, nofun, nofun⟩

theorem afterIcw3_eq_icw4 {ic4 : Bool} (h : afterIcw3 ic4 = .icw4) : ic4 = true := by
  cases ic4 with
  | true => rfl
  | false => nomatch h

theorem afterIcw3_ne_icw3 (ic4 : Bool) : afterIcw3 ic4 ≠ .icw3 := by
  cases ic4 <;> decide

section
variable {x : Pic} {p : PicId} (h : x.Ok p)
include h

theorem Pic.Ok.icw1 (ltim sngl ic4 : Bool) : (x.icw1 ltim sngl ic4).Ok p :=
  ⟨BitVec.zero_and, h.elcr, nofun, nofun⟩

theorem Pic.Ok.icw2 (v : Byte) : ({ x with
    base := v &&& 0xF8, initState := if x.sngl then afterIcw3 x.ic4 else .icw3 } : Pic).Ok p where
  base := by
    rw [BitVec.and_assoc]
    exact BitVec.and_zero
  elcr := h.elcr
  icw3 := fun hst => by
    cases hs : x.sngl with
    | false => rfl
    | true => simp [hs, afterIcw3_ne_icw3] at hst
  icw4 := fun hst => by
    cases hs : x.sngl with
    | false => simp [hs] at hst
    | true => exact afterIcw3_eq_icw4 (by simpa [hs] using hst)

theorem Pic.Ok.icw3Byte (v : Byte) : ({ x with icw3 := v, initState := afterIcw3 x.ic4 } : Pic).Ok p :=
  ⟨h.base, h.elcr, fun hst => absurd hst (afterIcw3_ne_icw3 _), afterIcw3_eq_icw4⟩

theorem Pic.Ok.icw4Bits (sfnm aeoi : Bool) : ({ x with sfnm := sfnm, aeoi := aeoi, initState := .ready } : Pic).Ok p :=
  ⟨h.base, h.elcr, nofun, nofun⟩

theorem Pic.Ok.withElcr (v : Byte) : ({ x with elcr := v &&& Config.elcrMask p } : Pic).Ok p where
  base := h.base
  elcr := by
    rw [BitVec.and_assoc, BitVec.and_not_self]
    exact BitVec.and_zero
  icw3 := h.icw3
  icw4 := h.icw4

end

/-! ### The invariant without the cascade's latch -/

/-- The clauses of `State.Inv` that an operation keeps even before its `update()`: all but the cascade's. -/
structure State.InvBeforeUpdate (s : State) : Prop where
  chans : ∀ c, (s.chan c).Ok s.vclock
  pics : ∀ p, (s.pic p).Ok p
  nominal : 1 ≤ s.pit0Nominal ∧ s.pit0Nominal ≤ Config.countMax
  watermark : s.watermark ≤ s.vclock
  honored : ∀ l d, (s.line l).lastHonored = some d → d ≤ s.vclock ∧ ∃ e, (s.line l).nextDue = some e ∧ d ≤ e
  driven : ∀ l, s.drives l = true → (s.line (lineOfIrq l)).lastHonored.isSome = true
  livelock : s.ifOffCount ≤ Config.ifStuckLimit
  faults : s.fault.Nodup

theorem State.Inv.beforeUpdate {s : State} (h : s.Inv) : s.InvBeforeUpdate :=
  ⟨h.chans, h.pics, h.nominal, h.watermark, h.honored, h.driven, h.livelock, h.faults⟩

section
variable {s : State} (h : s.InvBeforeUpdate)
include h

theorem State.InvBeforeUpdate.inv (hcascade : hasBit s.master.elatch Config.cascadeIn = s.slaveOut) : s.Inv :=
  ⟨h.chans, h.pics, hcascade, h.nominal, h.watermark, h.honored, h.driven, h.livelock, h.faults⟩

theorem State.InvBeforeUpdate.setPic {p : PicId} {x : Pic} (hx : x.Ok p) : (s.setPic p x).InvBeforeUpdate where
  chans := h.chans
  pics := fun q => by
    by_cases hq : q = p
    · subst hq
      rwa [State.setPic_pic_self]
    · rw [State.setPic_pic_other s hq]
      exact h.pics q
  nominal := h.nominal
  watermark := h.watermark
  honored := h.honored
  driven := h.driven
  livelock := h.livelock
  faults := h.faults

theorem State.InvBeforeUpdate.intack (p : PicId) (i : Input) : (s.intack p i).InvBeforeUpdate :=
  h.setPic ((h.pics p).of_sameSettings (Pic.sameSettings_intack _ i))

/-- Releasing a line's drive takes a premise away. -/
theorem State.InvBeforeUpdate.undrive (l : Irq) : (s.setDrive l false).InvBeforeUpdate where
  chans := h.chans
  pics := fun p => by
    rw [State.setDrive_pic]
    exact h.pics p
  nominal := h.nominal
  watermark := h.watermark
  honored := h.honored
  driven := fun k hk => by
    by_cases hkl : k = l
    · subst hkl
      simp at hk
    · rw [State.setDrive_drives_other s hkl] at hk
      exact h.driven k hk
  livelock := h.livelock
  faults := h.faults

/-- `update()` makes the cascade's latch show the slave's output (R247). -/
theorem State.InvBeforeUpdate.update : s.update.Inv :=
  State.InvBeforeUpdate.inv
    (h.setPic (p := .master)
      ((h.pics .master).of_sameSettings (Pic.sameSettings_driveIn _ Config.cascadeIn s.slaveOut)))
    (update_settled s).settled

theorem State.InvBeforeUpdate.picLower (l : Irq) : (s.picLower l).Inv :=
  (h.setPic ((h.pics _).of_sameSettings (Pic.sameSettings_lowerIn _ _))).update

end

/-! ### What the shared operations keep -/

/-- Special fully nested mode is read on the master only (R245). -/
theorem resolve_slave_congr {x y : Pic} (hirr : x.irr = y.irr) (himr : x.imr = y.imr) (hisr : x.isr = y.isr)
    (hprio : x.prio = y.prio) (hsmm : x.smm = y.smm) : x.resolve .slave = y.resolve .slave := by
  simp [Pic.resolve, Pic.blocking, hirr, himr, hisr, hprio, hsmm]

section
variable {s : State} (h : s.Inv)
include h

/-- The invariant does not speak of the host's sample, port 0x61 or the model's own fields. -/
theorem State.Inv.of_frame {t : State} (ht : t = { s with
    hostPrev := t.hostPrev, spkr := t.spkr, draws := t.draws, result := t.result, events := t.events
    inbox := t.inbox }) : t.Inv := by
  rw [ht]
  exact ⟨h.chans, fun p => by cases p <;> exact h.pics _, h.cascade, h.nominal, h.watermark, h.honored, h.driven,
    h.livelock, h.faults⟩

theorem State.Inv.startOp : s.startOp.Inv := h.of_frame rfl
theorem State.Inv.emit (e : Event) : (s.emit e).Inv := h.of_frame rfl
theorem State.Inv.answer (r : Result) : (s.answer r).Inv := h.of_frame rfl
theorem State.Inv.drawn : s.drawn.Inv := h.of_frame rfl

theorem State.Inv.raiseFault (f : Fault) : (s.raiseFault f).Inv where
  chans := h.chans
  pics := fun p => by
    rw [State.raiseFault_pic]
    exact h.pics p
  cascade := h.cascade
  nominal := h.nominal
  watermark := h.watermark
  honored := h.honored
  driven := h.driven
  livelock := h.livelock
  faults := insertFault_nodup h.faults

/-! #### PIC operations -/

theorem State.Inv.writePic {p : PicId} {f : Pic → Pic} (hf : (f (s.pic p)).Ok p) : (s.writePic p f).Inv :=
  (h.beforeUpdate.setPic hf).update

/-- A PIC operation that changes no setting. -/
theorem State.Inv.writePic_serving {p : PicId} {f : Pic → Pic} (hf : ∀ x : Pic, x.SameSettings (f x)) :
    (s.writePic p f).Inv :=
  h.writePic ((h.pics p).of_sameSettings (hf _))

theorem State.Inv.picRaise (l : Irq) : (s.picRaise l).Inv :=
  (h.beforeUpdate.setPic ((h.pics _).of_sameSettings (Pic.sameSettings_raiseIn _ _))).update

/-- A PIC written without `update()` keeps the cascade's latch if neither the master's edge latch nor what the slave's
resolver reads has changed (log 9). -/
theorem State.Inv.setPic {p : PicId} {x : Pic} (hx : x.Ok p) (hlatch : x.elatch = (s.pic p).elatch)
    (hresolve : x.resolve .slave = (s.pic p).resolve .slave) : (s.setPic p x).Inv := by
  refine (h.beforeUpdate.setPic hx).inv ?_
  cases p with
  | master =>
    rw [State.setPic_master_master, hlatch]
    exact h.cascade
  | slave =>
    have hout : (s.setPic .slave x).slaveOut = s.slaveOut := congrArg Option.isSome hresolve
    rw [hout]
    exact h.cascade

/-! #### PIT operations -/

theorem State.Inv.setChan {c : Chan} {x : Channel} (hx : x.Ok s.vclock) : (s.setChan c x).Inv where
  chans := fun d => by
    by_cases hd : d = c
    · subst hd
      rwa [State.setChan_chan_self]
    · rw [State.setChan_chan_other s hd]
      exact h.chans d
  pics := fun p => by
    rw [State.setChan_pic]
    exact h.pics p
  cascade := h.cascade
  nominal := h.nominal
  watermark := h.watermark
  honored := h.honored
  driven := h.driven
  livelock := h.livelock
  faults := h.faults

theorem State.Inv.withNominal {n : Nat} (hn : 1 ≤ n ∧ n ≤ Config.countMax) :
    ({ s with pit0Nominal := n } : State).Inv :=
  ⟨h.chans, fun p => by cases p <;> exact h.pics _, h.cascade, hn, h.watermark, h.honored, h.driven, h.livelock,
    h.faults⟩

theorem State.Inv.latchCount (c : Chan) : (s.latchCount c).Inv := by
  cases hr : (s.chan c).rlatch with
  | some v => rwa [latchCount_pending hr]
  | none =>
    cases hk : (s.eval c).cnt with
    | some k =>
      rw [latchCount_known hr hk]
      exact h.setChan ((h.chans c).latched _ _)
    | none =>
      rw [latchCount_unknown hr hk]
      exact (h.setChan ((h.chans c).latched _ _)).drawn

theorem State.Inv.latchStatus (c : Chan) : (s.latchStatus c).Inv := by
  cases hb : (s.chan c).slatch with
  | some b => rwa [latchStatus_pending hb]
  | none =>
    rw [latchStatus_free hb]
    exact h.setChan ((h.chans c).withStatus _)

theorem State.Inv.readbackChan (countN statusN : Bool) (c : Chan) : (s.readbackChan countN statusN c).Inv := by
  cases statusN with
  | true =>
    cases countN with
    | true => exact h
    | false => exact h.latchCount c
  | false =>
    cases countN with
    | true => exact h.latchStatus c
    | false => exact State.Inv.latchCount (h.latchStatus c) c

theorem State.Inv.readbackChan_if (selected countN statusN : Bool) (c : Chan) :
    (if selected then s.readbackChan countN statusN c else s).Inv := by
  cases selected with
  | true => exact h.readbackChan countN statusN c
  | false => exact h

theorem State.Inv.load (c : Chan) (v : Word16) : (s.load c v).Inv := by
  refine State.Inv.withNominal (h.setChan ((h.chans c).loaded v)) ?_
  split
  · exact nominalOf_range (reloadOf_range v).2
  · exact h.nominal

theorem State.Inv.writeCount (c : Chan) (v : Byte) : (s.writeCount c v).Inv := by
  unfold State.writeCount
  split
  · exact h.load c _
  · exact h.load c _
  · rename_i hrw _
    exact h.setChan ((h.chans c).staged hrw v)
  · exact State.Inv.load (h.setChan (h.chans c).unstaged) c _

theorem State.Inv.readCount (c : Chan) : (s.readCount c).Inv := by
  cases hb : (s.chan c).slatch with
  | some b =>
    rw [s.readCount_status hb]
    exact (h.setChan ((h.chans c).withStatus none)).answer _
  | none =>
    obtain ⟨r, hr⟩ := s.readCount_count hb
    have hl := h.latchCount c
    rw [hr]
    exact (hl.setChan ((hl.chans c).afterCountRead (latchCount_rlatch_isSome s c))).answer r

/-! #### The scheduler -/

/-- Arming moves a due time on from the previous one, so never behind a delivered one (R204, R206). -/
theorem State.Inv.arm (l : Line) (iv : Int) : (s.setLine l ((s.line l).armed s.vclock iv)).Inv where
  chans := h.chans
  pics := fun p => by
    rw [State.setLine_pic]
    exact h.pics p
  cascade := h.cascade
  nominal := h.nominal
  watermark := h.watermark
  honored := fun k d hd => by
    by_cases hk : k = l
    · subst hk
      rw [State.setLine_line_self] at hd ⊢
      obtain ⟨hpast, e, he, hle⟩ := h.honored k d hd
      refine ⟨hpast, ?_⟩
      by_cases hiv : intervalOk iv
      · exact ⟨e + iv.toNat, by simp [SchedLine.armed, hiv, he, armedDue], hle.trans (Nat.le_add_right _ _)⟩
      · exact ⟨e, by simp [SchedLine.armed, hiv, he], hle⟩
    · rw [State.setLine_line_other s hk] at hd ⊢
      exact h.honored k d hd
  driven := fun k hk => by
    have hold := h.driven k hk
    by_cases hkl : lineOfIrq k = l
    · rw [hkl] at hold ⊢
      rwa [State.setLine_line_self]
    · rwa [State.setLine_line_other s hkl]
  livelock := h.livelock
  faults := h.faults

/-- A delivered due time has passed, and it is the line's own: one pass keeps the invariant (R201, R209, R210). -/
theorem State.Inv.of_activated {t : State} (ha : Activated s t) : t.Inv := by
  have hclock : t.vclock = s.vclock := ha.serves.timers.vclock
  have hdue : ∀ l, s.isDue l = true → ∃ d, (s.line l).nextDue = some d ∧ d ≤ s.vclock := fun l hl => by
    unfold State.isDue at hl
    cases hn : (s.line l).nextDue with
    | none => simp [hn] at hl
    | some d => exact ⟨d, rfl, by simp [hn] at hl; exact hl.1⟩
  refine State.InvBeforeUpdate.inv ⟨fun c => ?_, fun p => ?_, ?_, ?_, fun l d hd => ?_, fun l hl => ?_, ?_, ?_⟩
    (ha.cascade h.cascade)
  · have hchan : t.chan c = s.chan c := by rw [State.chan, ha.serves.timers.ch, State.chan]
    rw [hchan, hclock]
    exact h.chans c
  · exact (h.pics p).of_sameSettings (ha.serves.settings p)
  · rw [ha.serves.timers.nominal]
    exact h.nominal
  · rw [hclock]
    by_cases hidle : ∀ l, s.isDue l = false
    · rw [ha.still hidle]
      exact h.watermark
    · obtain ⟨l, d, hl, hn, hmin⟩ := exists_earliest hidle
      obtain ⟨d', hn', hle⟩ := hdue l hl
      obtain rfl : d = d' := Option.some.inj (hn.symm.trans hn')
      rw [ha.watermark l d hl hn hmin]
      exact max_le h.watermark hle
  · rw [ha.honored l] at hd
    rw [ha.nextDue l, hclock]
    split at hd
    · rename_i hl
      obtain ⟨e, he, hle⟩ := hdue l hl
      obtain rfl : e = d := Option.some.inj (he.symm.trans hd)
      exact ⟨hle, e, he, le_refl e⟩
    · exact h.honored l d hd
  · rw [ha.honored]
    rw [ha.driven, Bool.or_eq_true] at hl
    split
    · rename_i hl'
      obtain ⟨d, hd, -⟩ := hdue _ hl'
      rw [hd]
      rfl
    · rename_i hl'
      exact h.driven l (hl.resolve_right hl')
  · rw [ha.frame]
    exact h.livelock
  · rw [ha.frame]
    exact h.faults

theorem State.Inv.activate : s.activate.Inv := h.of_activated (activate_activated s)

theorem State.Inv.schedule (l : Line) (iv : Int) : (s.schedule l iv).Inv := (h.arm l iv).activate

theorem State.Inv.picLower (l : Irq) : (s.picLower l).Inv := h.beforeUpdate.picLower l

theorem State.Inv.releaseDrive (l : Irq) : (s.releaseDrive l).Inv := by
  cases hd : s.drives l with
  | false => rwa [releaseDrive_idle hd]
  | true =>
    rw [releaseDrive_driven hd]
    exact (h.beforeUpdate.undrive l).picLower l

theorem State.Inv.ack (l : Irq) : (s.ack l).Inv := by
  by_cases hl : l = 0
  · subst hl
    rw [ack_timer]
    exact ((h.releaseDrive 0).schedule 0 _).emit _
  · rw [ack_other hl]
    exact (h.releaseDrive l).emit _

end

/-! #### Acknowledges -/

theorem State.InvBeforeUpdate.finishEntry {s : State} (h : s.InvBeforeUpdate) (l : Irq) (v : Byte) :
    (s.finishEntry l v).Inv :=
  (h.update.ack l).answer _

section
variable {s : State} (h : s.Inv)
include h

theorem State.Inv.takeInterrupt : s.takeInterrupt.Inv := by
  obtain ⟨-, ht⟩ | ⟨i, -, -, ht⟩ | ⟨j, -, -, ht⟩ | ⟨-, -, ht⟩ := takeInterrupt_cases s <;> rw [ht]
  · exact h.answer _
  · exact (h.beforeUpdate.intack .master i).finishEntry _ _
  · exact ((h.beforeUpdate.intack .master _).intack .slave j).finishEntry _ _
  · exact (h.beforeUpdate.intack .master _).finishEntry _ _

theorem State.Inv.clearPoll (p : PicId) : (s.setPic p { s.pic p with poll := false }).Inv :=
  h.setPic ((h.pics p).of_sameSettings (Pic.sameSettings_poll _ false)) rfl
    (resolve_congr .slave rfl rfl rfl rfl rfl rfl)

theorem State.Inv.pollRead (p : PicId) : (s.pollRead p).Inv := by
  obtain ⟨-, ht⟩ | ⟨i, -, ht⟩ := pollRead_cases s p <;> rw [ht]
  · exact (h.clearPoll p).drawn.answer _
  · have hack := ((h.clearPoll p).beforeUpdate.intack p i).update
    refine State.Inv.answer ?_ _
    split
    · exact hack.ack _
    · exact hack

/-! #### The clock -/

/-- The clock only moves on, so what has passed has passed (R121). -/
theorem State.Inv.timeUpdate (x : HostTick) : (s.timeUpdate x).Inv := by
  have hle : s.vclock ≤ (s.timeUpdate x).vclock := Nat.le_add_right _ _
  exact ⟨fun c => (h.chans c).mono hle, fun p => by cases p <;> exact h.pics _, h.cascade, h.nominal,
    h.watermark.trans hle, fun l d hd => ⟨(h.honored l d hd).1.trans hle, (h.honored l d hd).2⟩, h.driven, h.livelock,
    h.faults⟩

theorem State.Inv.withIfOffCount {n : Nat} (hn : n ≤ Config.ifStuckLimit) : ({ s with ifOffCount := n } : State).Inv :=
  ⟨h.chans, fun p => by cases p <;> exact h.pics _, h.cascade, h.nominal, h.watermark, h.honored, h.driven, hn,
    h.faults⟩

theorem State.Inv.livelockCheck (guestIf : Bool) : (s.livelockCheck Config.ifStuckLimit guestIf).Inv := by
  unfold State.livelockCheck
  split
  · exact h.withIfOffCount (Nat.zero_le _)
  · split
    · exact State.Inv.withIfOffCount ((h.emit _).emit _) (Nat.zero_le _)
    · rename_i hle
      exact h.withIfOffCount (Nat.not_lt.1 hle)

end

/-! ### RESET (R360, R361) -/

/-- With no request there is nothing to acknowledge. -/
theorem resolve_reset (base : Byte) (who : PicId) : (Pic.reset base).resolve who = none := by
  have hnone : ∀ p, (Pic.reset 0).resolve p = none := by intro p; cases p <;> decide
  exact (resolve_congr who rfl rfl rfl rfl rfl rfl).trans (hnone who)

theorem resetFields_chan_ok (kind : ResetKind) (s : State) (c : Chan) :
    ((s.resetFields kind).chan c).Ok (resetClock kind s.vclock) := by
  cases kind <;> fin_cases c <;> exact Channel.ok_reset (by decide) _

theorem resetFields_line (kind : ResetKind) (s : State) (l : Line) : (s.resetFields kind).line l = SchedLine.reset := by
  simp [State.resetFields, State.line]

theorem resetFields_drives (kind : ResetKind) (s : State) (l : Irq) : (s.resetFields kind).drives l = false := by
  simp [State.resetFields, State.drives]

/-- R361's table meets the invariant; of the state before, only the fault marks are kept. -/
theorem resetFields_inv (kind : ResetKind) {s : State} (h : s.fault.Nodup) : (s.resetFields kind).Inv where
  chans := resetFields_chan_ok kind s
  pics := fun p => by cases kind <;> cases p <;> exact Pic.ok_reset _ (by decide)
  cascade := by
    have hout : (s.resetFields kind).slaveOut = false := congrArg Option.isSome (resolve_reset _ .slave)
    rw [hout]
    exact hasBit_zero Config.cascadeIn
  nominal := by cases kind <;> exact nominalOf_range (by decide)
  watermark := le_refl _
  honored := fun l d hd => by
    rw [resetFields_line] at hd
    nomatch hd
  driven := fun l hl => by
    rw [resetFields_drives] at hl
    nomatch hl
  livelock := Nat.zero_le _
  faults := h

/-- The initial state is R361's table with IRQ0 armed. -/
theorem reset_eq_armed : State.reset = (State.reset.resetFields .cold).setLine 0
    (((State.reset.resetFields .cold).line 0).armed (State.reset.resetFields .cold).vclock 65536) := by
  rfl

/-- Settles O11: the initial state is R361's table, without a fault mark, with IRQ0 armed (R360). -/
theorem resetInv : Obligations.ResetInv := by
  unfold Obligations.ResetInv
  rw [reset_eq_armed]
  exact (resetFields_inv .cold List.nodup_nil).arm 0 65536

/-! ### Every operation and every step -/

theorem exec_next_inv (i : Instr) {s : State} (hs : s.Inv) : ∃ t, exec i s = .next t ∧ t.Inv := by
  have h := hs.startOp
  cases i with
  | pitReadback countN statusN cnt2 cnt1 cnt0 =>
    exact ⟨_, rfl, ((h.readbackChan_if cnt0 countN statusN 0).readbackChan_if cnt1 countN statusN 1).readbackChan_if
      cnt2 countN statusN 2⟩
  | pitLatch c => exact ⟨_, rfl, h.latchCount c⟩
  | pitMode c rw m bcd => exact ⟨_, rfl, h.setChan ((h.chans c).programmed rw m bcd)⟩
  | pitDataWrite c v => exact ⟨_, rfl, h.writeCount c v⟩
  | pitDataRead c => exact ⟨_, rfl, h.readCount c⟩
  | picIcw1 q ltim adi sngl ic4 => exact ⟨_, rfl, h.writePic ((h.pics q).icw1 ltim sngl ic4)⟩
  | picOcw3 q esmm smm poll rr ris => exact ⟨_, rfl, h.writePic ((h.pics q).congr rfl rfl rfl rfl rfl)⟩
  | picRotAeoiClr q => exact ⟨_, rfl, h.writePic ((h.pics q).congr rfl rfl rfl rfl rfl)⟩
  | picRotAeoiSet q => exact ⟨_, rfl, h.writePic ((h.pics q).congr rfl rfl rfl rfl rfl)⟩
  | picOcw1 q v => exact ⟨_, rfl, h.writePic ((h.pics q).congr rfl rfl rfl rfl rfl)⟩
  | elcrWrite q v => exact ⟨_, rfl, h.writePic ((h.pics q).withElcr v)⟩
  | picIcw2 q v => exact ⟨_, rfl, h.setPic ((h.pics q).icw2 v) rfl rfl⟩
  | picIcw3 q v => exact ⟨_, rfl, h.setPic ((h.pics q).icw3Byte v) rfl rfl⟩
  | picIcw4 q sfnm buf ms aeoi upm =>
    exact ⟨_, rfl, h.setPic ((h.pics q).icw4Bits sfnm aeoi) rfl (resolve_slave_congr rfl rfl rfl rfl rfl)⟩
  | picNseoi q => exact ⟨_, rfl, h.writePic_serving Pic.sameSettings_nseoi⟩
  | picNop q => exact ⟨_, rfl, h.writePic_serving .refl⟩
  | picSeoi q l => exact ⟨_, rfl, h.writePic_serving fun x => x.sameSettings_seoi l⟩
  | picRotNseoi q => exact ⟨_, rfl, h.writePic_serving Pic.sameSettings_rotNseoi⟩
  | picSetPrio q l => exact ⟨_, rfl, h.writePic_serving fun x => x.sameSettings_makeLowest l⟩
  | picRotSeoi q l =>
    exact ⟨_, rfl, h.writePic_serving fun x => (x.sameSettings_seoi l).trans (Pic.sameSettings_makeLowest _ l)⟩
  | picReadPoll q a0 => exact ⟨_, rfl, h.pollRead q⟩
  | spkrWrite v => exact ⟨_, rfl, h.of_frame rfl⟩
  | spkrRead => exact ⟨_, rfl, h.drawn.drawn.answer _⟩
  | reset kind => exact ⟨_, rfl, (resetFields_inv kind h.faults).schedule 0 _⟩
  | advance x guestIf => exact ⟨_, rfl, ((h.timeUpdate x).livelockCheck guestIf).activate⟩
  | inta => exact ⟨_, rfl, h.takeInterrupt⟩
  | raise l =>
    by_cases hl : l < 16
    · exact ⟨_, exec_raise_inRange hl s, h.picRaise _⟩
    · exact ⟨_, exec_raise_outOfRange hl s, h.raiseFault _⟩
  | lower l =>
    by_cases hl : l < 16
    · exact ⟨_, exec_lower_inRange hl s, h.picLower _⟩
    · exact ⟨_, exec_lower_outOfRange hl s, h.raiseFault _⟩
  | schedule l iv =>
    by_cases hl : l < 32
    · exact ⟨_, exec_schedule_inRange hl iv s, h.schedule _ iv⟩
    · exact ⟨_, exec_schedule_outOfRange hl iv s, h.raiseFault _⟩
  | elapsed c =>
    by_cases hc : c < 3
    · exact ⟨_, exec_elapsed_inRange hc s, h.answer _⟩
    · exact ⟨_, exec_elapsed_outOfRange hc s, h.raiseFault _⟩
  | _ => exact ⟨_, rfl, h.answer _⟩

theorem exec_keeps_inv {i : Instr} {s t : State} (hs : s.Inv) (h : exec i s = .next t) : t.Inv := by
  obtain ⟨u, hu, hinv⟩ := exec_next_inv i hs
  obtain rfl := Host.Outcome.next.inj (hu.symm.trans h)
  exact hinv

/-- Settles O12: a step rests, runs an operation, leaves a mark for a wide access, or is refused. -/
theorem stepKeepsInv : Obligations.StepKeepsInv := by
  intro s t hs h
  cases hinbox : s.inbox with
  | nil =>
    simp only [step, fetch, hinbox] at h
    exact Host.Outcome.next.inj h ▸ hs
  | cons r rest =>
    have htaken : ({ s with inbox := rest } : State).Inv := hs.of_frame rfl
    simp only [step, fetch_cons hinbox] at h
    split at h
    · exact exec_keeps_inv htaken h
    · exact Host.Outcome.next.inj h ▸ htaken.startOp.raiseFault _
    · nomatch h

end Sys2Proof.Machine
end

section
/-! PROOFS of the initialization sequence (43_pic.md section 6, R256 to R260) from the guest's bytes on: what a PIC's
ports decode to (R101, R102), then one lemma per initialization word. -/

namespace Sys2Proof

/-! ### Selecting a row by a word's fields (R81, R102) -/

/-- A word is its three fields (R81). -/
theorem btw_ext {w w' : Btw} (hwrite : btwWrite w = btwWrite w') (hport : btwPort w = btwPort w')
    (hdata : btwData w = btwData w') : w = w' := by
  refine BitVec.eq_of_getLsbD_eq fun i hi => ?_
  by_cases h8 : i < 8
  · simpa [btwData, h8] using congrArg (BitVec.getLsbD · i) hdata
  · by_cases h24 : i < 24
    · have hlt : i - 8 < 16 := by omega
      have hsum : 8 + (i - 8) = i := by omega
      simpa [btwPort, hlt, hsum] using congrArg (BitVec.getLsbD · (i - 8)) hport
    · obtain rfl : i = 24 := by omega
      exact hwrite

@[simp] theorem btwWrite_and (w m : Btw) : btwWrite (w &&& m) = (btwWrite w && btwWrite m) := by simp [btwWrite]

@[simp] theorem btwPort_and (w m : Btw) : btwPort (w &&& m) = btwPort w &&& btwPort m := by
  simp [btwPort, BitVec.extractLsb'_and]

@[simp] theorem btwData_and (w m : Btw) : btwData (w &&& m) = btwData w &&& btwData m := by
  simp [btwData, BitVec.extractLsb'_and]

/-- A word under a mask has a pattern's value field by field. -/
theorem busWord_and_eq {write : Bool} {port : Port} {data : Byte} {mask pattern : Btw}
    (hwrite : (write && btwWrite mask) = btwWrite pattern) (hport : port &&& btwPort mask = btwPort pattern)
    (hdata : data &&& btwData mask = btwData pattern) : busWord write port data &&& mask = pattern :=
  btw_ext (by simpa using hwrite) (by simpa using hport) (by simpa using hdata)

/-- Rows of other ports are passed over. -/
theorem find?_rowFits_eq_none {ctx : DecodeCtx} {write : Bool} {port : Port} {data : Byte} {rs : List Row}
    (h : ∀ r ∈ rs, port &&& btwPort r.mask ≠ btwPort r.pattern) :
    rs.find? (rowFits ctx (busWord write port data)) = none := by
  refine List.find?_eq_none.2 fun r hr hfits => h r hr ?_
  have hmasked : busWord write port data &&& r.mask = r.pattern := by
    simp only [rowFits, Bool.and_eq_true, beq_iff_eq] at hfits
    exact hfits.1
  simpa using congrArg btwPort hmasked

/-! ### The PICs' ports (R101, R102) -/

open Sys2Proof.Claims (dataByte)

theorem picOf_cmdPort (p : PicId) (write : Bool) (data : Byte) : picOf (busWord write (cmdPort p) data) = p := by
  rw [picOf, getLsbD_busWord]
  cases p <;> rfl

theorem picOf_dataPort (p : PicId) (write : Bool) (data : Byte) : picOf (busWord write (dataPort p) data) = p := by
  rw [picOf, getLsbD_busWord]
  cases p <;> rfl

theorem getLsbD_busWord_data {write : Bool} {port : Port} {data : Byte} {i : Nat} (h : i < 8) :
    (busWord write port data).getLsbD i = data.getLsbD i := by
  rw [getLsbD_busWord, if_pos h]

/-- A byte with bit 4 set, written to a command port, is ICW1 in every context (R255). -/
theorem decodeBus_icw1 (ctx : DecodeCtx) (p : PicId) {v : Byte} (h : v.getLsbD 4 = true) :
    decodeBus ctx (busWord true (cmdPort p) v) =
      .ok (.picIcw1 p (v.getLsbD 3) (v.getLsbD 2) (v.getLsbD 1) (v.getLsbD 0)) := by
  have hpit : pitRows.find? (rowFits ctx (busWord true (cmdPort p) v)) = none :=
    find?_rowFits_eq_none (by cases p <;> decide)
  have hbit : v &&& BitVec.twoPow 8 4 = BitVec.twoPow 8 4 := by rw [BitVec.and_twoPow, h, if_pos rfl]
  have hmask : busWord true (cmdPort p) v &&& 0x1FF7F10 = 0x1002010 :=
    busWord_and_eq (by decide) (by cases p <;> decide) hbit
  have hicw1 : ∃ r, picCommandRows.find? (rowFits ctx (busWord true (cmdPort p) v)) = some r ∧ r.build = fun w =>
      .picIcw1 (picOf w) (w.getLsbD 3) (w.getLsbD 2) (w.getLsbD 1) (w.getLsbD 0) :=
    ⟨_, List.find?_cons_of_pos (by simp only [rowFits, always, hmask, beq_self_eq_true, Bool.and_self]), rfl⟩
  obtain ⟨r, hfind, hbuild⟩ := hicw1
  simp only [decodeBus, rows, List.find?_append, hpit, hfind, hbuild, Option.none_or, Option.some_or, picOf_cmdPort,
    getLsbD_busWord_data, Nat.reduceLT]

/-- A byte written to a data port is the word the sequencer awaits, or OCW1 (R256). -/
theorem decodeBus_dataByte (ctx : DecodeCtx) (p : PicId) (v : Byte) :
    decodeBus ctx (busWord true (dataPort p) v) = .ok (dataByte p v (ctxInit ctx p)) := by
  have hpit : pitRows.find? (rowFits ctx (busWord true (dataPort p) v)) = none :=
    find?_rowFits_eq_none (by cases p <;> decide)
  have hcommand : picCommandRows.find? (rowFits ctx (busWord true (dataPort p) v)) = none :=
    find?_rowFits_eq_none (by cases p <;> decide)
  have hmask : busWord true (dataPort p) v &&& 0x1FF7F00 = 0x1002100 :=
    busWord_and_eq (by decide) (by cases p <;> decide) BitVec.and_zero
  simp only [decodeBus, rows, List.find?_append, hpit, hcommand, picDataRows, List.find?_cons, rowFits, hmask, initIs,
    picOf_dataPort, beq_self_eq_true, Bool.true_and, Option.none_or]
  have hdata : btwData (busWord true (dataPort p) v) = v := btwData_busWord true (dataPort p) v
  have hpic : picOf (busWord true (dataPort p) v) = p := picOf_dataPort p true v
  have hbit : ∀ i < 8, (busWord true (dataPort p) v).getLsbD i = v.getLsbD i := fun _ => getLsbD_busWord_data
  generalize busWord true (dataPort p) v = w at hdata hpic hbit ⊢
  cases ctxInit ctx p with
  | ready => exact congrArg Except.ok (congrArg₂ Instr.picOcw1 hpic hdata)
  | icw2 => exact congrArg Except.ok (congrArg₂ Instr.picIcw2 hpic hdata)
  | icw3 => exact congrArg Except.ok (congrArg₂ Instr.picIcw3 hpic hdata)
  | icw4 =>
    rw [dataByte, ← hpic, ← hbit 4 (by decide), ← hbit 3 (by decide), ← hbit 2 (by decide), ← hbit 1 (by decide),
      ← hbit 0 (by decide)]
    rfl

end Sys2Proof

namespace Sys2Proof.Machine

/-! ### Issuing bytes (R14, R71) -/

open Sys2Proof.Claims (dataByte)

/-- The request issued next runs the operation it decodes to, and the rest follows. -/
theorem issueSeq_cons {r : Request} {i : Instr} {s t : State} (rs : List Request)
    (hdecode : decode s.decodeCtx r = .ok i) (hexec : exec i s = .next t) : issueSeq (r :: rs) s = issueSeq rs t := by
  have hstep : step (s.withNextRequest r) = .next t :=
    (stepRunsDecoded (s.withNextRequest r) r s.inbox i rfl hdecode).trans hexec
  simp only [issueSeq, hstep]

theorem decodeCtx_init (s : State) (p : PicId) : ctxInit s.decodeCtx p = (s.pic p).initState := by
  cases p <;> rfl

theorem issueSeq_dataByte {p : PicId} {v : Byte} {st : InitState} {s t : State} (rs : List Request)
    (hst : (s.pic p).initState = st) (hexec : exec (dataByte p v st) s = .next t) :
    issueSeq (outReq (dataPort p) v :: rs) s = issueSeq rs t := by
  refine issueSeq_cons rs ?_ hexec
  rw [decode_outReq, decodeBus_dataByte, decodeCtx_init, hst]

/-! ### The initialization words, one after another (R257 to R260) -/

/-- `update()` reaches a PIC's requests and edge latches only. -/
theorem update_pic (s : State) (p : PicId) :
    s.update.pic p = { s.pic p with irr := (s.update.pic p).irr, elatch := (s.update.pic p).elatch } := by
  cases p with
  | master => exact congrArg State.master (update_settled s).frame
  | slave => rfl

/-- The PIC after ICW1, but for its requests and edge latches, which its `update()` may move. -/
theorem issueSeq_icw1 (p : PicId) {v : Byte} (h : v.getLsbD 4 = true) (s : State) : ∃ t,
    (∀ rs, issueSeq (outReq (cmdPort p) v :: rs) s = issueSeq rs t) ∧
    t.pic p = { (s.pic p).icw1 (v.getLsbD 3) (v.getLsbD 1) (v.getLsbD 0) with
      irr := (t.pic p).irr, elatch := (t.pic p).elatch } := by
  refine ⟨_, fun rs => issueSeq_cons rs ((decode_outReq _ _ _).trans (decodeBus_icw1 _ p h)) rfl, ?_⟩
  have hpic := update_pic (s.startOp.setPic p ((s.pic p).icw1 (v.getLsbD 3) (v.getLsbD 1) (v.getLsbD 0))) p
  rw [State.setPic_pic_self] at hpic
  simpa [State.writePic] using hpic

theorem issueSeq_icw2 {p : PicId} {s : State} (v : Byte) (h : (s.pic p).initState = .icw2) : ∃ t,
    (∀ rs, issueSeq (outReq (dataPort p) v :: rs) s = issueSeq rs t) ∧
    t.pic p = { s.pic p with
      base := v &&& 0xF8
      initState := if (s.pic p).sngl then afterIcw3 (s.pic p).ic4 else .icw3 } :=
  ⟨_, fun rs => issueSeq_dataByte rs h rfl, State.setPic_pic_self _ _ _⟩

/-- ICW3 is written unless SNGL (R258, R259). -/
theorem issueSeq_icw3 {p : PicId} {s : State} (v : Byte)
    (h : (s.pic p).initState = if (s.pic p).sngl then afterIcw3 (s.pic p).ic4 else .icw3) : ∃ t,
    (∀ rs, issueSeq ((if (s.pic p).sngl then [] else [outReq (dataPort p) v]) ++ rs) s = issueSeq rs t) ∧
    t.pic p = { s.pic p with
      icw3 := if (s.pic p).sngl then (s.pic p).icw3 else v
      initState := afterIcw3 (s.pic p).ic4 } := by
  cases hsngl : (s.pic p).sngl with
  | true =>
    simp only [hsngl, if_true] at h
    refine ⟨s, fun _ => rfl, ?_⟩
    rw [← h]
    rfl
  | false =>
    simp only [hsngl, Bool.false_eq_true, if_false] at h
    exact ⟨_, fun rs => issueSeq_dataByte rs h rfl, State.setPic_pic_self _ _ _⟩

/-- ICW4 is written if IC4 asked for it (R260). -/
theorem issueSeq_icw4 {p : PicId} {s : State} (v : Byte) (h : (s.pic p).initState = afterIcw3 (s.pic p).ic4) : ∃ t,
    issueSeq (if (s.pic p).ic4 then [outReq (dataPort p) v] else []) s = some t ∧
    t.pic p = { s.pic p with
      sfnm := if (s.pic p).ic4 then v.getLsbD 4 else (s.pic p).sfnm
      aeoi := if (s.pic p).ic4 then v.getLsbD 1 else (s.pic p).aeoi
      initState := .ready } := by
  cases hic4 : (s.pic p).ic4 with
  | true =>
    rw [hic4] at h
    exact ⟨_, issueSeq_dataByte [] h rfl, State.setPic_pic_self _ _ _⟩
  | false =>
    rw [hic4] at h
    refine ⟨s, rfl, ?_⟩
    rw [← show (s.pic p).initState = .ready from h]
    rfl

/-- Settles O39: each word leaves the sequencer awaiting the next one that ICW1 announced. -/
theorem initializationSequence : Obligations.InitializationSequence := by
  intro p v1 v2 v3 v4 s hicw1
  obtain ⟨t1, h1, e1⟩ := issueSeq_icw1 p hicw1 s
  obtain ⟨t2, h2, e2⟩ := issueSeq_icw2 (p := p) (s := t1) v2 (by rw [e1]; rfl)
  obtain ⟨t3, h3, e3⟩ := issueSeq_icw3 (p := p) (s := t2) v3 (by rw [e2])
  obtain ⟨t4, h4, e4⟩ := issueSeq_icw4 (p := p) (s := t3) v4 (by rw [e3])
  have hsngl : (t2.pic p).sngl = v1.getLsbD 1 := by rw [e2, e1]; rfl
  have hic4 : (t3.pic p).ic4 = v1.getLsbD 0 := by rw [e3, e2, e1]; rfl
  rw [hsngl] at h3 e3
  rw [hic4] at h4 e4
  refine ⟨t4, ?_, ?_⟩
  · rw [List.append_assoc, List.cons_append, List.cons_append, List.nil_append, h1, h2, h3, h4]
  · rw [e4, e3, e2, e1]
    cases v1.getLsbD 0 <;> simp [Pic.icw1]

end Sys2Proof.Machine
end

section
/-! PROOFS of the statements of 20_memory.md section 2: the table answers every access to the ports of R62 and no other
(R100, R102), a wide access to one of them leaves its mark (R64), an access to any other is refused, and with nothing
issued the block rests. -/

namespace Sys2Proof

/-! ### When a row fits a word (R81, R102) -/

/-- The row's mask and pattern, field by field, fit an access. -/
abbrev Row.Takes (r : Row) (write : Bool) (port : Port) (data : Byte) : Prop :=
  (write && btwWrite r.mask) = btwWrite r.pattern ∧ port &&& btwPort r.mask = btwPort r.pattern ∧
    data &&& btwData r.mask = btwData r.pattern

theorem busWord_fields (w : Btw) : busWord (btwWrite w) (btwPort w) (btwData w) = w :=
  btw_ext (btwWrite_busWord ..) (btwPort_busWord ..) (btwData_busWord ..)

theorem rowFits_iff {ctx : DecodeCtx} {w : Btw} {r : Row} :
    rowFits ctx w r = true ↔ r.Takes (btwWrite w) (btwPort w) (btwData w) ∧ r.cond ctx w = true := by
  have hmask : w &&& r.mask = r.pattern ↔ r.Takes (btwWrite w) (btwPort w) (btwData w) := by
    refine ⟨fun h => ?_, fun ⟨hwrite, hport, hdata⟩ => ?_⟩
    · rw [Row.Takes, ← h, btwWrite_and, btwPort_and, btwData_and]
      exact ⟨rfl, rfl, rfl⟩
    · rw [← busWord_fields w]
      exact busWord_and_eq hwrite hport hdata
  rw [rowFits, Bool.and_eq_true, beq_iff_eq, hmask]

theorem decodeBus_isOk_iff {ctx : DecodeCtx} {w : Btw} :
    (∃ i, decodeBus ctx w = .ok i) ↔ ∃ r ∈ rows, rowFits ctx w r = true := by
  rw [← List.find?_isSome, decodeBus]
  cases rows.find? (rowFits ctx w) <;> simp

/-- A row that tests no data bit takes every byte. -/
theorem Row.Takes.anyData {r : Row} {write : Bool} {port : Port} (h : r.Takes write port 0)
    (hmask : btwData r.mask = 0) (data : Byte) : r.Takes write port data := by
  obtain ⟨hwrite, hport, hdata⟩ := h
  refine ⟨hwrite, hport, ?_⟩
  simp [← hdata, hmask]

theorem decodeBus_isOk_of_takes {ctx : DecodeCtx} {write : Bool} {port : Port} {data : Byte} {r : Row} (hr : r ∈ rows)
    (htakes : r.Takes write port data) (hcond : r.cond ctx (busWord write port data) = true) :
    ∃ i, decodeBus ctx (busWord write port data) = .ok i :=
  decodeBus_isOk_iff.2 ⟨r, hr, rowFits_iff.2 ⟨by simpa using htakes, hcond⟩⟩

/-! ### No row takes another port (R62) -/

/-- The port bits that some row leaves open: the PICs share rows by bit 7, the channels by bits 1:0, the ELCRs and a
poll's two ports by bit 0 (R102). -/
def openBits (b7 b1 b0 : Bool) : Port :=
  (if b7 then 0x80 else 0) ||| (if b1 then 0x02 else 0) ||| (if b0 then 0x01 else 0)

theorem and_openBits (port : Port) :
    port &&& openBits true true true = openBits (port.getLsbD 7) (port.getLsbD 1) (port.getLsbD 0) := by
  have hbits : openBits true true true = BitVec.twoPow 16 7 ||| BitVec.twoPow 16 1 ||| BitVec.twoPow 16 0 := by decide
  rw [hbits, BitVec.and_or_distrib_left, BitVec.and_or_distrib_left, BitVec.and_twoPow, BitVec.and_twoPow,
    BitVec.and_twoPow]
  rfl

/-- A port that a row takes is the row's pattern with some choice of the bits that its mask leaves open. -/
theorem port_eq_of_takes {r : Row} (hr : r ∈ rows) {write : Bool} {port : Port} {data : Byte}
    (h : r.Takes write port data) :
    port = btwPort r.pattern |||
      openBits (port.getLsbD 7) (port.getLsbD 1) (port.getLsbD 0) &&& ~~~btwPort r.mask := by
  have hopen : ∀ r ∈ rows, openBits true true true &&& ~~~btwPort r.mask = ~~~btwPort r.mask := by decide
  obtain ⟨-, hport, -⟩ := h
  rw [← hport, ← and_openBits, BitVec.and_assoc, hopen r hr, ← BitVec.and_or_distrib_left, BitVec.or_not_self,
    BitVec.and_allOnes]

theorem mem_blockPorts_of_takes {r : Row} (hr : r ∈ rows) {write : Bool} {port : Port} {data : Byte}
    (h : r.Takes write port data) : port ∈ blockPorts := by
  have hports : ∀ r ∈ rows, ∀ b7 b1 b0 : Bool,
      btwPort r.pattern ||| openBits b7 b1 b0 &&& ~~~btwPort r.mask ∈ blockPorts := by decide
  rw [port_eq_of_takes hr h]
  exact hports r hr _ _ _

/-! ### Every access to the block's ports has a row (R100) -/

/-- The ports that are not the PICs': in each direction one row takes every byte in every state. -/
def plainPorts : List Port := [0x40, 0x41, 0x42, 0x43, 0x4D0, 0x4D1, 0x61]

theorem mem_blockPorts_cases {port : Port} (h : port ∈ blockPorts) :
    port ∈ plainPorts ∨ ∃ p, port = cmdPort p ∨ port = dataPort p := by
  have hsplit : blockPorts ⊆
      plainPorts ++ ([cmdPort .master, dataPort .master] ++ [cmdPort .slave, dataPort .slave]) := by decide
  have hmem := hsplit h
  rw [List.mem_append, List.mem_append, List.mem_pair, List.mem_pair] at hmem
  exact hmem.imp_right (Or.elim · (⟨.master, ·⟩) (⟨.slave, ·⟩))

theorem decodeBus_isOk_plain (ctx : DecodeCtx) (write : Bool) {port : Port} (h : port ∈ plainPorts) (data : Byte) :
    ∃ i, decodeBus ctx (busWord write port data) = .ok i := by
  have hrow : ∃ r ∈ pitRows ++ otherRows, r.Takes write port 0 ∧ btwData r.mask = 0 := by
    simp only [plainPorts, List.mem_cons, List.not_mem_nil, or_false] at h
    revert write
    rcases h with rfl | rfl | rfl | rfl | rfl | rfl | rfl <;> decide
  have hcond : ∀ r ∈ pitRows ++ otherRows, ∀ w, r.cond ctx w = true := by simp [pitRows, otherRows, always]
  obtain ⟨r, hr, htakes, hmask⟩ := hrow
  exact decodeBus_isOk_of_takes (by simp only [rows, List.mem_append] at hr ⊢; tauto) (htakes.anyData hmask data)
    (hcond r hr _)

/-- Every byte written to a command port is ICW1, OCW3 or one of the OCW2 commands (R88, R94). -/
theorem decodeBus_isOk_command (ctx : DecodeCtx) (p : PicId) (v : Byte) :
    ∃ i, decodeBus ctx (busWord true (cmdPort p) v) = .ok i := by
  have hbyte : ∀ v : Byte, ∃ r ∈ picCommandRows, v &&& btwData r.mask = btwData r.pattern := by decide
  have hport : ∀ r ∈ picCommandRows, btwWrite r.mask = btwWrite r.pattern ∧
      cmdPort p &&& btwPort r.mask = btwPort r.pattern := by cases p <;> decide
  have hcond : ∀ r ∈ picCommandRows, ∀ w, r.cond ctx w = true := by simp [picCommandRows, always]
  obtain ⟨r, hr, hdata⟩ := hbyte v
  obtain ⟨hwrite, hport⟩ := hport r hr
  exact decodeBus_isOk_of_takes (by simp [rows, hr]) ⟨hwrite, hport, hdata⟩ (hcond r hr _)

/-- A read of a PIC's port is a poll read while a poll is pending, else the port's own read (R101, R102). -/
theorem decodeBus_isOk_read (ctx : DecodeCtx) {p : PicId} {port : Port} (h : port = cmdPort p ∨ port = dataPort p)
    (data : Byte) : ∃ i, decodeBus ctx (busWord false port data) = .ok i := by
  have hrow : ∀ b, ∃ r ∈ picReadRows, r.Takes false port 0 ∧ btwData r.mask = 0 ∧ r.cond = pollIs b := by
    intro b
    cases b with
    | true => exact ⟨_, .head _, by rcases h with rfl | rfl <;> cases p <;> decide, rfl, rfl⟩
    | false =>
      rcases h with rfl | rfl
      · exact ⟨_, .tail _ (.head _), by cases p <;> decide, rfl, rfl⟩
      · exact ⟨_, .tail _ (.tail _ (.head _)), by cases p <;> decide, rfl, rfl⟩
  have hpic : picOf (busWord false port data) = p := by
    rcases h with rfl | rfl
    · exact picOf_cmdPort p false data
    · exact picOf_dataPort p false data
  obtain ⟨r, hr, htakes, hmask, hcond⟩ := hrow (ctxPoll ctx p)
  exact decodeBus_isOk_of_takes (by simp [rows, hr]) (htakes.anyData hmask data)
    (by rw [hcond, pollIs, hpic, beq_self_eq_true])

theorem decodeBus_isOk_of_mem_blockPorts (ctx : DecodeCtx) (write : Bool) {port : Port} (h : port ∈ blockPorts)
    (data : Byte) : ∃ i, decodeBus ctx (busWord write port data) = .ok i := by
  obtain hplain | ⟨p, hpic⟩ := mem_blockPorts_cases h
  · exact decodeBus_isOk_plain ctx write hplain data
  · cases write with
    | false => exact decodeBus_isOk_read ctx hpic data
    | true =>
      rcases hpic with rfl | rfl
      · exact decodeBus_isOk_command ctx p data
      · exact ⟨_, decodeBus_dataByte ctx p data⟩

/-- Settles O3: the rows' masks and patterns confine the port to R62, and each port's rows cover every access to it. -/
theorem blockPortsDecode : Obligations.BlockPortsDecode := by
  refine fun ctx w => ⟨fun hok => ?_, fun hport => ?_⟩
  · obtain ⟨r, hr, hfits⟩ := decodeBus_isOk_iff.1 hok
    exact mem_blockPorts_of_takes hr (rowFits_iff.1 hfits).1
  · rw [← busWord_fields w]
    exact decodeBus_isOk_of_mem_blockPorts ctx _ hport _

/-! ### Requests that are no operation (R62, R64) -/

theorem decodeBus_of_not_mem_blockPorts (ctx : DecodeCtx) {w : Btw} (h : btwPort w ∉ blockPorts) :
    decodeBus ctx w = .error (.notBlockPort (btwPort w)) := by
  have hnone : rows.find? (rowFits ctx w) = none :=
    List.find?_eq_none.2 fun r hr hfits => h (mem_blockPorts_of_takes hr (rowFits_iff.1 hfits).1)
  rw [decodeBus, hnone]

theorem isBlockPort_iff {port : Port} : isBlockPort port = true ↔ port ∈ blockPorts := List.contains_iff_mem

theorem decode_wide_blockPort (ctx : DecodeCtx) {port : Port} (h : port ∈ blockPorts) (width : WideWidth) :
    decode ctx (.wide port width) = .error (.wideAccess port width) := by
  rw [decode, if_pos (isBlockPort_iff.2 h)]

theorem decode_wide_otherPort (ctx : DecodeCtx) {port : Port} (h : port ∉ blockPorts) (width : WideWidth) :
    decode ctx (.wide port width) = .error (.notBlockPort port) := by
  rw [decode, if_neg (mt isBlockPort_iff.1 h)]

end Sys2Proof

namespace Sys2Proof.Machine

theorem insertFault_eq (f : Fault) (fs : List Fault) : insertFault f fs = if f ∈ fs then fs else fs ++ [f] := by
  simp only [insertFault, List.contains_iff_mem]

theorem fetch_nil {s : State} (h : s.inbox = []) : fetch s = none := by
  simp [fetch, h]

/-- The request taken is refused in whatever context the other requests leave (log 1). -/
theorem step_of_notBlockPort {s : State} {r : Request} {rest : List Request} {port : Port} (h : s.inbox = r :: rest)
    (hdecode : ∀ ctx, decode ctx r = .error (.notBlockPort port)) : step s = .refused (.notBlockPort port) := by
  simp only [step, fetch_cons h, hdecode]

/-- Settles O7: the mark is all that `wideAccess` adds to an operation's start. -/
theorem wideAccessMarks : Obligations.WideAccessMarks := by
  intro s port width rest hinbox hport
  simp only [step, fetch_cons hinbox, decode_wide_blockPort _ hport, wideAccess, State.raiseFault, insertFault_eq]
  rfl

/-- Settles O8: an access to another port decodes to no row, and without a request there is nothing to decode. -/
theorem nothingForTheBlock : Obligations.NothingForTheBlock := by
  refine ⟨fun s w rest hinbox hport => ?_, fun s port width rest hinbox hport => ?_, fun s hinbox => ?_⟩
  · exact step_of_notBlockPort hinbox fun ctx => decodeBus_of_not_mem_blockPorts ctx hport
  · exact step_of_notBlockPort hinbox fun ctx => decode_wide_otherPort ctx hport width
  · simp only [step, fetch_nil hinbox]

end Sys2Proof.Machine
end

section
/-! PROOFS of the statements of 30_encoding.md (R81 to R102): an access's direction and port keep a few rows of the
table, the first of them that its byte fits is the operation of the byte's fields, and the encoder writes those fields
back. Then two operations in full: a count written and read back, and a poll read with nothing to acknowledge. -/

namespace Sys2Proof

open Sys2Proof.Claims (controlWord commandByte dataByte fieldDecode droppedBits)

/-! ### The rows of one direction and port (R102) -/

/-- The rows whose mask and pattern fit an access's direction and port, in table order. -/
def portRows (write : Bool) (port : Port) : List Row :=
  rows.filter fun r => (write && btwWrite r.mask) == btwWrite r.pattern && port &&& btwPort r.mask == btwPort r.pattern

/-- The row's data bits and its `cond` fit a word. -/
def Row.dataFits (r : Row) (ctx : DecodeCtx) (w : Btw) : Bool :=
  btwData w &&& btwData r.mask == btwData r.pattern && r.cond ctx w

theorem find?_rowFits (ctx : DecodeCtx) (w : Btw) :
    rows.find? (rowFits ctx w) = (portRows (btwWrite w) (btwPort w)).find? (·.dataFits ctx w) := by
  rw [portRows, List.find?_filter]
  refine congrArg (rows.find? ·) (funext fun r => Bool.eq_iff_iff.2 ?_)
  simp [rowFits_iff, Row.dataFits, and_assoc]

/-- First fit: the rows of the direction and port that stand before the selected one do not fit. -/
theorem decodeBus_of_portRows {ctx : DecodeCtx} {write : Bool} {port : Port} {data : Byte} {i : Instr}
    (pre : List Row) (r : Row) {post : List Row} (hrows : portRows write port = pre ++ r :: post)
    (hpre : ∀ x ∈ pre, x.dataFits ctx (busWord write port data) = false)
    (hfits : r.dataFits ctx (busWord write port data) = true) (hbuild : r.build (busWord write port data) = i) :
    decodeBus ctx (busWord write port data) = .ok i := by
  have hfind : rows.find? (rowFits ctx (busWord write port data)) = some r := by
    rw [find?_rowFits, btwWrite_busWord, btwPort_busWord, hrows]
    exact List.find?_eq_some_iff_append.2 ⟨hfits, pre, post, rfl, by simpa using hpre⟩
  rw [decodeBus, hfind, ← hbuild]

section
variable {r : Row} (hcond : r.cond = always)
include hcond

theorem Row.dataFits_iff {ctx : DecodeCtx} {write : Bool} {port : Port} {data : Byte} :
    r.dataFits ctx (busWord write port data) = true ↔ data &&& btwData r.mask = btwData r.pattern := by
  simp [Row.dataFits, hcond, always]

theorem Row.dataFits_eq_false {ctx : DecodeCtx} {write : Bool} {port : Port} {data : Byte}
    (h : data &&& btwData r.mask ≠ btwData r.pattern) : r.dataFits ctx (busWord write port data) = false :=
  Bool.eq_false_iff.2 (mt (Row.dataFits_iff hcond).1 h)

/-- A row that tests no data bit and has no `cond` fits every byte. -/
theorem Row.dataFits_of_always (hmask : btwData r.mask = 0) (hpattern : btwData r.pattern = 0)
    (ctx : DecodeCtx) (write : Bool) (port : Port) (data : Byte) :
    r.dataFits ctx (busWord write port data) = true := by
  rw [Row.dataFits_iff hcond, hmask, hpattern]
  exact BitVec.and_zero

end

theorem extractLsb'_busWord_data {write : Bool} {port : Port} {data : Byte} {i n : Nat} (h : i + n ≤ 8) :
    (busWord write port data).extractLsb' i n = data.extractLsb' i n := by
  refine BitVec.eq_of_getLsbD_eq fun j hj => ?_
  rw [BitVec.getLsbD_extractLsb', BitVec.getLsbD_extractLsb', getLsbD_busWord_data (by omega)]

theorem extractLsb'_busWord_port {write : Bool} {port : Port} {data : Byte} {n : Nat} (h : n ≤ 16) :
    (busWord write port data).extractLsb' 8 n = port.extractLsb' 0 n := by
  refine BitVec.eq_of_getLsbD_eq fun j hj => ?_
  have hlo : ¬8 + j < 8 := by omega
  have hhi : 8 + j < 24 := by omega
  simp [getLsbD_busWord, hlo, hhi]

/-! ### Ports outside the PICs' -/

theorem decodeBus_controlRead (ctx : DecodeCtx) (data : Byte) :
    decodeBus ctx (busWord false 0x43 data) = .ok .pitCtrlRead :=
  decodeBus_of_portRows [] pitRows[3] rfl nofun (Row.dataFits_of_always rfl rfl rfl ..) rfl

theorem chanOf_chanPort (c : Chan) (write : Bool) (data : Byte) :
    chanOf ((busWord write (chanPort c) data).extractLsb' 8 2) = c := by
  rw [extractLsb'_busWord_port (by decide)]
  fin_cases c <;> rfl

theorem decodeBus_countWrite (ctx : DecodeCtx) (c : Chan) (v : Byte) :
    decodeBus ctx (busWord true (chanPort c) v) = .ok (.pitDataWrite c v) :=
  decodeBus_of_portRows [] pitRows[4] (by fin_cases c <;> rfl) nofun (Row.dataFits_of_always rfl rfl rfl ..)
    (congrArg₂ Instr.pitDataWrite (chanOf_chanPort c true v) (btwData_busWord ..))

theorem decodeBus_countRead (ctx : DecodeCtx) (c : Chan) (data : Byte) :
    decodeBus ctx (busWord false (chanPort c) data) = .ok (.pitDataRead c) :=
  decodeBus_of_portRows [] pitRows[5] (by fin_cases c <;> rfl) nofun (Row.dataFits_of_always rfl rfl rfl ..)
    (congrArg Instr.pitDataRead (chanOf_chanPort c false data))

theorem elcrPicOf_elcrPort (p : PicId) (write : Bool) (data : Byte) :
    elcrPicOf (busWord write (elcrPort p) data) = p := by
  rw [elcrPicOf, getLsbD_busWord]
  cases p <;> rfl

theorem decodeBus_elcrWrite (ctx : DecodeCtx) (p : PicId) (v : Byte) :
    decodeBus ctx (busWord true (elcrPort p) v) = .ok (.elcrWrite p v) :=
  decodeBus_of_portRows [] otherRows[0] (by cases p <;> rfl) nofun (Row.dataFits_of_always rfl rfl rfl ..)
    (congrArg₂ Instr.elcrWrite (elcrPicOf_elcrPort p true v) (btwData_busWord ..))

theorem decodeBus_elcrRead (ctx : DecodeCtx) (p : PicId) (data : Byte) :
    decodeBus ctx (busWord false (elcrPort p) data) = .ok (.elcrRead p) :=
  decodeBus_of_portRows [] otherRows[1] (by cases p <;> rfl) nofun (Row.dataFits_of_always rfl rfl rfl ..)
    (congrArg Instr.elcrRead (elcrPicOf_elcrPort p false data))

theorem decodeBus_spkrWrite (ctx : DecodeCtx) (v : Byte) :
    decodeBus ctx (busWord true 0x61 v) = .ok (.spkrWrite v) :=
  decodeBus_of_portRows [] otherRows[2] rfl nofun (Row.dataFits_of_always rfl rfl rfl ..)
    (congrArg Instr.spkrWrite (btwData_busWord ..))

theorem decodeBus_spkrRead (ctx : DecodeCtx) (data : Byte) :
    decodeBus ctx (busWord false 0x61 data) = .ok .spkrRead :=
  decodeBus_of_portRows [] otherRows[3] rfl nofun (Row.dataFits_of_always rfl rfl rfl ..) rfl

/-! ### The control word (R83, R84) -/

theorem controlWord_of_readback {v : Byte} (h : v &&& 0xC0 = 0xC0) : controlWord v =
    .pitReadback (v.getLsbD 5) (v.getLsbD 4) (v.getLsbD 3) (v.getLsbD 2) (v.getLsbD 1) := by
  revert v; decide

theorem controlWord_of_latch {v : Byte} (hch : v &&& 0xC0 ≠ 0xC0) (h : v &&& 0x30 = 0) :
    controlWord v = .pitLatch (chanOf (v.extractLsb' 6 2)) := by
  revert v; decide

theorem controlWord_of_mode {v : Byte} (hch : v &&& 0xC0 ≠ 0xC0) (hrw : v &&& 0x30 ≠ 0) : controlWord v =
    .pitMode (chanOf (v.extractLsb' 6 2)) (rwOf (v.extractLsb' 4 2)) (v.extractLsb' 1 3) (v.getLsbD 0) := by
  revert v; decide

/-- A byte written to port 0x43 is a read-back by v[7:6], else a latch command by v[5:4], else a mode word. -/
theorem decodeBus_control (ctx : DecodeCtx) (v : Byte) :
    decodeBus ctx (busWord true 0x43 v) = .ok (controlWord v) := by
  by_cases hch : v &&& 0xC0 = 0xC0
  · have hfits : pitRows[0].dataFits ctx (busWord true 0x43 v) = true := (Row.dataFits_iff rfl).2 hch
    refine decodeBus_of_portRows [] pitRows[0] rfl nofun hfits ?_
    simp only [controlWord_of_readback hch, pitRows, List.getElem_cons_zero, getLsbD_busWord_data, Nat.reduceLT]
  · have hreadback : pitRows[0].dataFits ctx (busWord true 0x43 v) = false := Row.dataFits_eq_false rfl hch
    by_cases hrw : v &&& 0x30 = 0
    · have hfits : pitRows[1].dataFits ctx (busWord true 0x43 v) = true := (Row.dataFits_iff rfl).2 hrw
      refine decodeBus_of_portRows [pitRows[0]] pitRows[1] rfl (by simpa using hreadback) hfits ?_
      simp only [controlWord_of_latch hch hrw, pitRows, List.getElem_cons_zero, List.getElem_cons_succ,
        extractLsb'_busWord_data, Nat.reduceLeDiff, Nat.reduceAdd]
    · have hlatch : pitRows[1].dataFits ctx (busWord true 0x43 v) = false := Row.dataFits_eq_false rfl hrw
      refine decodeBus_of_portRows [pitRows[0], pitRows[1]] pitRows[2] rfl (by simpa using ⟨hreadback, hlatch⟩)
        (Row.dataFits_of_always rfl rfl rfl ..) ?_
      simp only [controlWord_of_mode hch hrw, pitRows, List.getElem_cons_zero, List.getElem_cons_succ,
        getLsbD_busWord_data, extractLsb'_busWord_data, Nat.reduceLeDiff, Nat.reduceAdd, Nat.reduceLT]

/-! ### The PICs' command ports (R88, R94) -/

/-- The OCW2 operation of a command, v[7:5], and a level, v[2:0] (R94). -/
def ocw2Instr (p : PicId) (l : Input) (cmd : BitVec 3) : Instr :=
  match cmd with
  | 0 => .picRotAeoiClr p
  | 1 => .picNseoi p
  | 2 => .picNop p
  | 3 => .picSeoi p l
  | 4 => .picRotAeoiSet p
  | 5 => .picRotNseoi p
  | 6 => .picSetPrio p l
  | _ => .picRotSeoi p l

theorem ocw2Command_cases : ∀ cmd : BitVec 3,
    cmd = 0 ∨ cmd = 1 ∨ cmd = 2 ∨ cmd = 3 ∨ cmd = 4 ∨ cmd = 5 ∨ cmd = 6 ∨ cmd = 7 := by decide

theorem ocw2Byte_fields {v : Byte} (h4 : v.getLsbD 4 = false) (h3 : v.getLsbD 3 = false) :
    v = ocw2Byte (v.extractLsb' 5 3) (v.extractLsb' 0 3).toFin := by
  revert v; decide

theorem ocw2Byte_level : ∀ (cmd : BitVec 3) (l : Input), ((ocw2Byte cmd l).extractLsb' 0 3).toFin = l := by decide

theorem commandByte_ocw2Byte (p : PicId) (cmd : BitVec 3) (l : Input) :
    commandByte p (ocw2Byte cmd l) = ocw2Instr p l cmd := by
  have hbits : ∀ (cmd : BitVec 3) (l : Input),
      (ocw2Byte cmd l).getLsbD 4 = false ∧ (ocw2Byte cmd l).getLsbD 3 = false ∧
      (ocw2Byte cmd l).getLsbD 7 = cmd.getLsbD 2 ∧ (ocw2Byte cmd l).getLsbD 6 = cmd.getLsbD 1 ∧
      (ocw2Byte cmd l).getLsbD 5 = cmd.getLsbD 0 := by decide
  obtain ⟨h4, h3, h7, h6, h5⟩ := hbits cmd l
  simp only [commandByte, h4, h3, ocw2Byte_level, h7, h6, h5]
  rcases ocw2Command_cases cmd with rfl | rfl | rfl | rfl | rfl | rfl | rfl | rfl <;> rfl

theorem portRows_cmdPort (p : PicId) : portRows true (cmdPort p) = picCommandRows := by cases p <;> rfl

theorem levelOf_busWord (write : Bool) (port : Port) (data : Byte) :
    levelOf (busWord write port data) = (data.extractLsb' 0 3).toFin := by
  rw [levelOf, extractLsb'_busWord_data (by decide)]

theorem ocw2Row_build (cmd : BitVec 3) (h : 2 + cmd.toNat < picCommandRows.length) (w : Btw) :
    picCommandRows[2 + cmd.toNat].build w = ocw2Instr (picOf w) (levelOf w) cmd := by
  rcases ocw2Command_cases cmd with rfl | rfl | rfl | rfl | rfl | rfl | rfl | rfl <;> rfl

/-- An OCW2 byte passes the rows of ICW1, of OCW3 and of the lower commands. -/
theorem decodeBus_ocw2Byte (ctx : DecodeCtx) (p : PicId) (cmd : BitVec 3) (l : Input) :
    decodeBus ctx (busWord true (cmdPort p) (ocw2Byte cmd l)) = .ok (ocw2Instr p l cmd) := by
  have hlength : 2 + cmd.toNat < picCommandRows.length := Nat.add_lt_add_left cmd.isLt 2
  have hcond : ∀ x ∈ picCommandRows, x.cond = always := by simp [picCommandRows]
  have hpre : ∀ (cmd : BitVec 3) (l : Input), ∀ x ∈ picCommandRows.take (2 + cmd.toNat),
      ocw2Byte cmd l &&& btwData x.mask ≠ btwData x.pattern := by decide
  have hfits : ∀ (cmd : BitVec 3) (l : Input) (h : 2 + cmd.toNat < picCommandRows.length),
      ocw2Byte cmd l &&& btwData picCommandRows[2 + cmd.toNat].mask =
        btwData picCommandRows[2 + cmd.toNat].pattern := by decide
  refine decodeBus_of_portRows (picCommandRows.take (2 + cmd.toNat)) picCommandRows[2 + cmd.toNat]
    ?_ (fun x hx => ?_) ?_ ?_ (post := picCommandRows.drop (2 + cmd.toNat + 1))
  · rw [portRows_cmdPort, List.getElem_cons_drop, List.take_append_drop]
  · exact Row.dataFits_eq_false (hcond x (List.mem_of_mem_take hx)) (hpre cmd l x hx)
  · exact (Row.dataFits_iff (hcond _ (List.getElem_mem hlength))).2 (hfits cmd l hlength)
  · rw [ocw2Row_build, picOf_cmdPort, levelOf_busWord, ocw2Byte_level]

/-- A byte written to a command port is ICW1 by v[4], else OCW3 by v[3], else an OCW2 command. -/
theorem decodeBus_command (ctx : DecodeCtx) (p : PicId) (v : Byte) :
    decodeBus ctx (busWord true (cmdPort p) v) = .ok (commandByte p v) := by
  cases h4 : v.getLsbD 4 with
  | true => rw [decodeBus_icw1 ctx p h4, commandByte, if_pos h4]
  | false =>
    cases h3 : v.getLsbD 3 with
    | true =>
      have hmiss : v &&& 0x10 ≠ 0x10 := by revert v; decide
      have hhit : v &&& 0x18 = 0x08 := by revert v; decide
      have hicw1 : picCommandRows[0].dataFits ctx (busWord true (cmdPort p) v) = false :=
        Row.dataFits_eq_false rfl hmiss
      have hocw3 : picCommandRows[1].dataFits ctx (busWord true (cmdPort p) v) = true := (Row.dataFits_iff rfl).2 hhit
      refine decodeBus_of_portRows [picCommandRows[0]] picCommandRows[1] (portRows_cmdPort p) (by simpa using hicw1)
        hocw3 ?_
      simp only [commandByte, h4, h3, Bool.false_eq_true, if_false, if_true, picCommandRows, List.getElem_cons_zero,
        List.getElem_cons_succ, getLsbD_busWord_data, Nat.reduceLT, picOf_cmdPort]
    | false => rw [ocw2Byte_fields h4 h3, decodeBus_ocw2Byte, commandByte_ocw2Byte]

/-! ### Reads of the PICs' ports (R101, R102) -/

/-- A PIC's data port or command port, by A0 (R62). -/
abbrev picPort (p : PicId) (a0 : Bool) : Port := if a0 then dataPort p else cmdPort p

/-- A read of a PIC's port: a poll read while a poll is pending, else the port's own read. -/
def picRead (p : PicId) (a0 poll : Bool) : Instr :=
  if poll then .picReadPoll p a0 else if a0 then .picReadData p else .picReadCmd p

theorem picOf_picPort (p : PicId) (a0 write : Bool) (data : Byte) : picOf (busWord write (picPort p a0) data) = p := by
  cases a0 with
  | true => exact picOf_dataPort p write data
  | false => exact picOf_cmdPort p write data

theorem decodeBus_picRead (ctx : DecodeCtx) (p : PicId) (a0 : Bool) (data : Byte) :
    decodeBus ctx (busWord false (picPort p a0) data) = .ok (picRead p a0 (ctxPoll ctx p)) := by
  have hpic := picOf_picPort p a0 false data
  have hrows : portRows false (picPort p a0) = [picReadRows[0], if a0 then picReadRows[2] else picReadRows[1]] := by
    cases p <;> cases a0 <;> rfl
  have ha0 : (busWord false (picPort p a0) data).getLsbD 8 = a0 := by
    rw [getLsbD_busWord]
    cases p <;> cases a0 <;> rfl
  have hfits : ∀ (r : Row) (b : Bool), r.cond = pollIs b → btwData r.mask = 0 → btwData r.pattern = 0 →
      r.dataFits ctx (busWord false (picPort p a0) data) = (ctxPoll ctx p == b) := by
    intro r b hcond hmask hpattern
    simp [Row.dataFits, hcond, hmask, hpattern, pollIs, hpic]
  have hpoll := hfits picReadRows[0] true rfl rfl rfl
  cases h : ctxPoll ctx p with
  | true =>
    exact decodeBus_of_portRows [] picReadRows[0] hrows nofun (by rw [hpoll, h]; rfl)
      (congrArg₂ Instr.picReadPoll hpic ha0)
  | false =>
    rw [h] at hpoll hfits
    cases a0 with
    | true =>
      exact decodeBus_of_portRows [picReadRows[0]] picReadRows[2] hrows (by simpa using hpoll)
        (hfits _ false rfl rfl rfl) (congrArg Instr.picReadData hpic)
    | false =>
      exact decodeBus_of_portRows [picReadRows[0]] picReadRows[1] hrows (by simpa using hpoll)
        (hfits _ false rfl rfl rfl) (congrArg Instr.picReadCmd hpic)

/-! ### All accesses at once (R62) -/

theorem blockPort_kinds {port : Port} (h : port ∈ blockPorts) :
    (∃ c, port = chanPort c) ∨ port = 0x43 ∨ (∃ p a0, port = picPort p a0) ∨ (∃ p, port = elcrPort p) ∨
      port = 0x61 := by
  simp only [blockPorts, List.mem_cons, List.not_mem_nil, or_false] at h
  rcases h with rfl | rfl | rfl | rfl | rfl | rfl | rfl | rfl | rfl | rfl | rfl
  · exact .inl ⟨0, rfl⟩
  · exact .inl ⟨1, rfl⟩
  · exact .inl ⟨2, rfl⟩
  · exact .inr (.inl rfl)
  · exact .inr (.inr (.inl ⟨.master, false, rfl⟩))
  · exact .inr (.inr (.inl ⟨.master, true, rfl⟩))
  · exact .inr (.inr (.inl ⟨.slave, false, rfl⟩))
  · exact .inr (.inr (.inl ⟨.slave, true, rfl⟩))
  · exact .inr (.inr (.inr (.inl ⟨.master, rfl⟩)))
  · exact .inr (.inr (.inr (.inl ⟨.slave, rfl⟩)))
  · exact .inr (.inr (.inr (.inr rfl)))

theorem fieldDecode_of_not_mem_blockPorts (ctx : DecodeCtx) (write : Bool) {port : Port} (h : port ∉ blockPorts)
    (v : Byte) : fieldDecode ctx write port v = none := by
  simp only [blockPorts, List.mem_cons, List.not_mem_nil, or_false, not_or] at h
  simp only [fieldDecode, h, if_false]

/-- What an access to a port of R62 is, by its direction, port and byte (R101, R102). -/
inductive Access (ctx : DecodeCtx) : Bool → Port → Byte → Instr → Prop
  | countWrite (c : Chan) (v : Byte) : Access ctx true (chanPort c) v (.pitDataWrite c v)
  | countRead (c : Chan) (v : Byte) : Access ctx false (chanPort c) v (.pitDataRead c)
  | control (v : Byte) : Access ctx true 0x43 v (controlWord v)
  | controlRead (v : Byte) : Access ctx false 0x43 v .pitCtrlRead
  | command (p : PicId) (v : Byte) : Access ctx true (cmdPort p) v (commandByte p v)
  | dataByte (p : PicId) (v : Byte) : Access ctx true (dataPort p) v (dataByte p v (ctxInit ctx p))
  | picRead (p : PicId) (a0 : Bool) (v : Byte) : Access ctx false (picPort p a0) v (picRead p a0 (ctxPoll ctx p))
  | elcrWrite (p : PicId) (v : Byte) : Access ctx true (elcrPort p) v (.elcrWrite p v)
  | elcrRead (p : PicId) (v : Byte) : Access ctx false (elcrPort p) v (.elcrRead p)
  | spkrWrite (v : Byte) : Access ctx true 0x61 v (.spkrWrite v)
  | spkrRead (v : Byte) : Access ctx false 0x61 v .spkrRead

theorem exists_access (ctx : DecodeCtx) (write : Bool) {port : Port} (h : port ∈ blockPorts) (v : Byte) :
    ∃ i, Access ctx write port v i := by
  obtain ⟨c, rfl⟩ | rfl | ⟨p, a0, rfl⟩ | ⟨p, rfl⟩ | rfl := blockPort_kinds h
  · cases write with
    | true => exact ⟨_, .countWrite c v⟩
    | false => exact ⟨_, .countRead c v⟩
  · cases write with
    | true => exact ⟨_, .control v⟩
    | false => exact ⟨_, .controlRead v⟩
  · cases write with
    | true =>
      cases a0 with
      | true => exact ⟨_, .dataByte p v⟩
      | false => exact ⟨_, .command p v⟩
    | false => exact ⟨_, .picRead p a0 v⟩
  · cases write with
    | true => exact ⟨_, .elcrWrite p v⟩
    | false => exact ⟨_, .elcrRead p v⟩
  · cases write with
    | true => exact ⟨_, .spkrWrite v⟩
    | false => exact ⟨_, .spkrRead v⟩

section
variable {ctx : DecodeCtx} {write : Bool} {port : Port} {v : Byte} {i : Instr} (h : Access ctx write port v i)
include h

/-- The table selects what the access is. -/
theorem Access.decodeBus_eq : decodeBus ctx (busWord write port v) = .ok i := by
  cases h with
  | countWrite c => exact decodeBus_countWrite ctx c v
  | countRead c => exact decodeBus_countRead ctx c v
  | control => exact decodeBus_control ctx v
  | controlRead => exact decodeBus_controlRead ctx v
  | command p => exact decodeBus_command ctx p v
  | dataByte p => exact decodeBus_dataByte ctx p v
  | picRead p a0 => exact decodeBus_picRead ctx p a0 v
  | elcrWrite p => exact decodeBus_elcrWrite ctx p v
  | elcrRead p => exact decodeBus_elcrRead ctx p v
  | spkrWrite => exact decodeBus_spkrWrite ctx v
  | spkrRead => exact decodeBus_spkrRead ctx v

/-- The fields name what the access is. -/
theorem Access.fieldDecode_eq : fieldDecode ctx write port v = some i := by
  cases h with
  | countWrite c => fin_cases c <;> rfl
  | countRead c => fin_cases c <;> rfl
  | command p => cases p <;> rfl
  | dataByte p => cases p <;> rfl
  | picRead p a0 => cases p <;> cases a0 <;> rfl
  | elcrWrite p => cases p <;> rfl
  | elcrRead p => cases p <;> rfl
  | control | controlRead | spkrWrite | spkrRead => rfl

end

/-- Settles O4: the table selects, and the fields name, what an access to the block's ports is. -/
theorem tableDecodeByField : Obligations.TableDecodeByField := by
  intro ctx w
  by_cases hport : btwPort w ∈ blockPorts
  · obtain ⟨i, h⟩ := exists_access ctx (btwWrite w) hport (btwData w)
    have hdecode := h.decodeBus_eq
    rw [busWord_fields] at hdecode
    rw [hdecode, h.fieldDecode_eq]
  · rw [decodeBus_of_not_mem_blockPorts ctx hport, fieldDecode_of_not_mem_blockPorts ctx _ hport]

/-! ### The encoder's bytes (R83 to R97) -/

theorem controlWord_readbackByte (countN statusN cnt2 cnt1 cnt0 : Bool) :
    controlWord (0b11#2 ++ bit countN ++ bit statusN ++ bit cnt2 ++ bit cnt1 ++ bit cnt0 ++ 0#1) =
      .pitReadback countN statusN cnt2 cnt1 cnt0 := by
  revert countN statusN cnt2 cnt1 cnt0; decide

theorem controlWord_latchByte (c : Chan) : controlWord (chanBits c ++ 0b00#2 ++ 0#4) = .pitLatch c := by
  revert c; decide

theorem controlWord_modeByte (c : Chan) (rw : Rw) (m : BitVec 3) (bcd : Bool) :
    controlWord (chanBits c ++ rwCode rw ++ m ++ bit bcd) = .pitMode c rw m bcd := by
  cases rw <;> revert c m bcd <;> decide

theorem commandByte_icw1Byte (p : PicId) (ltim adi sngl ic4 : Bool) :
    commandByte p (0#3 ++ 1#1 ++ bit ltim ++ bit adi ++ bit sngl ++ bit ic4) = .picIcw1 p ltim adi sngl ic4 := by
  cases p <;> revert ltim adi sngl ic4 <;> decide

theorem commandByte_ocw3Byte (p : PicId) (esmm smm poll rr ris : Bool) :
    commandByte p (0#1 ++ bit esmm ++ bit smm ++ 0b01#2 ++ bit poll ++ bit rr ++ bit ris) =
      .picOcw3 p esmm smm poll rr ris := by
  cases p <;> revert esmm smm poll rr ris <;> decide

theorem dataByte_icw4Byte (p : PicId) (sfnm buf ms aeoi upm : Bool) :
    dataByte p (0#3 ++ bit sfnm ++ bit buf ++ bit ms ++ bit aeoi ++ bit upm) .icw4 =
      .picIcw4 p sfnm buf ms aeoi upm := by
  cases p <;> revert sfnm buf ms aeoi upm <;> decide

/-- A word of a PIC's data port decodes to the operation its sequencer state admits (R256). -/
theorem decodeBus_dataByte_of_init {ctx : DecodeCtx} {p : PicId} {st : InitState} (h : (ctxInit ctx p == st) = true)
    (v : Byte) : decodeBus ctx (busWord true (dataPort p) v) = .ok (dataByte p v st) := by
  rw [decodeBus_dataByte, beq_iff_eq.1 h]

theorem decodeBus_picRead_of_poll {ctx : DecodeCtx} {p : PicId} {poll : Bool} (h : ctxPoll ctx p = poll) (a0 : Bool) :
    decodeBus ctx (busWord false (picPort p a0) 0) = .ok (picRead p a0 poll) := by
  rw [decodeBus_picRead, h]

/-- Settles O1: the encoder writes an access that is the operation. -/
theorem decodeOfEncode : Obligations.DecodeOfEncode := by
  intro ctx i h
  have hcontrol := decodeBus_control ctx
  have hcommand := decodeBus_command ctx
  cases i with
  | pitReadback => exact (hcontrol _).trans (congrArg Except.ok (controlWord_readbackByte ..))
  | pitLatch => exact (hcontrol _).trans (congrArg Except.ok (controlWord_latchByte ..))
  | pitMode => exact (hcontrol _).trans (congrArg Except.ok (controlWord_modeByte ..))
  | pitCtrlRead => exact decodeBus_controlRead ctx 0
  | pitDataWrite c v => exact decodeBus_countWrite ctx c v
  | pitDataRead c => exact decodeBus_countRead ctx c 0
  | picIcw1 => exact (hcommand _ _).trans (congrArg Except.ok (commandByte_icw1Byte ..))
  | picOcw3 => exact (hcommand _ _).trans (congrArg Except.ok (commandByte_ocw3Byte ..))
  | picRotAeoiClr p => exact decodeBus_ocw2Byte ctx p 0 0
  | picNseoi p => exact decodeBus_ocw2Byte ctx p 1 0
  | picNop p => exact decodeBus_ocw2Byte ctx p 2 0
  | picSeoi p l => exact decodeBus_ocw2Byte ctx p 3 l
  | picRotAeoiSet p => exact decodeBus_ocw2Byte ctx p 4 0
  | picRotNseoi p => exact decodeBus_ocw2Byte ctx p 5 0
  | picSetPrio p l => exact decodeBus_ocw2Byte ctx p 6 l
  | picRotSeoi p l => exact decodeBus_ocw2Byte ctx p 7 l
  | picIcw2 p v => exact decodeBus_dataByte_of_init h v
  | picIcw3 p v => exact decodeBus_dataByte_of_init h v
  | picIcw4 => exact (decodeBus_dataByte_of_init h _).trans (congrArg Except.ok (dataByte_icw4Byte ..))
  | picOcw1 p v => exact decodeBus_dataByte_of_init h v
  | picReadPoll p a0 => exact decodeBus_picRead_of_poll h a0
  | picReadCmd p => exact decodeBus_picRead_of_poll (by simpa [ctxAdmits] using h) false
  | picReadData p => exact decodeBus_picRead_of_poll (by simpa [ctxAdmits] using h) true
  | elcrWrite p v => exact decodeBus_elcrWrite ctx p v
  | elcrRead p => exact decodeBus_elcrRead ctx p 0
  | spkrWrite v => exact decodeBus_spkrWrite ctx v
  | spkrRead => exact decodeBus_spkrRead ctx 0
  | reset | advance | raise | lower | inta | isPending | schedule | elapsed | maySleep => rfl

/-! ### The bits the encoder gives back (R81, R102) -/

theorem busWord_and_not_zeroExtend (write : Bool) (port : Port) (data mask : Byte) :
    busWord write port data &&& ~~~(mask.zeroExtend 25) = busWord write port (data &&& ~~~mask) := by
  refine BitVec.eq_of_getLsbD_eq fun i hi => ?_
  rw [BitVec.getLsbD_and, BitVec.getLsbD_not, BitVec.zeroExtend, BitVec.getLsbD_setWidth, getLsbD_busWord,
    getLsbD_busWord]
  by_cases h8 : i < 8
  · simp [h8, hi]
  · simp [h8, hi, BitVec.getLsbD_of_ge mask i (by omega)]

/-- The context admits the operation, and its encoding is the access but for the data bits that no operand holds. -/
def EncodesAccess (ctx : DecodeCtx) (write : Bool) (port : Port) (v : Byte) (i : Instr) : Prop :=
  ctxAdmits ctx i = true ∧ encode i = .bus (busWord write port (v &&& ~~~droppedBits i))

section
variable (ctx : DecodeCtx)

/-- A write whose operands, encoded as `b`, are the byte but for the dropped bits. -/
theorem EncodesAccess.of_write {port : Port} {v b drop : Byte} {i : Instr} (hctx : ctxAdmits ctx i = true)
    (hencode : encode i = outReq port b) (hdrop : droppedBits i = drop) (hb : b = v &&& ~~~drop) :
    EncodesAccess ctx true port v i := by
  rw [EncodesAccess, hencode, hdrop, hb]
  exact ⟨hctx, rfl⟩

/-- An operation that holds the whole byte. -/
theorem EncodesAccess.of_byte {port : Port} {v : Byte} {i : Instr} (hctx : ctxAdmits ctx i = true)
    (hencode : encode i = outReq port v) (hdrop : droppedBits i = 0x00) : EncodesAccess ctx true port v i :=
  .of_write ctx hctx hencode hdrop BitVec.and_allOnes.symm

/-- A read holds no bit of the byte. -/
theorem EncodesAccess.of_read {port : Port} {v : Byte} {i : Instr} (hctx : ctxAdmits ctx i = true)
    (hencode : encode i = inReq port) (hdrop : droppedBits i = 0xFF) : EncodesAccess ctx false port v i := by
  have hzero : v &&& ~~~0xFF = 0 := BitVec.and_zero
  rw [EncodesAccess, hencode, hdrop, hzero]
  exact ⟨hctx, rfl⟩

theorem encodesAccess_controlWord (v : Byte) : EncodesAccess ctx true 0x43 v (controlWord v) := by
  by_cases hch : v &&& 0xC0 = 0xC0
  · rw [controlWord_of_readback hch]
    exact .of_write ctx rfl rfl rfl (by revert v; decide)
  · by_cases hrw : v &&& 0x30 = 0
    · rw [controlWord_of_latch hch hrw]
      exact .of_write ctx rfl rfl rfl (by revert v; decide)
    · rw [controlWord_of_mode hch hrw]
      exact .of_write ctx rfl rfl rfl (by revert v; decide)

theorem encodesAccess_ocw2Byte (p : PicId) (cmd : BitVec 3) (l : Input) :
    EncodesAccess ctx true (cmdPort p) (ocw2Byte cmd l) (ocw2Instr p l cmd) := by
  have hlevel : ∀ (cmd : BitVec 3) (l : Input), ocw2Byte cmd 0 = ocw2Byte cmd l &&& ~~~0x07 := by decide
  obtain rfl | rfl | rfl | rfl | rfl | rfl | rfl | rfl := ocw2Command_cases cmd
  · exact .of_write ctx rfl rfl rfl (hlevel 0 l)
  · exact .of_write ctx rfl rfl rfl (hlevel 1 l)
  · exact .of_write ctx rfl rfl rfl (hlevel 2 l)
  · exact .of_byte ctx rfl rfl rfl
  · exact .of_write ctx rfl rfl rfl (hlevel 4 l)
  · exact .of_write ctx rfl rfl rfl (hlevel 5 l)
  · exact .of_byte ctx rfl rfl rfl
  · exact .of_byte ctx rfl rfl rfl

theorem encodesAccess_commandByte (p : PicId) (v : Byte) : EncodesAccess ctx true (cmdPort p) v (commandByte p v) := by
  cases h4 : v.getLsbD 4 with
  | true =>
    rw [commandByte, if_pos h4]
    exact .of_write (drop := 0xE0) ctx rfl rfl rfl (by revert v; decide)
  | false =>
    cases h3 : v.getLsbD 3 with
    | true =>
      rw [commandByte, if_neg (ne_true_of_eq_false h4), if_pos h3]
      exact .of_write (drop := 0x80) ctx rfl rfl rfl (by revert v; decide)
    | false =>
      rw [ocw2Byte_fields h4 h3, commandByte_ocw2Byte]
      exact encodesAccess_ocw2Byte ctx p _ _

theorem encodesAccess_dataByte (p : PicId) (v : Byte) :
    EncodesAccess ctx true (dataPort p) v (dataByte p v (ctxInit ctx p)) := by
  cases hst : ctxInit ctx p with
  | icw4 => exact .of_write (drop := 0xE0) ctx (beq_iff_eq.2 hst) rfl rfl (by revert v; decide)
  | ready | icw2 | icw3 => exact .of_byte ctx (beq_iff_eq.2 hst) rfl rfl

theorem encodesAccess_picRead (p : PicId) (a0 : Bool) (v : Byte) :
    EncodesAccess ctx false (picPort p a0) v (picRead p a0 (ctxPoll ctx p)) := by
  cases hpoll : ctxPoll ctx p with
  | true => exact .of_read ctx hpoll rfl rfl
  | false =>
    have hctx : (!ctxPoll ctx p) = true := by rw [hpoll]; rfl
    cases a0 with
    | true => exact .of_read ctx hctx rfl rfl
    | false => exact .of_read ctx hctx rfl rfl

end

theorem Access.encodes {ctx : DecodeCtx} {write : Bool} {port : Port} {v : Byte} {i : Instr}
    (h : Access ctx write port v i) : EncodesAccess ctx write port v i := by
  cases h with
  | control => exact encodesAccess_controlWord ctx v
  | command p => exact encodesAccess_commandByte ctx p v
  | dataByte p => exact encodesAccess_dataByte ctx p v
  | picRead p a0 => exact encodesAccess_picRead ctx p a0 v
  | countWrite | elcrWrite | spkrWrite => exact .of_byte ctx rfl rfl rfl
  | countRead | controlRead | elcrRead | spkrRead => exact .of_read ctx rfl rfl rfl

/-- Settles O2: a word that decodes is an access to one of the block's ports, and each kind of access encodes back. -/
theorem encodeOfDecode : Obligations.EncodeOfDecode := by
  intro ctx w i hdecode
  obtain ⟨j, h⟩ := exists_access ctx (btwWrite w) ((blockPortsDecode ctx w).1 ⟨i, hdecode⟩) (btwData w)
  have hj := h.decodeBus_eq
  rw [busWord_fields, hdecode] at hj
  obtain rfl := Except.ok.inj hj
  obtain ⟨hctx, hencode⟩ := h.encodes
  exact ⟨hctx, by rw [hencode, ← busWord_and_not_zeroExtend, busWord_fields]⟩

end Sys2Proof

namespace Sys2Proof.Machine

open Sys2Proof.Claims (controlWord Eligible)

/-! ### A count written and read back (R87, R150, R155, R156) -/

theorem joinBytes_bytes (v : Word16) : joinBytes (v.extractLsb' 8 8) (v.extractLsb' 0 8) = v := by
  refine BitVec.eq_of_getLsbD_eq fun i hi => ?_
  rw [joinBytes, BitVec.getLsbD_append]
  by_cases h8 : i < 8
  · simp [h8]
  · have hlt : i - 8 < 8 := by omega
    have hsum : 8 + (i - 8) = i := by omega
    simp [h8, hlt, hsum]

theorem ofNat_reloadOf (v : Word16) : BitVec.ofNat 16 (reloadOf v) = v := by
  by_cases h : v = 0
  · rw [reloadOf, if_pos h, h]
    rfl
  · rw [reloadOf, if_neg h, BitVec.ofNat_toNat, BitVec.setWidth_eq]

section
variable {s : State} {c : Chan}

@[simp] theorem State.load_vclock (s : State) (c : Chan) (v : Word16) : (s.load c v).vclock = s.vclock := rfl

@[simp] theorem State.load_chan_self (s : State) (c : Chan) (v : Word16) : (s.load c v).chan c =
    { s.chan c with counter := .count (reloadOf v), baseTime := s.vclock } :=
  s.setChan_chan_self c _

theorem State.writeCount_word_lo (hrw : (s.chan c).rw = .word) (hphase : (s.chan c).wphase = .lo) (v : Byte) :
    s.writeCount c v = s.setChan c { s.chan c with wlatch := v, wphase := .hi } := by
  simp only [State.writeCount, hrw, hphase]

theorem State.writeCount_word_hi (hrw : (s.chan c).rw = .word) (hphase : (s.chan c).wphase = .hi) (v : Byte) :
    s.writeCount c v = (s.setChan c { s.chan c with wphase := .lo }).load c (joinBytes v (s.chan c).wlatch) := by
  simp only [State.writeCount, hrw, hphase]

/-- With no status pending a read returns the byte of the count latch, which it takes if none is pending. -/
theorem State.readCount_latched {v : Word16} (hstatus : (s.chan c).slatch = none)
    (hlatch : ((s.latchCount c).chan c).rlatch = some v) : s.readCount c =
      ((s.latchCount c).setChan c ((s.latchCount c).chan c).afterCountRead).answer
        (.byte (((s.latchCount c).chan c).latchByte v)) := by
  simp only [State.readCount, hstatus, hlatch]

/-- A channel in mode 0 just loaded latches what was loaded (R144, R148). -/
theorem latchCount_of_load {v : Word16} (hmode : (s.chan c).mode = 0) (hlatch : (s.chan c).rlatch = none)
    (hcounter : (s.chan c).counter = .count (reloadOf v)) (hbase : (s.chan c).baseTime = s.vclock) :
    (s.latchCount c).chan c = (s.chan c).latched (s.eval c) v := by
  have helapsed : s.elapsed c = 0 := by rw [State.elapsed, hbase, Nat.sub_self]
  obtain ⟨hpos, -⟩ := reloadOf_range v
  have heval : (s.eval c).cnt = some (reloadOf v) := by
    rw [eval_oneShot hcounter (.inl hmode), helapsed, eval01, if_pos (by omega), Nat.sub_zero]
  rw [latchCount_known hlatch heval, ofNat_reloadOf, State.setChan_chan_self]

end

/-! The accesses of the round trip, one after another: what each leaves in the channel. -/

theorem issueSeq_control {c : Chan} {rw : Rw} {m : BitVec 3} {bcd : Bool} {b : Byte}
    (h : controlWord b = .pitMode c rw m bcd) (s : State) : ∃ t,
    (∀ rs, issueSeq (outReq 0x43 b :: rs) s = issueSeq rs t) ∧ t.chan c = (s.chan c).programmed rw m bcd := by
  refine ⟨_, fun rs => issueSeq_cons rs ?_ (i := .pitMode c rw m bcd) rfl, State.setChan_chan_self _ _ _⟩
  rw [decode_outReq, decodeBus_control, h]

theorem issueSeq_countWrite (c : Chan) (v : Byte) (s : State) (rs : List Request) :
    issueSeq (outReq (chanPort c) v :: rs) s = issueSeq rs (s.startOp.writeCount c v) :=
  issueSeq_cons rs ((decode_outReq ..).trans (decodeBus_countWrite _ c v)) rfl

theorem issueSeq_countRead (c : Chan) (s : State) (rs : List Request) :
    issueSeq (inReq (chanPort c) :: rs) s = issueSeq rs (s.startOp.readCount c) :=
  issueSeq_cons rs ((decode_inReq ..).trans (decodeBus_countRead _ c 0)) rfl

section
variable {s : State} {c : Chan} {v : Word16}

/-- Both bytes of a WORD count, low byte first, load it (R155). -/
theorem writeCount_bytes (hrw : (s.chan c).rw = .word) (hphase : (s.chan c).wphase = .lo) (v : Word16) : ∃ t,
    (s.startOp.writeCount c (v.extractLsb' 0 8)).startOp.writeCount c (v.extractLsb' 8 8) = t ∧
    t.chan c = { s.chan c with
      wlatch := v.extractLsb' 0 8
      wphase := .lo
      counter := .count (reloadOf v)
      baseTime := t.vclock } := by
  refine ⟨_, rfl, ?_⟩
  rw [State.writeCount_word_lo (s := s.startOp) hrw hphase, State.writeCount_word_hi (by simp [hrw]) (by simp)]
  simp [joinBytes_bytes]

/-- The low byte of a WORD latch is read first, and the latch stays (R156). -/
theorem readCount_lowByte (hstatus : (s.chan c).slatch = none) (hlatch : ((s.latchCount c).chan c).rlatch = some v)
    (hrw : ((s.latchCount c).chan c).rw = .word) (hphase : ((s.latchCount c).chan c).rphase = .lo) :
    (s.readCount c).result = .byte (v.extractLsb' 0 8) ∧
      (s.readCount c).chan c = { (s.latchCount c).chan c with rphase := .hi } := by
  rw [State.readCount_latched hstatus hlatch]
  simp [Channel.latchByte, Channel.afterCountRead, hrw, hphase, lowByte]

/-- The high byte of a WORD latch is read second and releases it (R156). -/
theorem readCount_highByte (hstatus : (s.chan c).slatch = none) (hlatch : (s.chan c).rlatch = some v)
    (hrw : (s.chan c).rw = .word) (hphase : (s.chan c).rphase = .hi) :
    (s.readCount c).result = .byte (v.extractLsb' 8 8) ∧
      (s.readCount c).chan c = { s.chan c with rphase := .lo, rlatch := none } := by
  have hkept : s.latchCount c = s := latchCount_pending hlatch
  rw [State.readCount_latched hstatus (by rw [hkept, hlatch]), hkept]
  simp [Channel.latchByte, Channel.afterCountRead, hrw, hphase, highByte]

end

/-- Settles O32: the mode word clears the channel's latches and toggles, the two bytes load the value, and before any
tick the count that the first read latches is what was loaded. -/
theorem countRoundTrip : Obligations.CountRoundTrip := by
  intro c v s
  have hword : ∀ c : Chan, controlWord (BitVec.ofNat 8 (64 * c.val + 0x30)) = .pitMode c .word 0 false := by decide
  obtain ⟨t1, h1, e1⟩ := issueSeq_control (hword c) s
  obtain ⟨t3, h3, e3⟩ := writeCount_bytes (s := t1) (c := c) (by rw [e1]; rfl) (by rw [e1]; rfl) v
  rw [e1] at e3
  rw [← State.startOp_chan] at e3
  have hlatched : (t3.startOp.latchCount c).chan c = (t3.startOp.chan c).latched (t3.startOp.eval c) v :=
    latchCount_of_load (by rw [e3]; rfl) (by rw [e3]; rfl) (by rw [e3]) (by rw [e3]; rfl)
  rw [e3] at hlatched
  obtain ⟨r4, e4⟩ := readCount_lowByte (s := t3.startOp) (c := c) (v := v) (by rw [e3]; rfl) (by rw [hlatched]; rfl)
    (by rw [hlatched]; rfl) (by rw [hlatched]; rfl)
  rw [hlatched] at e4
  obtain ⟨r5, e5⟩ := readCount_highByte (s := (t3.startOp.readCount c).startOp) (c := c) (v := v)
    (by rw [State.startOp_chan, e4]; rfl) (by rw [State.startOp_chan, e4]; rfl) (by rw [State.startOp_chan, e4]; rfl)
    (by rw [State.startOp_chan, e4])
  refine ⟨t3.startOp.readCount c, (t3.startOp.readCount c).startOp.readCount c, ?_, r4, ?_, r5, ?_, ?_⟩
  · rw [h1, issueSeq_countWrite, issueSeq_countWrite, h3, issueSeq_countRead]
    rfl
  · rw [issueSeq_countRead]
    rfl
  · rw [e5]
  · rw [e5]

/-! ### A poll read with nothing to acknowledge (R96, R272) -/

theorem resolve_eq_none_of_not_eligible {s : State} {p : PicId} (h : ∀ i, ¬Eligible s p i) : s.resolve p = none :=
  Option.eq_none_iff_forall_ne_some.2 fun i hi => h i ((resolve_eq_some (s.pic p) p i).1 hi)

theorem emptyPollWord_high (v : BitVec 3) : (emptyPollWord v).extractLsb' 3 5 = 0 := by
  revert v; decide

/-- Settles O53: with nothing eligible the resolver answers none, and a poll read then clears the flag and draws. -/
theorem pollNothing : Obligations.PollNothing := by
  intro s p a0 hnone
  refine ⟨emptyPollWord (Config.draw3 s.draws), emptyPollWord_high _, ?_⟩
  have hresolve : s.startOp.resolve p = none := by
    rw [State.resolve, State.startOp_pic]
    exact resolve_eq_none_of_not_eligible hnone
  obtain ⟨-, hpoll⟩ | ⟨i, hi, -⟩ := pollRead_cases s.startOp p
  · have hexec : exec (.picReadPoll p a0) s = .next (s.startOp.pollRead p) := rfl
    rw [hexec, hpoll, State.startOp_pic]
    rfl
  · rw [hresolve] at hi
    exact nomatch hi

end Sys2Proof.Machine
end

section
/-! PROOFS of the statements of 40_tick_driver.md: an ADVANCE is the time update, the livelock check and one pass (R120,
R125), and FORCE_IF comes once the limit of calls with the guest's flag clear is behind (R126). -/

namespace Sys2Proof.Machine

open Sys2Proof.Claims (sampleDelta)

/-! ### The time update and the livelock check (R120, R125) -/

theorem tickDelta_eq_sampleDelta (prev : Option HostTick) (x : HostTick) : tickDelta prev x = sampleDelta prev x := by
  cases prev with
  | none => rfl
  | some y => simp only [tickDelta, sampleDelta, BitVec.lt_def]

/-- The spec lemma of the livelock check: it writes the count and adds events, and nothing else. -/
theorem State.livelockCheck_eq (limit : Nat) (guestIf : Bool) (s : State) :
    s.livelockCheck limit guestIf = { s with
      ifOffCount := if guestIf = true ∨ limit < s.ifOffCount + 1 then 0 else s.ifOffCount + 1
      events := s.events ++
        if guestIf = false ∧ limit < s.ifOffCount + 1 then [.forceIf, .diag .livelockBroken] else [] } := by
  cases guestIf with
  | true => simp [State.livelockCheck]
  | false =>
    by_cases hstuck : limit < s.ifOffCount + 1
    · simp [State.livelockCheck, State.emit, hstuck]
    · simp [State.livelockCheck, hstuck]

/-- Settles O55: the state the pass starts from is the stated one, and `activate()` is the pass. -/
theorem advanceDrives : Obligations.AdvanceDrives := by
  intro x guestIf s
  refine ⟨((s.startOp.timeUpdate x).livelockCheck Config.ifStuckLimit guestIf).activate, rfl, ?_⟩
  have hpass := activate_activated ((s.startOp.timeUpdate x).livelockCheck Config.ifStuckLimit guestIf)
  rw [State.livelockCheck_eq, State.timeUpdate, tickDelta_eq_sampleDelta] at hpass ⊢
  exact hpass

/-! ### ADVANCE with the guest's flag clear (R125, R126) -/

/-- A pass emits VIRQ and DIAG events only (R208, R211). -/
theorem State.passEvent_ne_forceIf (s : State) (l : Line) : s.passEvent l ≠ some .forceIf := by
  unfold State.passEvent
  split
  · exact nofun
  · split <;> exact nofun

theorem Activated.forceIf_mem {s t : State} (h : Activated s t) : Event.forceIf ∈ t.events ↔ .forceIf ∈ s.events := by
  simp [h.events, State.passEvent_ne_forceIf]

theorem Activated.ifOffCount_eq {s t : State} (h : Activated s t) : t.ifOffCount = s.ifOffCount := by
  rw [h.frame]

/-- One call with the flag clear: FORCE_IF exactly with the limit reached, and the count moves on below it. -/
theorem exec_advance_flagClear (x : HostTick) (s : State) : ∃ t, exec (.advance x false) s = .next t ∧
    (Event.forceIf ∈ t.events ↔ Config.ifStuckLimit ≤ s.ifOffCount) ∧
    (s.ifOffCount < Config.ifStuckLimit → t.ifOffCount = s.ifOffCount + 1) := by
  obtain ⟨t, hexec, hpass⟩ := advanceDrives x false s
  refine ⟨t, hexec, ?_, fun hbelow => ?_⟩
  · rw [hpass.forceIf_mem]
    by_cases hstuck : Config.ifStuckLimit ≤ s.ifOffCount <;> simp [hstuck]
  · rw [hpass.ifOffCount_eq]
    simp [Nat.not_le.2 hbelow]

theorem execSeq_cons {i : Instr} {s t : State} (is : List Instr) (h : exec i s = .next t) :
    execSeq (i :: is) s = execSeq is t := by
  simp only [execSeq, h]

/-- Calls with the flag clear are counted one by one for as long as they stay within the limit. -/
theorem execSeq_advance_flagClear (samples : List HostTick) (s : State)
    (h : s.ifOffCount + samples.length ≤ Config.ifStuckLimit) :
    ∃ u, execSeq (samples.map fun y => .advance y false) s = some u ∧ u.ifOffCount = s.ifOffCount + samples.length := by
  induction samples generalizing s with
  | nil => exact ⟨s, rfl, rfl⟩
  | cons y ys ih =>
    rw [List.length_cons] at h ⊢
    obtain ⟨t, hexec, -, hcount⟩ := exec_advance_flagClear y s
    have ht : t.ifOffCount = s.ifOffCount + 1 := hcount (by omega)
    obtain ⟨u, hrun, hu⟩ := ih t (by omega)
    exact ⟨u, (execSeq_cons _ hexec).trans hrun, by omega⟩

/-- Settles O56: the calls before bring the count to their number, and the next one compares it with the limit. -/
theorem livelockBreakerPeriod : Obligations.LivelockBreakerPeriod := by
  intro s samples x hzero hlen
  obtain ⟨u, hrun, hcount⟩ := execSeq_advance_flagClear samples s (by omega)
  obtain ⟨v, hexec, hforce, -⟩ := exec_advance_flagClear x u
  refine ⟨u, v, hrun, hexec, hforce.trans ?_⟩
  omega

end Sys2Proof.Machine
end

section
/-! PROOFS of the statements of 41_pit.md, and of ELAPSED (44_speaker_port.md R302): what a latch takes in each mode
(R142 to R149, R152), the read-back (R154), the mode control word (R153), and the reads and writes of a count (R150, R155
to R157). -/

namespace Sys2Proof.Machine

open Sys2Proof.Claims (anchor IsPhase outNow nullNow loadedState readbackOps)

/-! ### One reading per case of R144, R145 and R147 -/

section
variable {n e : Nat}

theorem eval01_before (h : e < n) : eval01 n e = ⟨some (n - e), false, false⟩ := if_pos h

theorem eval01_at (n : Nat) : eval01 n n = ⟨some 0, true, true⟩ := by
  simp [eval01]

theorem eval01_past (h : n < e) : eval01 n e = ⟨none, true, true⟩ := by
  rw [eval01, if_neg h.le.not_gt, if_neg h.ne']

theorem eval45_before (h : e < n) : eval45 n e = ⟨some (n - e), true, false⟩ := if_pos h

theorem eval45_at (n : Nat) : eval45 n n = ⟨some 0, false, false⟩ := by
  simp [eval45]

theorem eval45_past (h : n < e) : eval45 n e = ⟨none, true, true⟩ := by
  rw [eval45, if_neg h.le.not_gt, if_neg h.ne']

theorem eval45_until (h : e ≤ n) : eval45 n e = ⟨some (n - e), decide (e < n), false⟩ := by
  obtain hlt | rfl := h.lt_or_eq
  · simp [eval45_before hlt, hlt]
  · simp [eval45_at]

/-- In modes 0 and 1 OUT rises when the countdown expires, and stays. -/
theorem eval01_out_exp (n e : Nat) : (eval01 n e).out = decide (n ≤ e) ∧ (eval01 n e).exp = decide (n ≤ e) := by
  obtain h | rfl | h := Nat.lt_trichotomy e n
  · simp [eval01_before h, h]
  · simp [eval01_at]
  · simp [eval01_past h, h.le]

/-- In modes 4 and 5 the strobe is the one tick before the countdown has expired. -/
theorem eval45_out_exp (n e : Nat) : (eval45 n e).out = decide (e ≠ n) ∧ (eval45 n e).exp = decide (n < e) := by
  obtain h | rfl | h := Nat.lt_trichotomy e n
  · simp [eval45_before h, h.le, h.ne]
  · simp [eval45_at]
  · simp [eval45_past h, h, h.ne']

theorem eval3_eq (n p : Nat) :
    eval3 n p = ⟨some (if 2 * p < n then n - 2 * p else 2 * n - 2 * p), decide (2 * p < n), false⟩ := by
  by_cases h : 2 * p < n <;> simp [eval3, h]

end

section
variable {s : State} {c : Chan}

/-! ### Elapsed ticks and the phase (R142) -/

theorem elapsed_of_add {e : Nat} (h : s.vclock = (s.chan c).baseTime + e) : s.elapsed c = e := by
  rw [State.elapsed, h, Nat.add_sub_cancel_left]

theorem le_elapsed_iff (hbase : (s.chan c).baseTime ≤ s.vclock) {n : Nat} :
    n ≤ s.elapsed c ↔ (s.chan c).baseTime + n ≤ s.vclock := Nat.le_sub_iff_add_le' hbase

theorem lt_elapsed_iff {n : Nat} : n < s.elapsed c ↔ (s.chan c).baseTime + n < s.vclock := Nat.lt_sub_iff_add_lt'

theorem elapsed_eq_iff (hbase : (s.chan c).baseTime ≤ s.vclock) {n : Nat} :
    s.elapsed c = n ↔ s.vclock = (s.chan c).baseTime + n := Nat.sub_eq_iff_eq_add' hbase

theorem anchor_zero {d : Tick} (h : (s.line 0).nextDue = some d) : anchor s 0 = d := by
  simp [anchor, h]

theorem anchor_unanchored (h : c ≠ 0 ∨ (s.line 0).nextDue = none) : anchor s c = (s.chan c).baseTime := by
  obtain hc | hline := h
  · exact if_neg hc
  · simp [anchor, hline]

/-- Anchored or not, the phase is the floored remainder of the distance from the anchor. -/
theorem phase_eq_emod_anchor (hbase : (s.chan c).baseTime ≤ s.vclock) (n : Nat) :
    s.phase c n = (((s.vclock : Int) - (anchor s c : Int)) % (n : Int)).toNat := by
  by_cases hanchored : c = 0 ∧ ∃ d, (s.line 0).nextDue = some d
  · obtain ⟨rfl, d, hd⟩ := hanchored
    rw [phase_anchored hd, anchor_zero hd]
  · have hfree : c ≠ 0 ∨ (s.line 0).nextDue = none := by
      rw [Option.eq_none_iff_forall_ne_some, ← not_exists]
      exact not_and_or.1 hanchored
    rw [phase_unanchored hfree, anchor_unanchored hfree, State.elapsed, ← Nat.cast_sub hbase, ← Int.natCast_emod,
      Int.toNat_natCast]

theorem phase_eq_of_isPhase {n p : Nat} (hbase : (s.chan c).baseTime ≤ s.vclock) (h : IsPhase s c n p) :
    s.phase c n = p := by
  obtain ⟨hlt, hdvd⟩ := h
  have hmod : ((s.vclock : Int) - (anchor s c : Int)) % (n : Int) = (p : Int) % (n : Int) :=
    (Int.modEq_iff_dvd.2 hdvd).symm
  rw [phase_eq_emod_anchor hbase, hmod, ← Int.natCast_emod, Nat.mod_eq_of_lt hlt, Int.toNat_natCast]

/-- The floored remainder of a time that lies at most n before d. -/
theorem emod_before {v d n : Nat} (hbefore : v < d) (hperiod : d ≤ v + n) :
    (((v : Int) - (d : Int)) % (n : Int)).toNat = n - (d - v) := by
  rw [← Int.add_emod_right, Int.emod_eq_of_lt (by omega) (by omega)]
  omega

/-- Within one period before IRQ0's due time, the rest of the period ends at the due time. -/
theorem phase_before_due {n : Nat} {d : Tick} (hdue : (s.line 0).nextDue = some d) (hbefore : s.vclock < d)
    (hperiod : d ≤ s.vclock + n) : s.phase 0 n = n - (d - s.vclock) := by
  rw [phase_anchored hdue, emod_before hbefore hperiod]

/-! ### The counter latch command, by the reading it latches (R148, R152) -/

@[simp] theorem State.startOp_eval (s : State) (c : Chan) : s.startOp.eval c = s.eval c := rfl

theorem exec_pitLatch (c : Chan) (s : State) : exec (.pitLatch c) s = .next (s.startOp.latchCount c) := rfl

theorem exec_pitLatch_pending {v : Word16} (h : (s.chan c).rlatch = some v) :
    exec (.pitLatch c) s = .next s.startOp := by
  rw [exec_pitLatch, latchCount_pending (s := s.startOp) h]

theorem exec_pitLatch_known {k : Nat} (h : (s.chan c).rlatch = none) (hk : (s.eval c).cnt = some k) :
    exec (.pitLatch c) s = .next (s.startOp.setChan c ((s.chan c).latched (s.eval c) (BitVec.ofNat 16 k))) := by
  rw [exec_pitLatch, latchCount_known (s := s.startOp) h hk]
  rfl

/-- A countdown that has not expired keeps its counter. -/
theorem exec_pitLatch_running {k : Nat} {out : Bool} (h : (s.chan c).rlatch = none)
    (heval : s.eval c = ⟨some k, out, false⟩) : exec (.pitLatch c) s =
      .next (s.startOp.setChan c { s.chan c with rlatch := some (BitVec.ofNat 16 k), outputPin := out }) := by
  rw [exec_pitLatch_known h (by rw [heval]), heval]
  rfl

/-- A countdown that has just expired is marked so in modes 0 and 4. -/
theorem exec_pitLatch_ended {k : Nat} {out : Bool} (h : (s.chan c).rlatch = none)
    (heval : s.eval c = ⟨some k, out, true⟩) : exec (.pitLatch c) s =
      .next (s.startOp.setChan c { s.chan c with
        rlatch := some (BitVec.ofNat 16 k)
        outputPin := out
        counter := if marksExpiry (s.chan c).mode then .expired else (s.chan c).counter }) := by
  rw [exec_pitLatch_known h (by rw [heval]), heval]
  rfl

/-- Past its end a countdown latches a free value. -/
theorem exec_pitLatch_past {out : Bool} (h : (s.chan c).rlatch = none) (heval : s.eval c = ⟨none, out, true⟩) :
    ∃ v, exec (.pitLatch c) s =
      .next (s.startOp.setChan c { s.chan c with
        rlatch := some v
        outputPin := out
        counter := if marksExpiry (s.chan c).mode then .expired else (s.chan c).counter }).drawn := by
  refine ⟨Config.draw16 s.draws, ?_⟩
  have hopen : (s.startOp.eval c).cnt = none := by rw [State.startOp_eval, heval]
  rw [exec_pitLatch, latchCount_unknown (s := s.startOp) h hopen, State.startOp_eval, heval]
  rfl

end

/-- Settles O20: an expired channel reads its stored OUT, and marking it expired again changes nothing. -/
theorem countLatchPendingOrExpired : Obligations.CountLatchPendingOrExpired := by
  refine fun c s => ⟨fun hpending => ?_, fun hfree hexpired => ?_⟩
  · obtain ⟨v, hv⟩ := Option.ne_none_iff_exists'.1 hpending
    exact exec_pitLatch_pending hv
  · obtain ⟨v, hv⟩ := exec_pitLatch_past hfree (eval_expired hexpired)
    have hkept : (if marksExpiry (s.chan c).mode then Counter.expired else (s.chan c).counter) =
        (s.chan c).counter := by
      rw [hexpired, ite_self]
    rw [hkept] at hv
    exact ⟨v, hv⟩

/-- Settles O21, by the three cases of R144. -/
theorem countLatchOneShot : Obligations.CountLatchOneShot := by
  intro c s n e hfree hcounter hmode hclock done
  have heval : s.eval c = eval01 n e := by rw [eval_oneShot hcounter hmode, elapsed_of_add hclock]
  have hdone : (if marksExpiry (s.chan c).mode then Counter.expired else (s.chan c).counter) = done := by
    obtain hm | hm := hmode <;> simp [done, hm, hcounter, marksExpiry]
  refine ⟨fun h => ?_, fun h => ?_, fun h => ?_⟩
  · exact exec_pitLatch_running hfree (heval.trans (eval01_before h))
  · rw [← hdone]
    exact exec_pitLatch_ended hfree (heval.trans (h ▸ eval01_at n))
  · rw [← hdone]
    exact exec_pitLatch_past hfree (heval.trans (eval01_past h))

/-- Settles O22, by the cases of R145. -/
theorem countLatchStrobe : Obligations.CountLatchStrobe := by
  intro c s n e hfree hcounter hmode hclock
  have heval : s.eval c = eval45 n e := by rw [eval_strobe hcounter hmode, elapsed_of_add hclock]
  have hdone : (if marksExpiry (s.chan c).mode then Counter.expired else (s.chan c).counter) =
      if (s.chan c).mode = 4 then .expired else .count n := by
    obtain hm | hm := hmode <;> simp [hm, hcounter, marksExpiry]
  refine ⟨fun h => ?_, fun h => ?_⟩
  · exact exec_pitLatch_running hfree (heval.trans (eval45_until h))
  · rw [← hdone]
    exact exec_pitLatch_past hfree (heval.trans (eval45_past h))

/-- Settles O23: R146 at the phase that the congruence of R142 fixes. -/
theorem countLatchRateGenerator : Obligations.CountLatchRateGenerator := by
  intro c s n p hfree hcounter hmode hbase hphase
  have heval : s.eval c = eval2 n p := by rw [eval_rate hcounter hmode, phase_eq_of_isPhase hbase hphase]
  exact exec_pitLatch_running hfree heval

/-- Settles O24: R147 at the phase that the congruence of R142 fixes. -/
theorem countLatchSquareWave : Obligations.CountLatchSquareWave := by
  intro c s n p hfree hcounter hmode hbase hphase
  have heval : s.eval c = eval3 n p := by rw [eval_square hcounter hmode, phase_eq_of_isPhase hbase hphase]
  exact exec_pitLatch_running hfree (heval.trans (eval3_eq n p))

/-- Settles O25: the phase is n less the ticks left, so n less the phase is the ticks left. -/
theorem channelZeroCountsToIrq0 : Obligations.ChannelZeroCountsToIrq0 := by
  intro s n d hfree hcounter hmode hdue hbefore hperiod
  have heval : s.eval 0 = eval2 n (n - (d - s.vclock)) := by
    rw [eval_rate hcounter (.inl hmode), phase_before_due hdue hbefore hperiod]
  refine ⟨_, exec_pitLatch_running hfree heval, ?_⟩
  have hcount : n - (n - (d - s.vclock)) = d - s.vclock := Nat.sub_sub_self (by omega)
  rw [State.setChan_chan_self, hcount]

/-! ### The status latch (R149) -/

theorem exec_readback_status (c : Chan) (s : State) :
    exec (.pitReadback true false (c == 2) (c == 1) (c == 0)) s = .next (s.startOp.latchStatus c) := by
  match c with
  | 0 => rfl
  | 1 => rfl
  | 2 => rfl

theorem marksExpiry_eq : ∀ m : BitVec 3, marksExpiry m = decide (m = 0 ∨ m = 4) := by
  decide

theorem mode_cases : ∀ m : BitVec 3, (m = 0 ∨ m = 1) ∨ (m = 4 ∨ m = 5) ∨ (m = 2 ∨ m = 6) ∨ (m = 3 ∨ m = 7) := by
  decide

section
variable {s : State} {c : Chan}

theorem eval_out_eq_outNow {p : Nat} (hbase : (s.chan c).baseTime ≤ s.vclock)
    (hphase : ∀ n, (s.chan c).counter = .count n → IsPhase s c n p) : (s.eval c).out = outNow s c p := by
  cases hcounter : (s.chan c).counter with
  | expired => simp [eval_expired hcounter, outNow, hcounter]
  | count n =>
    have hp := hphase n hcounter
    have hlt : p < n := hp.1
    obtain hmode | hmode | hmode | hmode := mode_cases (s.chan c).mode
    · rw [eval_oneShot hcounter hmode, (eval01_out_exp n _).1]
      obtain hm | hm := hmode <;> simp [outNow, hcounter, hm, le_elapsed_iff hbase]
    · rw [eval_strobe hcounter hmode, (eval45_out_exp n _).1]
      obtain hm | hm := hmode <;> simp [outNow, hcounter, hm, elapsed_eq_iff hbase]
    · have hiff : n - p = 1 ↔ p + 1 = n := by omega
      rw [eval_rate hcounter hmode, phase_eq_of_isPhase hbase hp, eval2]
      obtain hm | hm := hmode <;> simp [outNow, hcounter, hm, hiff]
    · rw [eval_square hcounter hmode, phase_eq_of_isPhase hbase hp, eval3_eq]
      obtain hm | hm := hmode <;> simp [outNow, hcounter, hm]

/-- Only modes 0 and 4 show an expired countdown as NULL COUNT, the one at its end and the other a tick later. -/
theorem nullCount_eq_nullNow (hbase : (s.chan c).baseTime ≤ s.vclock) : s.nullCount c = nullNow s c := by
  cases hcounter : (s.chan c).counter with
  | expired => simp [State.nullCount, nullNow, hcounter]
  | count n =>
    by_cases h0 : (s.chan c).mode = 0
    · simp [State.nullCount, nullNow, hcounter, eval_oneShot hcounter (.inl h0), eval01_out_exp, marksExpiry_eq, h0,
        le_elapsed_iff hbase]
    · by_cases h4 : (s.chan c).mode = 4
      · simp [State.nullCount, nullNow, hcounter, eval_strobe hcounter (.inl h4), eval45_out_exp, marksExpiry_eq, h4,
          lt_elapsed_iff]
      · simp only [State.nullCount, nullNow, hcounter, marksExpiry_eq, h0, h4, false_and, or_self, decide_false,
          Bool.and_false, Bool.or_false]
        rfl

end

/-- The fields of a status byte built from its parts (R86). -/
theorem statusByte_fields (out null bcd : Bool) (rw : BitVec 2) (m : BitVec 3) (b : Byte)
    (h : b = BitVec.ofBool out ++ BitVec.ofBool null ++ rw ++ m ++ BitVec.ofBool bcd) :
    b.getLsbD 7 = out ∧ b.getLsbD 6 = null ∧ b.extractLsb' 4 2 = rw ∧ b.extractLsb' 1 3 = m ∧ b.getLsbD 0 = bcd := by
  subst h
  revert out null bcd rw m
  decide

/-- Settles O26: the byte latched is the status byte of now, and its fields are those of R86. -/
theorem statusLatch : Obligations.StatusLatch := by
  intro c s p hbase hphase
  rw [exec_readback_status]
  refine ⟨fun hpending => ?_, fun hfree => ?_⟩
  · obtain ⟨b, hb⟩ := Option.ne_none_iff_exists'.1 hpending
    rw [latchStatus_pending (s := s.startOp) hb]
  · obtain ⟨hout, hnull, hrw, hmode, hbcd⟩ := statusByte_fields _ _ _ _ _ (s.statusByte c) rfl
    refine ⟨s.statusByte c, ?_, ?_, ?_, ?_, hmode, hbcd⟩
    · rw [latchStatus_free (s := s.startOp) hfree]
      rfl
    · rw [hout, eval_out_eq_outNow hbase hphase]
    · rw [hnull, nullCount_eq_nullNow hbase]
    · rw [hrw]
      cases (s.chan c).rw <;> rfl

/-! ### The read-back (R154) -/

theorem State.startOp_startOp (s : State) : s.startOp.startOp = s.startOp := rfl

/-- A latch neither reads nor writes what `startOp` clears. -/
theorem State.latchCount_startOp (s : State) (c : Chan) : (s.startOp.latchCount c).startOp = s.startOp.latchCount c := by
  cases hr : (s.chan c).rlatch with
  | some v => rw [latchCount_pending (s := s.startOp) hr]; rfl
  | none =>
    cases hk : (s.eval c).cnt with
    | some k => rw [latchCount_known (s := s.startOp) hr hk]; rfl
    | none => rw [latchCount_unknown (s := s.startOp) hr hk]; rfl

theorem State.latchStatus_startOp (s : State) (c : Chan) :
    (s.startOp.latchStatus c).startOp = s.startOp.latchStatus c := by
  cases hb : (s.chan c).slatch with
  | some b => rw [latchStatus_pending (s := s.startOp) hb]; rfl
  | none => rw [latchStatus_free (s := s.startOp) hb]; rfl

/-- The single-channel commands of one channel's turn of a read-back. -/
def turnOps (countN statusN : Bool) (selected : Bool) (c : Chan) : List Instr :=
  if selected then
    (if statusN then [] else [Instr.pitReadback true false (c == 2) (c == 1) (c == 0)]) ++
      (if countN then [] else [Instr.pitLatch c])
  else []

theorem readbackOps_eq_turns (countN statusN cnt2 cnt1 cnt0 : Bool) : readbackOps countN statusN cnt2 cnt1 cnt0 =
    turnOps countN statusN cnt0 0 ++ turnOps countN statusN cnt1 1 ++ turnOps countN statusN cnt2 2 := rfl

/-- One channel's turn (R154) is what its single-channel commands do, and it leaves nothing for `startOp` to clear. -/
theorem execSeq_turnOps {s : State} (hs : s.startOp = s) (countN statusN selected : Bool) (c : Chan) : ∃ t,
    (if selected then s.readbackChan countN statusN c else s) = t ∧ t.startOp = t ∧
    ∀ rest, execSeq (turnOps countN statusN selected c ++ rest) s = execSeq rest t := by
  have hstatus : exec (.pitReadback true false (c == 2) (c == 1) (c == 0)) s = .next (s.latchStatus c) := by
    rw [exec_readback_status, hs]
  have hkept : (s.latchStatus c).startOp = s.latchStatus c := by rw [← hs, State.latchStatus_startOp]
  have hlatch : ∀ u : State, u.startOp = u → exec (.pitLatch c) u = .next (u.latchCount c) ∧
      (u.latchCount c).startOp = u.latchCount c := fun u hu => by
    have hcount := u.latchCount_startOp c
    rw [hu] at hcount
    exact ⟨by rw [exec_pitLatch, hu], hcount⟩
  refine ⟨_, rfl, ?_⟩
  cases selected with
  | false => exact ⟨hs, fun rest => rfl⟩
  | true =>
    cases statusN with
    | true =>
      cases countN with
      | true => exact ⟨hs, fun rest => rfl⟩
      | false =>
        obtain ⟨hexec, hrest⟩ := hlatch s hs
        exact ⟨hrest, fun rest => execSeq_cons rest hexec⟩
    | false =>
      cases countN with
      | true => exact ⟨hkept, fun rest => execSeq_cons rest hstatus⟩
      | false =>
        obtain ⟨hexec, hrest⟩ := hlatch (s.latchStatus c) hkept
        exact ⟨hrest, fun rest => (execSeq_cons _ hstatus).trans (execSeq_cons rest hexec)⟩

/-- Settles O27: the read-back takes the three turns in order, and so do the commands. -/
theorem readbackLatchByLatch : Obligations.ReadbackLatchByLatch := by
  intro countN statusN cnt2 cnt1 cnt0 s
  obtain ⟨t0, turn0, hclear0, hrun0⟩ := execSeq_turnOps s.startOp_startOp countN statusN cnt0 0
  obtain ⟨t1, turn1, hclear1, hrun1⟩ := execSeq_turnOps hclear0 countN statusN cnt1 1
  obtain ⟨t2, turn2, -, hrun2⟩ := execSeq_turnOps hclear1 countN statusN cnt2 2
  refine ⟨t2, ?_, ?_⟩
  · rw [← turn2, ← turn1, ← turn0]
    rfl
  · rw [readbackOps_eq_turns, List.append_assoc, hrun0, hrun1, ← List.append_nil (turnOps _ _ _ _), hrun2]
    rfl

/-! ### The mode control word (R153) -/

/-- Settles O28: `Channel.programmed` is the channel of R153, and only mode 0 starts with OUT low. -/
theorem modeControlWord : Obligations.ModeControlWord := by
  intro c rw m bcd s
  have hout : (if m = 0 then false else true) = decide (m ≠ 0) := by
    by_cases hm : m = 0 <;> simp [hm]
  rw [hout]
  rfl

/-! ### Count writes (R150, R155) -/

/-- A reload is at least 1, so the bound of R150's nominal interval never acts on it. -/
theorem nominalOf_reloadOf (v : Word16) : nominalOf (reloadOf v) = reloadOf v :=
  max_eq_right (reloadOf_range v).1

theorem State.setChan_setChan (s : State) (c : Chan) (x y : Channel) : (s.setChan c x).setChan c y = s.setChan c y := by
  simp [State.setChan]

/-- A load is the loaded state of R150, keeping the channel's write phase. -/
theorem State.startOp_load (s : State) (c : Chan) (v : Word16) :
    s.startOp.load c v = loadedState s c v (s.chan c).wphase := by
  rw [State.load, nominalOf_reloadOf]
  rfl

/-- A load after the write phase is set is the loaded state with that phase. -/
theorem State.startOp_setPhase_load (s : State) (c : Chan) (v : Word16) (ph : Phase) :
    (s.startOp.setChan c { s.chan c with wphase := ph }).load c v = loadedState s c v ph := by
  rw [State.load, nominalOf_reloadOf, State.setChan_setChan, State.setChan_chan_self]
  rfl

theorem State.writeCount_lsb {s : State} {c : Chan} (hrw : (s.chan c).rw = .lsb) (v : Byte) :
    s.writeCount c v = s.load c (joinBytes 0 v) := by
  simp only [State.writeCount, hrw]

theorem State.writeCount_msb {s : State} {c : Chan} (hrw : (s.chan c).rw = .msb) (v : Byte) :
    s.writeCount c v = s.load c (joinBytes v 0) := by
  simp only [State.writeCount, hrw]

/-- Settles O29, by the four cases of R155. -/
theorem countWrite : Obligations.CountWrite := by
  intro c v s
  have hexec : exec (.pitDataWrite c v) s = .next (s.startOp.writeCount c v) := rfl
  rw [hexec]
  refine ⟨fun hrw => ?_, fun hrw => ?_, fun hrw hphase => ?_, fun hrw hphase => ?_⟩
  · rw [State.writeCount_lsb (s := s.startOp) hrw, State.startOp_load]
    rfl
  · rw [State.writeCount_msb (s := s.startOp) hrw, State.startOp_load]
    rfl
  · rw [State.writeCount_word_lo (s := s.startOp) hrw hphase]
    rfl
  · rw [State.writeCount_word_hi (s := s.startOp) hrw hphase, State.startOp_chan, State.startOp_setPhase_load]
    rfl

/-! ### Reads (R156, R157, R302) -/

section
variable {s : State} {c : Chan}

theorem latchCount_slatch (s : State) (c : Chan) : ((s.latchCount c).chan c).slatch = (s.chan c).slatch := by
  cases hr : (s.chan c).rlatch with
  | some v => rw [latchCount_pending hr]
  | none =>
    cases hk : (s.eval c).cnt with
    | some k => rw [latchCount_known hr hk, State.setChan_chan_self]; rfl
    | none => rw [latchCount_unknown hr hk, State.drawn_chan, State.setChan_chan_self]; rfl

/-- A read of a pending count returns its byte in the channel's width. -/
theorem State.readCount_pending {v : Word16} (hstatus : (s.chan c).slatch = none) (hlatch : (s.chan c).rlatch = some v) :
    s.readCount c = (s.setChan c (s.chan c).afterCountRead).answer (.byte ((s.chan c).latchByte v)) := by
  have hkept : s.latchCount c = s := latchCount_pending hlatch
  rw [State.readCount_latched hstatus (by rw [hkept, hlatch]), hkept]

/-- With no status pending, latching the count first does not change what a read does. -/
theorem State.readCount_latchCount (hstatus : (s.chan c).slatch = none) :
    (s.latchCount c).readCount c = s.readCount c := by
  obtain ⟨v, hv⟩ := Option.isSome_iff_exists.1 (latchCount_rlatch_isSome s c)
  rw [State.readCount_latched hstatus hv, State.readCount_pending ((latchCount_slatch s c).trans hstatus) hv]

end

/-- Settles O30: the status first, then the pending count in its width, and a latch taken first leaves the read as it
is. -/
theorem countRead : Obligations.CountRead := by
  intro c s answered
  have hexec : ∀ u : State, exec (.pitDataRead c) u = .next (u.startOp.readCount c) := fun u => rfl
  rw [hexec]
  refine ⟨fun b hb => ?_, fun v hstatus hlatch => ?_, fun hstatus _ => ?_⟩
  · rw [State.readCount_status s.startOp hb]
    rfl
  · rw [State.readCount_pending (s := s.startOp) hstatus hlatch, State.startOp_chan]
    refine ⟨fun hrw => ?_, fun hrw => ?_, fun hrw hphase => ?_, fun hrw hphase => ?_⟩
    · simp [answered, Channel.latchByte, Channel.afterCountRead, hrw, lowByte]
    · simp [answered, Channel.latchByte, Channel.afterCountRead, hrw, highByte]
    · simp [answered, Channel.latchByte, Channel.afterCountRead, hrw, hphase, lowByte]
    · simp [answered, Channel.latchByte, Channel.afterCountRead, hrw, hphase, highByte]
  · refine ⟨s.startOp.latchCount c, rfl, ?_⟩
    rw [hexec, State.latchCount_startOp, State.readCount_latchCount (s := s.startOp) hstatus]

/-- Settles O31: the control port's read is one answer, in every state. -/
theorem controlPortRead : Obligations.ControlPortRead := fun _ => rfl

/-- Settles O36: with the channel in range, ELAPSED answers `vclock - base_time`. -/
theorem elapsedTicks : Obligations.ElapsedTicks := by
  intro c s e hclock
  rw [exec_elapsed_inRange c.isLt, elapsed_of_add hclock]
  rfl

end Sys2Proof.Machine
end

section
/-! PROOFS of the acknowledges of 43_pic.md and 42_scheduler.md (R212 to R215, R251 to R254, R272): INTA and a poll end
in `update()` and `ack(L)`, which settle the cascade of the state with the input taken and the line's drive released,
and for line 0 arm IRQ0 again and run one pass. -/

namespace Sys2Proof.Machine

open Sys2Proof.Claims (Eligible taken rearmed)

/-! ### Eligibility is the resolver's answer (R245) -/

theorem eligible_iff_resolve {s : State} {p : PicId} {i : Input} : Eligible s p i ↔ s.resolve p = some i :=
  (resolve_eq_some _ _ _).symm

theorem slaveOut_iff_eligible {s : State} : s.slaveOut = true ↔ ∃ j, Eligible s .slave j := by
  simp only [State.slaveOut, Option.isSome_iff_exists, eligible_iff_resolve]

theorem int_iff_eligible {s : State} : s.int = true ↔ ∃ i, Eligible s .master i := by
  simp only [State.int, Option.isSome_iff_exists, eligible_iff_resolve]

theorem eligible_startOp {s : State} {p : PicId} {i : Input} : Eligible s.startOp p i ↔ Eligible s p i := by
  cases p <;> rfl

/-! ### A settled cascade (R247): what it leaves alone, and what leaves it settled -/

theorem CascadeSettled.line_eq {s t : State} (h : CascadeSettled s t) (l : Line) : t.line l = s.line l := by
  rw [h.frame]
  rfl

theorem CascadeSettled.vclock_eq {s t : State} (h : CascadeSettled s t) : t.vclock = s.vclock := by rw [h.frame]

theorem CascadeSettled.emit {s t : State} (h : CascadeSettled s t) (e : Event) :
    CascadeSettled (s.emit e) (t.emit e) :=
  ⟨congrArg (State.emit e) h.frame, h.others, h.latch, h.request⟩

theorem CascadeSettled.answer {s t : State} (h : CascadeSettled s t) (r : Result) :
    CascadeSettled (s.answer r) (t.answer r) :=
  ⟨congrArg (State.answer r) h.frame, h.others, h.latch, h.request⟩

theorem CascadeSettled.setLine {s t : State} (h : CascadeSettled s t) (l : Line) (x : SchedLine) :
    CascadeSettled (s.setLine l x) (t.setLine l x) :=
  ⟨congrArg (State.setLine · l x) h.frame, h.others, h.latch, h.request⟩

/-! ### The input taken and its line released (R251, R213) -/

theorem picOfIrq_irqOf (p : PicId) (i : Input) : picOfIrq (irqOf p i) = p := ((irqOf_eq_iff p i _).1 rfl).1.symm

theorem inputOfIrq_irqOf (p : PicId) (i : Input) : inputOfIrq (irqOf p i) = i := ((irqOf_eq_iff p i _).1 rfl).2.symm

theorem irqOf_eq_zero_iff {p : PicId} {i : Input} : irqOf p i = 0 ↔ p = .master ∧ i = 0 := irqOf_eq_iff p i 0

theorem lowered_intack (x : Pic) (i : Input) (driven : Bool) : (x.intack i).lowered i driven = taken x i driven := by
  cases driven <;> cases h : hasBit x.elcr i <;> simp [Pic.lowered, Pic.intack, taken, h]

/-- With nothing driven there is nothing to lower. -/
theorem intack_eq_taken (x : Pic) (i : Input) : x.intack i = taken x i false := lowered_intack x i false

@[simp] theorem State.intack_drives (s : State) (p : PicId) (i : Input) (l : Irq) :
    (s.intack p i).drives l = s.drives l := rfl
@[simp] theorem State.intack_line (s : State) (p : PicId) (i : Input) (l : Line) :
    (s.intack p i).line l = s.line l := rfl
@[simp] theorem State.intack_chan (s : State) (p : PicId) (i : Input) (c : Chan) :
    (s.intack p i).chan c = s.chan c := rfl
@[simp] theorem State.intack_vclock (s : State) (p : PicId) (i : Input) : (s.intack p i).vclock = s.vclock := rfl

/-- An input put in service and its line released: the input is taken. -/
theorem released_intack (u : State) (p : PicId) (i : Input) : (u.intack p i).released (irqOf p i) =
    { u.setPic p (taken (u.pic p) i (u.drives (irqOf p i))) with drive := u.drive.set (irqOf p i).val false } := by
  rw [State.released, picOfIrq_irqOf, inputOfIrq_irqOf, State.intack_drives, State.intack, State.setPic_pic_self,
    lowered_intack]
  cases p <;> rfl

/-- The acknowledge of a line other than 0 settles the cascade of the state with the line released. -/
theorem update_ack_settled {u : State} {p : PicId} {i : Input} (hline : irqOf p i ≠ 0)
    (hslave : p = .slave → hasBit u.master.elatch Config.cascadeIn = true) :
    CascadeSettled ((u.released (irqOf p i)).emit (.ack (irqOf p i))) (u.update.ack (irqOf p i)) := by
  rw [ack_other hline]
  refine (releaseDrive_settled _ u ?_).emit _
  rwa [picOfIrq_irqOf]

/-! ### INTA (R252, R253) -/

/-- INTA acknowledges the master's own line i, which is not its cascade input or finds no slave request there. -/
theorem takeInterrupt_masterLine {s : State} {i : Input} (hi : Eligible s .master i)
    (hcascade : i = Config.cascadeIn → ∀ j, ¬Eligible s .slave j) :
    s.takeInterrupt = (s.intack .master i).finishEntry (irqOf .master i) (vectorOf s.master i) := by
  have hi : s.resolve .master = some i := eligible_iff_resolve.1 hi
  obtain ⟨h, -⟩ | ⟨k, h, -, ht⟩ | ⟨j, h, hj, -⟩ | ⟨h, -, ht⟩ := takeInterrupt_cases s
  · nomatch hi.symm.trans h
  · obtain rfl := Option.some.inj (hi.symm.trans h)
    exact ht
  · exact absurd (eligible_iff_resolve.2 hj) (hcascade (Option.some.inj (hi.symm.trans h)) j)
  · obtain rfl := Option.some.inj (hi.symm.trans h)
    exact ht

/-- INTA acknowledges the slave's line j through the master's cascade input. -/
theorem takeInterrupt_slaveLine {s : State} {j : Input} (hm : Eligible s .master Config.cascadeIn)
    (hj : Eligible s .slave j) : s.takeInterrupt =
      ((s.intack .master Config.cascadeIn).intack .slave j).finishEntry (irqOf .slave j) (vectorOf s.slave j) := by
  have hm : s.resolve .master = some Config.cascadeIn := eligible_iff_resolve.1 hm
  have hj : s.resolve .slave = some j := eligible_iff_resolve.1 hj
  obtain ⟨h, -⟩ | ⟨i, h, hi, -⟩ | ⟨k, -, hk, ht⟩ | ⟨-, h, -⟩ := takeInterrupt_cases s
  · nomatch hm.symm.trans h
  · exact absurd (Option.some.inj (hm.symm.trans h)).symm hi
  · obtain rfl := Option.some.inj (hj.symm.trans hk)
    exact ht
  · nomatch hj.symm.trans h

/-- Settles O48: the master's input is taken, and for line 2 the slave has nothing to take. -/
theorem intaMasterLine : Obligations.IntaMasterLine := by
  intro s i hi h0 hcascade
  have hline : irqOf .master i ≠ 0 := fun h => h0 (irqOf_eq_zero_iff.1 h).2
  have hnone : i = Config.cascadeIn → ∀ j, ¬Eligible s.startOp .slave j := fun h j hj =>
    hcascade h j (eligible_startOp.1 hj)
  have hsettled := (update_ack_settled (u := s.startOp.intack .master i) hline nofun).answer
    (.irq (some (irqOf .master i, vectorOf s.master i)))
  rw [released_intack] at hsettled
  exact ⟨_, congrArg Host.Outcome.next (takeInterrupt_masterLine (eligible_startOp.2 hi) hnone), hsettled⟩

/-- Settles O49: the slave's request stands at master input 2, so both inputs are taken. -/
theorem intaSlaveLine : Obligations.IntaSlaveLine := by
  intro s j hm hj hlatch
  have hline : irqOf .slave j ≠ 0 := fun h => nomatch (irqOf_eq_zero_iff.1 h).1
  have hout : hasBit s.master.elatch Config.cascadeIn = true := hlatch.trans (slaveOut_iff_eligible.2 ⟨j, hj⟩)
  have hsettled := (update_ack_settled (u := (s.startOp.intack .master Config.cascadeIn).intack .slave j) hline
    fun _ => hout).answer (.irq (some (irqOf .slave j, vectorOf s.slave j)))
  rw [released_intack, State.intack_drives, State.startOp_drives] at hsettled
  rw [← intack_eq_taken]
  exact ⟨_, congrArg Host.Outcome.next (takeInterrupt_slaveLine (eligible_startOp.2 hm) (eligible_startOp.2 hj)),
    hsettled⟩

/-! ### A poll read (R272) -/

/-- A poll of P takes input i: the poll flag is cleared and the input acknowledged on P, before the `update()`. -/
def State.pollTaken (p : PicId) (i : Input) (s : State) : State :=
  (s.setPic p { s.pic p with poll := false }).intack p i

theorem State.pollTaken_eq_setPic (p : PicId) (i : Input) (s : State) :
    s.pollTaken p i = s.setPic p (taken { s.pic p with poll := false } i false) := by
  rw [← intack_eq_taken]
  cases p <;> rfl

theorem pollRead_eligible {s : State} {p : PicId} {i : Input} (hi : Eligible s p i) : s.pollRead p =
    (if (s.pollTaken p i).update.pollRunsAck p i then (s.pollTaken p i).update.ack (irqOf p i)
      else (s.pollTaken p i).update).answer (.byte (pollWord i)) := by
  have hi : s.resolve p = some i := eligible_iff_resolve.1 hi
  obtain ⟨h, -⟩ | ⟨k, h, ht⟩ := pollRead_cases s p
  · nomatch hi.symm.trans h
  · obtain rfl := Option.some.inj (hi.symm.trans h)
    exact ht

/-- The poll runs no `ack` for the master's cascade input standing for a slave request. -/
theorem pollRunsAck_pollTaken (s : State) (p : PicId) (i : Input) :
    (s.pollTaken p i).update.pollRunsAck p i = false ↔
      p = .master ∧ i = Config.cascadeIn ∧ ∃ j, Eligible s .slave j := by
  rw [← slaveOut_iff_eligible]
  cases p with
  | master =>
    have hout : (s.pollTaken .master i).update.slaveOut = s.slaveOut := slaveOut_eq_of_slave rfl
    simp [State.pollRunsAck, hout]
  | slave => simp [State.pollRunsAck]

/-- Settles O52: the poll takes the input on its own PIC; its `ack`, if it runs one, settles the cascade too. -/
theorem pollAcknowledges : Obligations.PollAcknowledges := by
  intro s p i a0 hi hline hlatch x
  have hexec : exec (.picReadPoll p a0) s = .next (s.startOp.pollRead p) := rfl
  rw [hexec, pollRead_eligible (eligible_startOp.2 hi)]
  have hruns := pollRunsAck_pollTaken s.startOp p i
  refine ⟨fun hno => ⟨_, rfl, ?_⟩, fun hyes => ⟨_, rfl, ?_⟩⟩
  · rw [hruns.2 hno, if_neg Bool.false_ne_true]
    have hsettled := (update_settled (s.startOp.pollTaken p i)).answer (.byte (pollWord i))
    rw [State.pollTaken_eq_setPic, State.startOp_pic] at hsettled
    rw [State.pollTaken_eq_setPic, State.startOp_pic]
    exact hsettled
  · have hyes := Bool.eq_true_of_not_eq_false fun h => hyes (hruns.1 h)
    rw [hyes, if_pos rfl]
    have hslave : p = .slave → hasBit (s.startOp.pollTaken p i).master.elatch Config.cascadeIn = true := fun hp => by
      subst hp
      exact hlatch.trans (slaveOut_iff_eligible.2 ⟨i, hi⟩)
    have hsettled := (update_ack_settled hline hslave).answer (.byte (pollWord i))
    rw [State.pollTaken, released_intack, State.setPic_pic_self, State.setPic_drives, State.startOp_drives,
      State.startOp_pic] at hsettled
    rw [State.pollTaken, State.startOp_pic]
    cases p <;> exact hsettled

/-! ### Arming a line (R204, R205) -/

theorem intervalOk_iff {iv : Int} : intervalOk iv = true ↔ 0 < iv ∧ iv < 0x3fffffff := by
  rw [intervalOk, Bool.and_eq_true, decide_eq_true_eq, decide_eq_true_eq]
  rfl

/-- An accepted interval moves the due time on (R204, R205). -/
theorem armed_of_accepted {iv : Int} (h : 0 < iv ∧ iv < 0x3fffffff) (x : SchedLine) (now : Tick) :
    x.armed now iv = { x with nextDue := some (x.nextDue.getD now + iv.toNat) } := by
  have hok : intervalOk iv = true := intervalOk_iff.2 h
  cases hx : x.nextDue <;> simp [SchedLine.armed, armedDue, hok, hx]

/-- A rejected interval leaves it (R205). -/
theorem armed_of_rejected {iv : Int} (h : ¬(0 < iv ∧ iv < 0x3fffffff)) (x : SchedLine) (now : Tick) :
    x.armed now iv = x := by
  have hno : intervalOk iv = false := by rwa [← intervalOk_iff, Bool.not_eq_true] at h
  simp [SchedLine.armed, hno]

/-- Arming by a counter in range is the re-arming of R214, which an expired counter leaves out. -/
theorem armed_counter {counter : Counter} (h : ∀ n, counter = .count n → 1 ≤ n ∧ n ≤ 65536) (x : SchedLine)
    (now : Tick) : x.armed now counter.num = { x with nextDue := rearmed x.nextDue now counter } := by
  cases counter with
  | expired => exact armed_of_rejected (by decide) x now
  | count n => exact armed_of_accepted (by have := h n rfl; simp only [Counter.num]; omega) x now

/-! ### Line 0 (R214, R217) -/

/-- The acknowledge of line 0 arms it by channel 0's reload in the released state, then runs one pass (R214, R204). -/
theorem update_ack_timer (u : State) : ∃ m t,
    CascadeSettled ((u.released 0).setLine 0 ((u.line 0).armed u.vclock (u.chan 0).counter.num)) m ∧
    Activated m t ∧ u.update.ack 0 = t.emit (.ack 0) := by
  have hreleased := releaseDrive_settled 0 u nofun
  have hframe := releaseDrive_frame 0 u.update
  refine ⟨_, _, hreleased.setLine 0 ((u.line 0).armed u.vclock (u.chan 0).counter.num), activate_activated _, ?_⟩
  rw [ack_timer]
  generalize u.update.releaseDrive 0 = w at hframe
  rw [hframe]
  rfl

/-- Line 0 put in service and acknowledged: taken, released and re-armed, then one pass and its ACK (R212 to R214). -/
theorem intack_update_ack_timer (u : State) (h : ∀ n, (u.chan 0).counter = .count n → 1 ≤ n ∧ n ≤ 65536) :
    ∃ m t, CascadeSettled { u with
        master := taken u.master 0 (u.drives 0)
        drive := u.drive.set 0 false
        sched := u.sched.set 0 { u.line 0 with nextDue := rearmed (u.line 0).nextDue u.vclock (u.chan 0).counter } } m ∧
      Activated m t ∧ (u.intack .master 0).update.ack 0 = t.emit (.ack 0) := by
  obtain ⟨m, t, hm, ht, hack⟩ := update_ack_timer (u.intack .master 0)
  rw [State.intack_line, State.intack_chan, State.intack_vclock, armed_counter h,
    show (0 : Irq) = irqOf .master 0 from rfl, released_intack] at hm
  exact ⟨m, t, hm, ht, hack⟩

theorem vectorOf_zero (x : Pic) : vectorOf x 0 = x.base := BitVec.or_zero

/-- Settles O50: both acknowledges take input 0 and end in `ack(0)`. -/
theorem timerAcknowledgeRearms : Obligations.TimerAcknowledgeRearms := by
  intro s a0 hi hrange before
  have hi := eligible_startOp.2 hi
  constructor
  · obtain ⟨m, t, hm, ht, hack⟩ := intack_update_ack_timer s.startOp hrange
    refine ⟨m, t, hm, ht, congrArg Host.Outcome.next ?_⟩
    rw [takeInterrupt_masterLine hi nofun, vectorOf_zero]
    exact congrArg (State.answer (.irq (some (0, s.master.base)))) hack
  · obtain ⟨m, t, hm, ht, hack⟩ :=
      intack_update_ack_timer (s.startOp.setPic .master { s.master with poll := false }) hrange
    refine ⟨m, t, hm, ht, congrArg Host.Outcome.next ?_⟩
    have hruns : (s.startOp.pollTaken .master 0).update.pollRunsAck .master 0 = true := rfl
    rw [pollRead_eligible hi, hruns, if_pos rfl]
    exact congrArg (State.answer (.byte 0x80)) hack

/-- Settles O51: the re-armed due time has come too and was not delivered before, so the pass of the acknowledge
delivers it; the request is a new one because the release lowered the input. -/
theorem timerCatchesUp : Obligations.TimerCatchesUp := by
  intro s n d hinv hi hdriven hcount hnext hhonored hpast
  obtain ⟨⟨m, t, hm, ht, hexec⟩, -⟩ := timerAcknowledgeRearms s false hi (hinv.chans 0).counter
  have hn : n ≠ 0 := Nat.one_le_iff_ne_zero.1 ((hinv.chans 0).counter n hcount).1
  have hline : m.line 0 = { nextDue := some (d + n), lastHonored := some d } := by
    rw [hm.line_eq]
    refine (State.setLine_line_self s 0 _).trans ?_
    rw [hnext, hcount]
    exact congrArg (SchedLine.mk _) hhonored
  have hclock : m.vclock = s.vclock := hm.vclock_eq
  have hdue : m.isDue 0 = true := by simp [State.isDue, hline, hclock, hpast, hn]
  refine ⟨_, hexec, ?_, ?_, ?_, ?_⟩
  · exact (ht.nextDue 0).trans (by rw [hline])
  · exact (ht.honored 0).trans (by rw [hline, hdue]; rfl)
  · exact (ht.driven 0).trans (by rw [show lineOfIrq 0 = 0 from rfl, hdue, Bool.or_true])
  · have hlatch : hasBit m.master.elatch 0 = false := by
      rw [(hm.others 0 (by decide)).2]
      simp [taken, hdriven]
    refine (ht.request .master 0 nofun).trans ?_
    rw [State.inputDue, show lineOfIrq (irqOf .master 0) = 0 from rfl, hdue, State.pic_master, hlatch]
    simp

end Sys2Proof.Machine
end

section
/-! PROOFS of the statements of 42_scheduler.md: SCHEDULE arms and runs one pass (R203 to R207), a due time moves by an
arming operation only and by its interval (R206, R214, R219, R220), a pass run again delivers nothing (R218), and
MAY_SLEEP answers (R216). -/

namespace Sys2Proof.Machine

open Sys2Proof.Claims (Eligible mayArm rearmsLine rearmCount PhaseKept sampleDelta writesChannels)

/-! ### SCHEDULE (R203 to R205) -/

/-- Settles O54: the line is armed as R205 says, and the pass is `activate()`. -/
theorem scheduleArms : Obligations.ScheduleArms := by
  intro l iv s
  refine ⟨_, exec_schedule_inRange l.isLt iv s, ?_⟩
  have hpass := schedule_activated l iv s.startOp
  rw [State.startOp_line, State.startOp_vclock] at hpass
  split
  · rename_i hok
    rwa [armed_of_accepted hok] at hpass
  · rename_i hno
    rwa [armed_of_rejected hno] at hpass

/-! ### A pass run again (R218) -/

theorem sampleDelta_self (x : HostTick) : sampleDelta (some x) x = 0 := by simp [sampleDelta]

/-- A pass over lines of which none is due emits no VIRQ. -/
theorem Activated.virq_not_mem {s t : State} (h : Activated s t) (hd : ∀ l, s.isDue l = false) (l : Line)
    (hs : Event.virq l ∉ s.events) : Event.virq l ∉ t.events := by
  have hpass : ∀ k, s.passEvent k ≠ some (.virq l) := fun k => by
    unfold State.passEvent
    rw [hd k]
    split <;> simp
  simp [h.events, hs, hpass]

/-- Settles O57: after a pass no line is due, and the same sample again does not move the clock. -/
theorem secondPassDeliversNothing : Obligations.SecondPassDeliversNothing := by
  intro x g₁ g₂ s t h
  obtain ⟨t', ht', hfirst⟩ := advanceDrives x g₁ s
  obtain rfl := Host.Outcome.next.inj (ht'.symm.trans h)
  obtain ⟨u, hu, hsecond⟩ := advanceDrives x g₂ t'
  have hprev : t'.hostPrev = some x := by rw [hfirst.frame]
  have hresult : t'.result = .nothing := by rw [hfirst.frame]
  rw [hprev, sampleDelta_self] at hsecond
  have hidle : ∀ l, t'.isDue l = false := hfirst.isDue_eq_false
  refine ⟨u, hu, ?_, fun l => hsecond.virq_not_mem hidle l ?_⟩
  · conv_lhs => rw [hsecond.idle_frame hidle]
    rw [hsecond.ifOffCount_eq, ← hprev, ← hresult]
    rfl
  · show Event.virq l ∉ ite _ _ _
    split <;> simp

/-! ### MAY_SLEEP (R216) -/

theorem busy_eq_false_iff (s : State) (threshold : Nat) (vip sigq : Bool) :
    s.busy threshold vip sigq = false ↔ s.master.isr = 0 ∧ s.slave.isr = 0 ∧ vip = false ∧ sigq = false ∧
      s.int = false ∧ s.vclock ≤ s.watermark + threshold := by
  simp only [State.busy, Bool.or_eq_false_iff, decide_eq_false_iff_not, not_not, gt_iff_lt, not_lt,
    Nat.sub_le_iff_le_add', and_assoc]

/-- Settles O59: the answer is that R216's `busy` is false. -/
theorem maySleepAnswers : Obligations.MaySleepAnswers := by
  intro vip sigq s
  refine ⟨!s.startOp.busy Config.floodThreshold vip sigq, rfl, ?_⟩
  have hint : s.int = false ↔ ∀ i, ¬Eligible s .master i := by
    rw [← not_exists, ← int_iff_eligible, Bool.not_eq_true]
  rw [Bool.not_eq_true', busy_eq_false_iff, ← hint]
  rfl

/-! ### What moves a due time (R201, R206, R214, R220) -/

/-- From s to t line l's due time stays, and if l is line 0 it has not been acknowledged. -/
def State.KeepsDue (l : Line) (s t : State) : Prop :=
  (t.line l).nextDue = (s.line l).nextDue ∧ (l = 0 → .ack 0 ∉ t.events)

/-- From s to t line 0 has been acknowledged, and armed by channel 0's counter (R214). -/
def State.RearmsTimer (s t : State) : Prop :=
  .ack 0 ∈ t.events ∧ (t.line 0).nextDue = ((s.line 0).armed s.vclock (s.chan 0).counter.num).nextDue

section
variable {s t : State}

theorem State.KeepsDue.of_eq (l : Line) (hsched : t.sched = s.sched) (hevents : t.events = []) : s.KeepsDue l t := by
  refine ⟨?_, fun _ => by simp [hevents]⟩
  rw [State.line, hsched, State.line]

/-- Where the scheduler's lines are the same, the same due times are kept; an answer moves none. -/
theorem State.KeepsDue.answer_of_sched {u : State} {l : Line} (h : u.KeepsDue l t) (hsched : u.sched = s.sched)
    (r : Result) : s.KeepsDue l (t.answer r) := by
  refine ⟨h.1.trans ?_, h.2⟩
  rw [State.line, hsched, State.line]

theorem State.RearmsTimer.answer_of_eq {u : State} (h : u.RearmsTimer t) (hsched : u.sched = s.sched)
    (hclock : u.vclock = s.vclock) (hch : u.ch = s.ch) (r : Result) : s.RearmsTimer (t.answer r) := by
  refine ⟨h.1, h.2.trans ?_⟩
  rw [State.line, State.line, State.chan, State.chan, hsched, hclock, hch]

/-- One pass acknowledges no line. -/
theorem Activated.ack_mem (h : Activated s t) (l : Irq) : .ack l ∈ t.events ↔ .ack l ∈ s.events := by
  have hpass : ∀ k, s.passEvent k ≠ some (.ack l) := fun k => by
    unfold State.passEvent
    split
    · simp
    · split <;> simp
  simp [h.events, hpass]

end

/-- The acknowledge of line k moves no due time but line 0's own (R214). -/
theorem update_ack_keepsDue {k : Irq} {l : Line} (h : k ≠ 0 ∨ l ≠ 0) {u : State} (hevents : u.events = []) :
    u.KeepsDue l (u.update.ack k) := by
  refine ⟨ack_nextDue k l h u.update, fun hl => ?_⟩
  have hk : k ≠ 0 := h.resolve_right (fun hne => hne hl)
  rw [ack_other hk, State.emit_events, releaseDrive_frame, State.update_events, hevents]
  simp [hk.symm]

theorem update_ack_rearmsTimer (u : State) : u.RearmsTimer (u.update.ack 0) := by
  obtain ⟨m, t, hm, ht, hack⟩ := update_ack_timer u
  rw [hack]
  refine ⟨by simp, ?_⟩
  rw [State.emit_line, ht.nextDue, hm.line_eq, State.setLine_line_self]

/-- INTA keeps line l's due time, or l is line 0 and it acknowledges it. -/
theorem takeInterrupt_due (l : Line) {s : State} (hevents : s.events = []) :
    s.KeepsDue l s.takeInterrupt ∨ (l = 0 ∧ s.RearmsTimer s.takeInterrupt) := by
  obtain ⟨-, ht⟩ | ⟨i, -, -, ht⟩ | ⟨j, -, -, ht⟩ | ⟨-, -, ht⟩ := takeInterrupt_cases s <;> rw [ht]
  · exact .inl (.of_eq l rfl hevents)
  · by_cases h : irqOf .master i ≠ 0 ∨ l ≠ 0
    · exact .inl ((update_ack_keepsDue (u := s.intack .master i) h hevents).answer_of_sched rfl _)
    · obtain ⟨hk, hl⟩ : irqOf .master i = 0 ∧ l = 0 := by simpa using h
      rw [hk]
      exact .inr ⟨hl, (update_ack_rearmsTimer (s.intack .master i)).answer_of_eq rfl rfl rfl _⟩
  · have hk : irqOf .slave j ≠ 0 := fun h => nomatch (irqOf_eq_zero_iff.1 h).1
    exact .inl ((update_ack_keepsDue (u := (s.intack .master _).intack .slave j) (.inl hk) hevents).answer_of_sched
      rfl _)
  · exact .inl ((update_ack_keepsDue (u := s.intack .master _) (.inl (by decide)) hevents).answer_of_sched rfl _)

/-- A poll keeps line l's due time, or it is a poll of the master, l is line 0 and it acknowledges it. -/
theorem pollRead_due (p : PicId) (l : Line) {s : State} (hevents : s.events = []) :
    s.KeepsDue l (s.pollRead p) ∨ (p = .master ∧ l = 0 ∧ s.RearmsTimer (s.pollRead p)) := by
  obtain ⟨-, ht⟩ | ⟨i, hi, -⟩ := pollRead_cases s p
  · rw [ht]
    exact .inl (.of_eq l rfl hevents)
  · rw [pollRead_eligible (eligible_iff_resolve.2 hi)]
    split
    · by_cases h : irqOf p i ≠ 0 ∨ l ≠ 0
      · exact .inl ((update_ack_keepsDue (u := s.pollTaken p i) h hevents).answer_of_sched rfl _)
      · obtain ⟨hk, hl⟩ : irqOf p i = 0 ∧ l = 0 := by simpa using h
        rw [hk]
        exact .inr ⟨(irqOf_eq_zero_iff.1 hk).1, hl,
          (update_ack_rearmsTimer (s.pollTaken p i)).answer_of_eq rfl rfl rfl _⟩
    · exact .inl (.of_eq l rfl hevents)

/-- What operation i, taking s to t, does to line l's due time. -/
inductive DueEffect (l : Line) (i : Instr) (s t : State) : Prop
  | kept (op : ∀ iv, i ≠ .schedule l.val iv) (keeps : s.KeepsDue l t)
  | scheduled (iv : Int) (op : i = .schedule l.val iv)
      (due : (t.line l).nextDue = ((s.line l).armed s.vclock iv).nextDue)
  | acknowledged (line : l = 0) (op : mayArm 0 i = true) (rearms : s.RearmsTimer t)
  | reset (kind : ResetKind) (op : i = .reset kind)

/-- SCHEDULE arms its own line alone. -/
theorem schedule_dueEffect (l k : Line) (iv : Int) (s : State) :
    DueEffect l (.schedule k.val iv) s (s.startOp.schedule k iv) := by
  have hpass := schedule_activated k iv s.startOp
  by_cases hk : l = k
  · subst hk
    refine .scheduled iv rfl ?_
    rw [hpass.nextDue, State.setLine_line_self]
    rfl
  · refine .kept (fun jv h => hk (Fin.ext ?_)) ⟨?_, fun _ => by simp [hpass.ack_mem]⟩
    · injection h with h
      exact h.symm
    · rw [hpass.nextDue, State.setLine_line_other _ hk]
      rfl

/-- Every operation ends in a next state; it arms a line or keeps its due time. -/
theorem exec_next_dueEffect (l : Line) (i : Instr) (s : State) : ∃ t, exec i s = .next t ∧ DueEffect l i s t := by
  by_cases hpit : writesChannels i = true
  · obtain ⟨t, ht, -⟩ := exec_next_effect i s
    have hframe := (channelsAreThePits i s t ht).1 hpit
    refine ⟨t, ht, .kept (fun iv h => ?_) (.of_eq l (by rw [hframe]) (by rw [hframe]))⟩
    subst h
    nomatch hpit
  cases i with
  | reset kind => exact ⟨_, rfl, .reset kind rfl⟩
  | schedule k iv =>
    by_cases hk : k < 32
    · exact ⟨_, exec_schedule_inRange hk iv s, schedule_dueEffect l ⟨k, hk⟩ iv s⟩
    · refine ⟨_, exec_schedule_outOfRange hk iv s, .kept (fun jv h => ?_) (.of_eq l rfl rfl)⟩
      injection h with h
      omega
  | inta =>
    refine ⟨_, rfl, ?_⟩
    obtain h | ⟨hl, h⟩ := takeInterrupt_due l (s := s.startOp) rfl
    · exact .kept nofun h
    · exact .acknowledged hl rfl h
  | picReadPoll p a0 =>
    refine ⟨_, rfl, ?_⟩
    obtain h | ⟨rfl, hl, h⟩ := pollRead_due p l (s := s.startOp) rfl
    · exact .kept nofun h
    · exact .acknowledged hl rfl h
  | advance x guestIf =>
    obtain ⟨t, ht, hpass⟩ := advanceDrives x guestIf s
    refine ⟨t, ht, .kept nofun ⟨hpass.nextDue l, fun _ => ?_⟩⟩
    rw [hpass.ack_mem]
    split <;> simp
  | raise k =>
    by_cases hk : k < 16
    · exact ⟨_, exec_raise_inRange hk s, .kept nofun (.of_eq l rfl rfl)⟩
    · exact ⟨_, exec_raise_outOfRange hk s, .kept nofun (.of_eq l rfl rfl)⟩
  | lower k =>
    by_cases hk : k < 16
    · exact ⟨_, exec_lower_inRange hk s, .kept nofun (.of_eq l rfl rfl)⟩
    · exact ⟨_, exec_lower_outOfRange hk s, .kept nofun (.of_eq l rfl rfl)⟩
  | elapsed c =>
    by_cases hc : c < 3
    · exact ⟨_, exec_elapsed_inRange hc s, .kept nofun (.of_eq l rfl rfl)⟩
    · exact ⟨_, exec_elapsed_outOfRange hc s, .kept nofun (.of_eq l rfl rfl)⟩
  | pitReadback | pitLatch | pitMode | pitDataWrite | pitDataRead => exact absurd rfl hpit
  | _ => exact ⟨_, rfl, .kept nofun (.of_eq l rfl rfl)⟩

theorem exec_dueEffect (l : Line) {i : Instr} {s t : State} (h : exec i s = .next t) : DueEffect l i s t := by
  obtain ⟨u, hu, heffect⟩ := exec_next_dueEffect l i s
  obtain rfl := Host.Outcome.next.inj (hu.symm.trans h)
  exact heffect

/-- Settles O17: by its `DueEffect`, an operation that may not arm the line keeps its due time. -/
theorem dueTimesMoveOnlyByArming : Obligations.DueTimesMoveOnlyByArming := by
  intro i s t l h hno
  cases exec_dueEffect l h with
  | kept _ keeps => exact keeps.1
  | scheduled iv op =>
    subst op
    simp [mayArm] at hno
  | acknowledged line op =>
    subst line
    exact absurd op (by simp [hno])
  | reset kind op =>
    subst op
    nomatch hno

/-! ### Phase lock (R206, R219) -/

theorem rearmsLine_of_keepsDue {l : Line} {i : Instr} {s t : State} (op : ∀ iv, i ≠ .schedule l.val iv)
    (keeps : s.KeepsDue l t) : rearmsLine l i t = false := by
  refine Bool.or_eq_false_iff.2 ⟨?_, ?_⟩
  · cases i with
    | schedule k iv => exact beq_eq_false_iff_ne.2 fun hk => op iv (by rw [hk])
    | _ => rfl
  · simpa using keeps.2

/-- An operation that keeps the phase moves an armed line's due time by the interval if it arms the line, else not. -/
theorem nextDue_of_phaseKept {l : Line} {iv : Int} {i : Instr} {is : List Instr} {s t : State} {d : Tick}
    (hiv : 0 < iv ∧ iv < 0x3fffffff) (hd : (s.line l).nextDue = some d) (hkept : PhaseKept l iv (i :: is) s)
    (h : exec i s = .next t) :
    (t.line l).nextDue = some (d + (if rearmsLine l i t then 1 else 0) * iv.toNat) := by
  obtain ⟨hreset, hschedule, htimer, -⟩ := hkept t h
  have harmed : ((s.line l).armed s.vclock iv).nextDue = some (d + iv.toNat) := by
    rw [armed_of_accepted hiv, hd]
    rfl
  cases exec_dueEffect l h with
  | kept op keeps =>
    rw [keeps.1, hd, rearmsLine_of_keepsDue op keeps]
    simp
  | scheduled jv op due =>
    have hyes : rearmsLine l i t = true := by simp [op, rearmsLine]
    rw [due, hschedule jv op, harmed, hyes]
    simp
  | acknowledged line op rearms =>
    subst line
    have hyes : rearmsLine 0 i t = true := by simp [rearmsLine, rearms.1]
    have hnum : (s.chan 0).counter.num = iv := by
      rw [htimer rfl rearms.1]
      exact Int.toNat_of_nonneg hiv.1.le
    rw [rearms.2, hnum, harmed, hyes]
    simp
  | reset kind op => exact absurd op (hreset kind)

/-- Settles O58, by induction on the operations: each adds the interval if it arms the line. -/
theorem phaseLock : Obligations.PhaseLock := by
  intro l iv ops s t d hpos hlimit hd hkept hrun
  induction ops generalizing s d with
  | nil =>
    obtain rfl := Option.some.inj hrun
    simpa [rearmCount] using hd
  | cons i is ih =>
    obtain ⟨u, hu, -⟩ := exec_next_effect i s
    rw [execSeq_cons is hu] at hrun
    have hnext := nextDue_of_phaseKept ⟨hpos, hlimit⟩ hd hkept hu
    obtain ⟨-, -, -, hrest⟩ := hkept u hu
    rw [ih u _ hnext hrest hrun, rearmCount, hu, Nat.add_mul, Nat.add_assoc]

end Sys2Proof.Machine
end

section
/-! PROOFS of the statements of 43_pic.md: an input enters service only by an acknowledge (R251), a PIC command writes
its fields and then updates the cascade (R257 to R271, R275), the reads and IS_PENDING change nothing (R250, R273, R274,
R276), and RAISE and LOWER act at the line's input (R241, R242). -/

namespace Sys2Proof.Machine

open Sys2Proof.Claims (Eligible writesChannels)

/-! ### Who keeps the in-service registers (R251, R327) -/

theorem CascadeSettled.isr_eq {s t : State} (h : CascadeSettled s t) (p : PicId) : (t.pic p).isr = (s.pic p).isr := by
  rw [h.frame]
  cases p <;> rfl

theorem Activated.isr_eq {s t : State} (h : Activated s t) (p : PicId) : (t.pic p).isr = (s.pic p).isr := by
  rw [h.frame]
  cases p <;> rfl

section
variable (s : State) (p : PicId)

@[simp] theorem State.update_isr : (s.update.pic p).isr = (s.pic p).isr := (update_settled s).isr_eq p

@[simp] theorem State.schedule_isr (l : Line) (iv : Int) : ((s.schedule l iv).pic p).isr = (s.pic p).isr := by
  rw [(schedule_activated l iv s).isr_eq, State.setLine_pic]

@[simp] theorem State.picRaise_isr (l : Irq) : ((s.picRaise l).pic p).isr = (s.pic p).isr := by
  rw [picRaise_frame]
  cases p <;> rfl

@[simp] theorem State.picLower_isr (l : Irq) : ((s.picLower l).pic p).isr = (s.pic p).isr := by
  rw [picLower_frame]
  cases p <;> rfl

@[simp] theorem State.ack_isr (l : Irq) : ((s.ack l).pic p).isr = (s.pic p).isr := by
  rw [ack_frame]
  cases p <;> rfl

theorem State.resetFields_isr (kind : ResetKind) : ((s.resetFields kind).pic p).isr = 0 := by
  cases p <;> rfl

/-- A poll of the other PIC takes its input there; the cascade and the `ack` put nothing in service. -/
theorem State.pollRead_isr_other {q : PicId} (hq : p ≠ q) : ((s.pollRead q).pic p).isr = (s.pic p).isr := by
  obtain ⟨-, h⟩ | ⟨i, hi, -⟩ := pollRead_cases s q
  · rw [h, State.answer_pic, State.drawn_pic, State.setPic_pic_other s hq]
  · have htaken : (s.pollTaken q i).pic p = s.pic p := by
      rw [State.pollTaken_eq_setPic, State.setPic_pic_other s hq]
    rw [pollRead_eligible (eligible_iff_resolve.2 hi), State.answer_pic]
    split <;> simp [htaken]

end

/-- From s to t no input of P has entered service. -/
def State.NoNewService (p : PicId) (s t : State) : Prop :=
  ∀ j, hasBit (t.pic p).isr j = true → hasBit (s.pic p).isr j = true

section
variable {s t : State} {p : PicId}

theorem State.NoNewService.of_eq (h : (t.pic p).isr = (s.pic p).isr) : s.NoNewService p t := fun _ hj => h ▸ hj

theorem State.NoNewService.of_pic_eq (h : t.pic p = s.pic p) : s.NoNewService p t := .of_eq (congrArg Pic.isr h)

/-- A PIC write that puts no input in service, and no `update()`. -/
theorem State.NoNewService.setPic (q : PicId) {x : Pic}
    (hx : ∀ j, hasBit x.isr j = true → hasBit (s.pic q).isr j = true) : s.NoNewService p (s.startOp.setPic q x) := by
  intro j hj
  by_cases hq : p = q
  · subst hq
    rw [State.setPic_pic_self] at hj
    exact hx j hj
  · rwa [State.setPic_pic_other _ hq, State.startOp_pic] at hj

/-- A PIC write that puts no input in service, and the `update()`. -/
theorem State.NoNewService.writePic (q : PicId) {f : Pic → Pic}
    (hf : ∀ (x : Pic) (j : Input), hasBit (f x).isr j = true → hasBit x.isr j = true) :
    s.NoNewService p (s.startOp.writePic q f) := by
  intro j hj
  rw [State.writePic, State.update_isr, State.startOp_pic] at hj
  exact State.NoNewService.setPic q (hf _) j hj

end

theorem hasBit_of_clearBit {v : Byte} {i j : Input} (h : hasBit (clearBit v i) j = true) : hasBit v j = true := by
  rw [hasBit_clearBit, Bool.and_eq_true] at h
  exact h.1

theorem nseoi_isr_le (x : Pic) (j : Input) (h : hasBit x.nseoi.isr j = true) : hasBit x.isr j = true := by
  obtain ⟨-, hx⟩ | ⟨i, -, -, hx⟩ := nseoi_cases x <;> rw [hx] at h
  · exact h
  · exact hasBit_of_clearBit h

/-- The rotating EOI does what `nseoi(P)` does and makes the input it ended the lowest (R268). -/
theorem rotNseoi_cases (x : Pic) : (x.isr = 0 ∧ x.rotNseoi = x) ∨
    ∃ i, IsHighest x.prio x.isr i ∧ x.rotNseoi = { x with isr := clearBit x.isr i, prio := i + 1 } := by
  unfold Pic.rotNseoi Pic.nseoi
  cases h : x.nseoiInput with
  | none => exact .inl ⟨(nseoiInput_eq_none x).1 h, rfl⟩
  | some i => exact .inr ⟨i, (nseoiInput_eq_some x i).1 h, rfl⟩

theorem rotNseoi_isr_le (x : Pic) (j : Input) (h : hasBit x.rotNseoi.isr j = true) : hasBit x.isr j = true := by
  obtain ⟨-, hx⟩ | ⟨i, -, hx⟩ := rotNseoi_cases x <;> rw [hx] at h
  · exact h
  · exact hasBit_of_clearBit h

/-- Every operation but INTA and a poll of P ends in a next state with no new input of P in service. -/
theorem exec_next_noNewService {i : Instr} {p : PicId} (hinta : i ≠ .inta) (hpoll : ∀ a0, i ≠ .picReadPoll p a0)
    (s : State) : ∃ t, exec i s = .next t ∧ s.NoNewService p t := by
  by_cases hpit : writesChannels i = true
  · obtain ⟨t, ht, -⟩ := exec_next_effect i s
    have hframe := (channelsAreThePits i s t ht).1 hpit
    refine ⟨t, ht, .of_pic_eq ?_⟩
    rw [hframe]
    cases p <;> rfl
  cases i with
  | pitReadback | pitLatch | pitMode | pitDataWrite | pitDataRead => exact absurd rfl hpit
  | picIcw1 q ltim adi sngl ic4 =>
    refine ⟨_, rfl, .writePic q fun x j hj => ?_⟩
    nomatch (hasBit_zero j).symm.trans hj
  | picIcw2 q v => exact ⟨_, rfl, .setPic q fun _ => id⟩
  | picIcw3 q v => exact ⟨_, rfl, .setPic q fun _ => id⟩
  | picIcw4 q sfnm buf ms aeoi upm => exact ⟨_, rfl, .setPic q fun _ => id⟩
  | picOcw1 q v => exact ⟨_, rfl, .writePic q fun _ _ => id⟩
  | picOcw3 q esmm smm poll rr ris => exact ⟨_, rfl, .writePic q fun _ _ => id⟩
  | picRotAeoiClr q => exact ⟨_, rfl, .writePic q fun _ _ => id⟩
  | picRotAeoiSet q => exact ⟨_, rfl, .writePic q fun _ _ => id⟩
  | picNop q => exact ⟨_, rfl, .writePic q fun _ _ => id⟩
  | picSetPrio q l => exact ⟨_, rfl, .writePic q fun _ _ => id⟩
  | elcrWrite q v => exact ⟨_, rfl, .writePic q fun _ _ => id⟩
  | picNseoi q => exact ⟨_, rfl, .writePic q nseoi_isr_le⟩
  | picRotNseoi q => exact ⟨_, rfl, .writePic q rotNseoi_isr_le⟩
  | picSeoi q l => exact ⟨_, rfl, .writePic q fun _ _ => hasBit_of_clearBit⟩
  | picRotSeoi q l => exact ⟨_, rfl, .writePic q fun _ _ => hasBit_of_clearBit⟩
  | picReadPoll q a0 =>
    have hq : p ≠ q := fun h => hpoll a0 (by rw [h])
    refine ⟨_, rfl, .of_eq ?_⟩
    rw [State.pollRead_isr_other _ p hq, State.startOp_pic]
  | inta => exact absurd rfl hinta
  | reset kind =>
    refine ⟨_, rfl, fun j hj => ?_⟩
    rw [State.schedule_isr, State.resetFields_isr, hasBit_zero] at hj
    nomatch hj
  | advance x guestIf =>
    obtain ⟨t, ht, hpass⟩ := advanceDrives x guestIf s
    refine ⟨t, ht, .of_eq ((hpass.isr_eq p).trans ?_)⟩
    cases p <;> rfl
  | schedule l iv =>
    by_cases hl : l < 32
    · exact ⟨_, exec_schedule_inRange hl iv s, .of_eq (by simp)⟩
    · exact ⟨_, exec_schedule_outOfRange hl iv s, .of_pic_eq (by simp)⟩
  | raise l =>
    by_cases hl : l < 16
    · exact ⟨_, exec_raise_inRange hl s, .of_eq (by simp)⟩
    · exact ⟨_, exec_raise_outOfRange hl s, .of_pic_eq (by simp)⟩
  | lower l =>
    by_cases hl : l < 16
    · exact ⟨_, exec_lower_inRange hl s, .of_eq (by simp)⟩
    · exact ⟨_, exec_lower_outOfRange hl s, .of_pic_eq (by simp)⟩
  | elapsed c =>
    by_cases hc : c < 3
    · exact ⟨_, exec_elapsed_inRange hc s, .of_pic_eq (by simp)⟩
    · exact ⟨_, exec_elapsed_outOfRange hc s, .of_pic_eq (by simp)⟩
  | _ => exact ⟨_, rfl, .of_pic_eq (by cases p <;> rfl)⟩

/-- Settles O18: any operation but INTA and a poll of the PIC puts none of its inputs in service. -/
theorem serviceStartsWithAcknowledge : Obligations.ServiceStartsWithAcknowledge := by
  intro i s t p j h hafter hbefore
  by_contra hno
  obtain ⟨hinta, hpoll⟩ := not_or.1 hno
  obtain ⟨u, hu, hservice⟩ := exec_next_noNewService hinta (not_exists.1 hpoll) s
  obtain rfl := Host.Outcome.next.inj (hu.symm.trans h)
  nomatch hbefore.symm.trans (hservice j hafter)

/-! ### A PIC write and then the cascade (R247) -/

@[simp] theorem State.setPic_pic (s : State) (p : PicId) : s.setPic p (s.pic p) = s := by
  cases p <;> rfl

/-- An operation that writes PIC P's fields by f leaves the cascade settled after that write. -/
theorem writePic_settled (p : PicId) (f : Pic → Pic) (s : State) :
    CascadeSettled (s.startOp.setPic p (f (s.pic p))) (s.startOp.writePic p f) := by
  rw [State.writePic, State.startOp_pic]
  exact update_settled _

/-- Where f leaves the PIC as it is, only the cascade is updated. -/
theorem writePic_settled_of_eq {p : PicId} {f : Pic → Pic} {s : State} (h : f (s.pic p) = s.pic p) :
    CascadeSettled s.startOp (s.startOp.writePic p f) := by
  have hsettled := writePic_settled p f s
  rwa [h, ← State.startOp_pic, State.setPic_pic] at hsettled

/-- Settles O37: ICW1's PIC is written out in the statement. -/
theorem initializationCommand : Obligations.InitializationCommand := fun p ltim _ sngl ic4 s =>
  ⟨_, rfl, writePic_settled p (Pic.icw1 ltim sngl ic4) s⟩

/-- Settles O40: each sets one register; the ELCR's writable bits are R35's. -/
theorem maskAndTriggerWrites : Obligations.MaskAndTriggerWrites := by
  intro p v s
  refine ⟨⟨_, rfl, writePic_settled p (fun x => { x with imr := v }) s⟩, _, rfl, ?_⟩
  have hsettled := writePic_settled p (fun x => { x with elcr := v &&& Config.elcrMask p }) s
  cases p <;> exact hsettled

/-- OCW3's poll bit can set the pending poll and not clear it (R271). -/
theorem ocw3_eq (esmm smm poll rr ris : Bool) (x : Pic) : x.ocw3 esmm smm poll rr ris = { x with
    poll := poll || x.poll
    rsel := if rr = true then ris else x.rsel
    smm := if esmm = true then smm else x.smm } := by
  cases poll <;> rfl

/-- Settles O41: each command is one write of the mode bits it names. -/
theorem modeCommands : Obligations.ModeCommands := by
  intro p esmm smm poll rr ris s
  refine ⟨⟨_, rfl, ?_⟩, ⟨_, rfl, writePic_settled p (fun x => { x with rotAeoi := false }) s⟩,
    ⟨_, rfl, writePic_settled p (fun x => { x with rotAeoi := true }) s⟩, _, rfl, writePic_settled_of_eq rfl⟩
  rw [← ocw3_eq]
  exact writePic_settled p (Pic.ocw3 esmm smm poll rr ris) s

/-- Settles O42: by the cases of the non-specific EOIs, nothing in service or an input of highest priority. -/
theorem nonSpecificEoi : Obligations.NonSpecificEoi := by
  intro p s
  refine ⟨⟨_, rfl, ?_⟩, _, rfl, ?_⟩
  · obtain ⟨hisr, h⟩ | ⟨i, -, hi, h⟩ := nseoi_cases (s.pic p)
    · exact .inl ⟨hisr, writePic_settled_of_eq h⟩
    · refine .inr ⟨i, hi, ?_⟩
      rw [← h]
      exact writePic_settled p Pic.nseoi s
  · obtain ⟨hisr, h⟩ | ⟨i, hi, h⟩ := rotNseoi_cases (s.pic p)
    · exact .inl ⟨hisr, writePic_settled_of_eq h⟩
    · refine .inr ⟨i, i + 1, hi, rank_makeLowest i, ?_⟩
      rw [← h]
      exact writePic_settled p Pic.rotNseoi s

/-- Settles O43: after `prio <- L + 1` input L has rank 7. -/
theorem specificEoiAndPriority : Obligations.SpecificEoiAndPriority := fun p l s =>
  ⟨⟨_, rfl, writePic_settled p (Pic.seoi l) s⟩,
    ⟨_, _, rfl, rank_makeLowest l, writePic_settled p (Pic.makeLowest l) s⟩,
    ⟨_, _, rfl, rank_makeLowest l, writePic_settled p (fun x => (x.seoi l).makeLowest l) s⟩⟩

/-! ### Initialization words and reads (R258 to R260, R273, R274, R276) -/

/-- Settles O38: one write each, without `update()`; ICW2 moves on by SNGL and then, as ICW3, by IC4. -/
theorem initializationWords : Obligations.InitializationWords := by
  intro p v sfnm buf ms aeoi upm s
  refine ⟨?_, rfl, rfl⟩
  have hnext : (if (s.pic p).sngl = true then afterIcw3 (s.pic p).ic4 else .icw3) =
      if (s.pic p).sngl = false then InitState.icw3 else if (s.pic p).ic4 = true then .icw4 else .ready := by
    cases (s.pic p).sngl <;> rfl
  rw [← hnext]
  rfl

/-- Settles O44: each read is one answer. -/
theorem picReads : Obligations.PicReads := fun _ _ => ⟨rfl, rfl, rfl⟩

/-! ### Requests (R241, R242, R250, R254) -/

/-- `raise_in` at input j: a spent edge alone adds no request (R241). -/
theorem raiseIn_eq (x : Pic) (j : Input) : x.raiseIn j = { x with
    irr := if hasBit x.elcr j = false ∧ hasBit x.elatch j = true then x.irr else setBit x.irr j
    elatch := setBit x.elatch j } := by
  unfold Pic.raiseIn
  cases hasBit x.elcr j <;> simp

theorem picRaise_irqOf_settled (p : PicId) (j : Input) (s : State) :
    CascadeSettled (s.startOp.setPic p ((s.pic p).raiseIn j)) (s.startOp.picRaise (irqOf p j)) := by
  rw [State.picRaise, picOfIrq_irqOf, inputOfIrq_irqOf]
  exact writePic_settled p (Pic.raiseIn j) s

theorem picLower_irqOf_settled (p : PicId) (j : Input) (s : State) :
    CascadeSettled (s.startOp.setPic p ((s.pic p).lowerIn j)) (s.startOp.picLower (irqOf p j)) := by
  rw [State.picLower, picOfIrq_irqOf, inputOfIrq_irqOf]
  exact writePic_settled p (Pic.lowerIn j) s

/-- Settles O45: line `irqOf p j` is in range and its input is j of P. -/
theorem raiseAndLower : Obligations.RaiseAndLower := by
  intro p j s
  refine ⟨⟨_, exec_raise_inRange (irqOf p j).isLt s, ?_⟩,
    ⟨_, exec_lower_inRange (irqOf p j).isLt s, picLower_irqOf_settled p j s⟩⟩
  rw [← raiseIn_eq]
  exact picRaise_irqOf_settled p j s

/-- Settles O46: the answer is INT, which is up exactly when the master's resolver answers an input. -/
theorem isPendingAnswers : Obligations.IsPendingAnswers := fun s => ⟨s.int, rfl, int_iff_eligible⟩

/-- Settles O47: the master's resolver answers none, the first case of INTA. -/
theorem intaNothing : Obligations.IntaNothing := by
  intro s hnone
  have hresolve : s.startOp.resolve .master = none := resolve_eq_none_of_not_eligible hnone
  obtain ⟨-, h⟩ | ⟨i, hi, -⟩ | ⟨j, hi, -⟩ | ⟨hi, -⟩ := takeInterrupt_cases s.startOp
  · exact congrArg Host.Outcome.next h
  all_goals nomatch hresolve.symm.trans hi

end Sys2Proof.Machine
end

section
/-! PROOFS of the statements of 44_speaker_port.md about port 0x61 (R300, R301, R303): the read's byte field by field,
and when channel 2's OUT, its bit 5, is low in mode 2. -/

namespace Sys2Proof.Machine

/-! ### The byte a read answers (R98, R301) -/

section
variable (bits76 : BitVec 2) (out : Bool) (bit4 : BitVec 1) (spkr : Byte)

theorem spkrByte_extract_written : (spkrByte bits76 out bit4 spkr).extractLsb' 0 4 = spkr.extractLsb' 0 4 :=
  BitVec.extractLsb'_append_eq_right

theorem spkrByte_getLsbD_out : (spkrByte bits76 out bit4 spkr).getLsbD 5 = out := by
  simp only [spkrByte, BitVec.getLsbD_append]
  simp

end

/-- SPKR.READ on the whole state: bits 7:6 are drawn first, then bit 4 (log 2). -/
theorem exec_spkrRead (s : State) : exec .spkrRead s = .next { s with
    draws := s.draws + 2
    result := .byte (spkrByte (Config.draw2 s.draws) (s.eval 2).out (Config.draw1 (s.draws + 1)) s.spkr)
    events := [] } := rfl

/-- Settles O33: the write stores its byte, and nothing else is written. -/
theorem speakerWrite : Obligations.SpeakerWrite := fun _ _ => rfl

/-- Settles O34: bit 5 is channel 2's OUT, which is OUT at the phase that the congruence of R142 fixes. -/
theorem speakerRead : Obligations.SpeakerRead := by
  intro s p hbase hphase
  refine ⟨_, exec_spkrRead s, spkrByte_extract_written .., ?_⟩
  rw [spkrByte_getLsbD_out, eval_out_eq_outNow hbase hphase]

/-! ### The tone of mode 2 (R146, R303) -/

/-- In modes 2 and 6 OUT is low at the last tick of the period only. -/
theorem eval2_out_eq_false_iff {n p : Nat} (h : p < n) : (eval2 n p).out = false ↔ p = n - 1 := by
  have hlast : n - p = 1 ↔ p = n - 1 := by omega
  simp [eval2, hlast]

/-- Settles O35: channel 2 is not anchored, so its phase is the elapsed ticks modulo n. -/
theorem speakerTone : Obligations.SpeakerTone := by
  intro s n e hmode hcounter hclock hn
  have heval : s.eval 2 = eval2 n (e % n) := by
    rw [eval_rate hcounter (.inl hmode), phase_unanchored (.inl (by decide)), elapsed_of_add hclock]
  refine ⟨_, _, exec_spkrRead s, rfl, ?_⟩
  rw [spkrByte_getLsbD_out, heval]
  exact eval2_out_eq_false_iff (Nat.mod_lt e hn)

end Sys2Proof.Machine
end

section
/-! PROOFS of the statements of 60_exceptions.md: an operation whose arguments are out of range ends in one mark (R321,
R323), and no other operation writes the marks (R22, R330). -/

namespace Sys2Proof.Machine

/-! ### One mark (R321) -/

/-- The state with one mark, on the whole state. -/
theorem startOp_raiseFault_eq (s : State) (f : Fault) : s.startOp.raiseFault f =
    { s with fault := if f ∈ s.fault then s.fault else s.fault ++ [f], result := .nothing, events := [] } := by
  rw [State.raiseFault, State.startOp_fault, insertFault_eq]
  rfl

/-- Settles O10: each of the four calls raises its mark when its number is out of range. -/
theorem badArgumentsMark : Obligations.BadArgumentsMark := by
  intro s n iv marked
  have hmarked : ∀ f, s.startOp.raiseFault f = marked f := startOp_raiseFault_eq s
  refine ⟨fun hn => ?_, fun hn => ?_, fun hn => ?_, fun hn => ?_⟩
  · rw [exec_raise_outOfRange (not_lt.2 hn), hmarked]
  · rw [exec_lower_outOfRange (not_lt.2 hn), hmarked]
  · rw [exec_schedule_outOfRange (not_lt.2 hn), hmarked]
  · rw [exec_elapsed_outOfRange (not_lt.2 hn), hmarked]

/-- Only the four calls that take a number can be ill-formed, and then they raise a mark and end. -/
theorem exec_of_not_wellFormed {i : Instr} (h : i.wellFormed = false) (s : State) :
    ∃ f, exec i s = .next (s.startOp.raiseFault f) := by
  cases i with
  | raise l => exact ⟨_, exec_raise_outOfRange (of_decide_eq_false h) s⟩
  | lower l => exact ⟨_, exec_lower_outOfRange (of_decide_eq_false h) s⟩
  | schedule l iv => exact ⟨_, exec_schedule_outOfRange (of_decide_eq_false h) iv s⟩
  | elapsed c => exact ⟨_, exec_elapsed_outOfRange (of_decide_eq_false h) s⟩
  | _ => nomatch h

/-! ### What writes no mark -/

section
variable (s : State)

@[simp] theorem State.activate_fault : s.activate.fault = s.fault := by rw [(activate_activated s).frame]

@[simp] theorem State.schedule_fault (l : Line) (iv : Int) : (s.schedule l iv).fault = s.fault :=
  State.activate_fault _

@[simp] theorem State.ack_fault (l : Irq) : (s.ack l).fault = s.fault := by rw [ack_frame]

@[simp] theorem State.intack_fault (p : PicId) (i : Input) : (s.intack p i).fault = s.fault := rfl

@[simp] theorem State.finishEntry_fault (l : Irq) (v : Byte) : (s.finishEntry l v).fault = s.fault :=
  State.ack_fault s.update l

@[simp] theorem State.takeInterrupt_fault : s.takeInterrupt.fault = s.fault := by
  obtain ⟨-, h⟩ | ⟨i, -, -, h⟩ | ⟨j, -, -, h⟩ | ⟨-, -, h⟩ := takeInterrupt_cases s <;> simp [h]

@[simp] theorem State.pollRead_fault (p : PicId) : (s.pollRead p).fault = s.fault := by
  obtain ⟨-, h⟩ | ⟨i, -, h⟩ := pollRead_cases s p
  · simp [h]
  · rw [h]
    split <;> simp

@[simp] theorem State.livelockCheck_fault (limit : Nat) (guestIf : Bool) :
    (s.livelockCheck limit guestIf).fault = s.fault := by
  unfold State.livelockCheck
  split
  · rfl
  · split <;> rfl

end

/-! ### Every operation -/

/-- An operation whose arguments are in range writes no mark; RESET keeps them too (R361). -/
theorem exec_fault_of_wellFormed {i : Instr} {s t : State} (hi : i.wellFormed = true) (h : exec i s = .next t) :
    t.fault = s.fault := by
  cases i with
  | pitReadback | pitLatch | pitDataWrite | pitDataRead => rw [(channelsAreThePits _ s t h).1 rfl]
  | raise l =>
    rw [exec_raise_inRange (of_decide_eq_true hi)] at h
    exact Host.Outcome.next.inj h ▸ rfl
  | lower l =>
    rw [exec_lower_inRange (of_decide_eq_true hi)] at h
    exact Host.Outcome.next.inj h ▸ rfl
  | schedule l iv =>
    rw [exec_schedule_inRange (of_decide_eq_true hi)] at h
    exact Host.Outcome.next.inj h ▸ State.schedule_fault ..
  | elapsed c =>
    rw [exec_elapsed_inRange (of_decide_eq_true hi)] at h
    exact Host.Outcome.next.inj h ▸ rfl
  | inta => exact Host.Outcome.next.inj h ▸ State.takeInterrupt_fault _
  | picReadPoll p a0 => exact Host.Outcome.next.inj h ▸ State.pollRead_fault _ p
  | reset kind => exact Host.Outcome.next.inj h ▸ State.schedule_fault (s.startOp.resetFields kind) ..
  | advance x guestIf =>
    exact Host.Outcome.next.inj h ▸
      (State.activate_fault _).trans (State.livelockCheck_fault (s.startOp.timeUpdate x) ..)
  | _ => exact Host.Outcome.next.inj h ▸ rfl

/-- Settles O14: with its arguments in range an operation writes no mark; out of range it ends in one mark joined to the
set. -/
theorem faultMarksStay : Obligations.FaultMarksStay := by
  intro i s t h
  cases hi : i.wellFormed with
  | true =>
    have hkept := exec_fault_of_wellFormed hi h
    exact ⟨fun f hf => hkept ▸ hf, fun _ => hkept, nofun⟩
  | false =>
    obtain ⟨f, hf⟩ := exec_of_not_wellFormed hi s
    obtain rfl := Host.Outcome.next.inj (hf.symm.trans h)
    have hmark : f ∈ (s.startOp.raiseFault f).fault := mem_insertFault.2 (.inl rfl)
    exact ⟨fun g hg => mem_insertFault.2 (.inr hg), nofun, fun _ => ⟨rfl, List.ne_nil_of_mem hmark⟩⟩

end Sys2Proof.Machine
end

section
/-! PROOFS of the statement of 70_reset_and_hazards.md: RESET takes R361's table and arms IRQ0 (R360). No line is due
after the table, and IRQ0's first due time lies ahead, so the pass that ends the arming changes nothing. -/

namespace Sys2Proof.Machine

/-- With no line armed, arming one puts it an interval ahead of the clock and delivers nothing (R201, R204). -/
theorem schedule_of_unarmed {s : State} (h : ∀ k, (s.line k).nextDue = none) (l : Line) {iv : Int}
    (hiv : 0 < iv ∧ iv < 0x3fffffff) :
    s.schedule l iv = s.setLine l { s.line l with nextDue := some (s.vclock + iv.toNat) } := by
  rw [State.schedule, armed_of_accepted hiv, h l, Option.getD_none]
  refine activate_of_ahead fun k d hd => ?_
  by_cases hk : k = l
  · subst hk
    rw [State.setLine_line_self] at hd
    obtain rfl := Option.some.inj hd
    exact Nat.lt_add_of_pos_right (Int.pos_iff_toNat_pos.1 hiv.1)
  · rw [State.setLine_line_other s hk, h k] at hd
    nomatch hd

/-- Channel 0's count, by which RESET arms IRQ0 (R360, R361). -/
theorem resetFields_counter (kind : ResetKind) (s : State) :
    ((s.resetFields kind).chan 0).counter = .count 65536 := by
  cases kind <;> rfl

/-- RESET is the table, then IRQ0 armed at a full count from the clock (R360). -/
theorem exec_reset (kind : ResetKind) (s : State) : exec (.reset kind) s =
    .next ((s.startOp.resetFields kind).setLine 0
      { nextDue := some (resetClock kind s.vclock + 65536), lastHonored := none }) := by
  have harm := schedule_of_unarmed (s := s.startOp.resetFields kind)
    (fun k => by rw [resetFields_line]; rfl) 0 (iv := 65536) (by decide)
  rw [resetFields_line] at harm
  calc exec (.reset kind) s
      = .next ((s.startOp.resetFields kind).schedule 0 ((s.startOp.resetFields kind).chan 0).counter.num) := rfl
    _ = .next ((s.startOp.resetFields kind).schedule 0 65536) := by rw [resetFields_counter]; rfl
    _ = _ := congrArg _ harm

/-- A cold RESET gives the initial state but for the marks and the model's own `draws` and `inbox` (R360). -/
theorem exec_reset_cold (s : State) : exec (.reset .cold) s =
    .next { State.reset with fault := s.fault, draws := s.draws, inbox := s.inbox } := by
  have hclock : resetClock .cold s.vclock + 65536 = 65536 := Nat.zero_add _
  rw [exec_reset, hclock]
  rfl

/-- Settles O60: the table with IRQ0 armed, field by field, and from a cold RESET the initial state. -/
theorem resetTable : Obligations.ResetTable := by
  intro kind s
  refine ⟨fun hcold => hcold ▸ exec_reset_cold s, ?_⟩
  rw [exec_reset]
  cases kind <;> rfl

end Sys2Proof.Machine
end

section
/-! PROOFS of the statement of 95_test_vectors.md part 2.1: each word is the word of an access to a port of R62, and what
that access is in its context evaluates to the operation written beside the word. -/

namespace Sys2Proof

/-- Settles O5: each word by the kind of its access (`Access.decodeBus_eq`), in the order of the statement. -/
theorem decodedWords : Obligations.DecodedWords :=
  ⟨(Access.control 0x36).decodeBus_eq,
    (Access.control 0x0F).decodeBus_eq,
    (Access.countRead 2 0x00).decodeBus_eq,
    (Access.command .slave 0x11).decodeBus_eq,
    (Access.command .master 0xC4).decodeBus_eq,
    (Access.dataByte .master 0x04).decodeBus_eq,
    (Access.picRead .slave true 0x00).decodeBus_eq,
    (Access.elcrWrite .slave 0xFF).decodeBus_eq,
    (Access.spkrWrite 0x03).decodeBus_eq⟩

end Sys2Proof
end
